-- ==== Sys2Proof/Word.lean ====
section
/-! DEFINITION. The unsigned widths of 00_scope.md rule R7, the fixed-length byte strings of rule R9, and
the eight-word running hash state of 40_hash_primitive.md rule R125. Nothing here computes. -/

namespace Sys2Proof

/-- `u8` of rule R7. -/
abbrev Byte := BitVec 8

/-- `u32` of rule R7: every host register, every SHA-256 word, every worker index. -/
abbrev Word := BitVec 32

/-- `u64` of rule R7: START_NONCE, the low half of a nonce, BITLEN. -/
abbrev Long := BitVec 64

/-- `bytes[n]` of rule R9: a sequence of exactly `n` bytes, index 0 first. -/
abbrev Bytes (n : Nat) := { l : List Byte // l.length = n }

/-- `u32[8]` of rule R125: the running hash state (index 0 is `a`), and the working variables a to h of rule R128. -/
structure HashWords where
  a : Word
  b : Word
  c : Word
  d : Word
  e : Word
  f : Word
  g : Word
  h : Word
  deriving DecidableEq, Repr

end Sys2Proof
end

