-- ==== Sys2Proof/Config.lean ====
section
/-! DEFINITION. What is fixed for this hardware (00_scope.md rule R5) and every value the spec leaves open.
A free value is an opaque constant with no body: a claim that holds of the model holds whatever it is
(00_scope.md rule R10: "a model treats it as a draw (a free input under no law), never as a chosen value"). -/

namespace Sys2Proof

/-- The agents that take steps (00_scope.md rule R6), and the reset input, whose assertion "is a step that
overrides every other agent" (70_reset_and_hazards.md rule R280). A schedule is a sequence of these. -/
inductive Mover where
  | host
  | setup
  | worker (g : Word)
  | reset
  deriving DecidableEq, Repr, Inhabited

namespace Config

/-- `PREFIX_MAX` (rule R5, decision D1). -/
def prefixMax : Nat := 8192

/-- `NONCE_HEX_LEN` (rule R5). -/
def nonceHexLen : Nat := 64

/-- How many lanes the hardware has beyond the first: a free value, read by no rule (log entry 14). -/
opaque extraLanes : Nat

/-- `P_LANES` (rule R5, decision D29): an open positive integer that "has no effect on any rule of this spec". -/
def pLanes : Nat := extraLanes + 1

/-- The byte that bus offset `off` of a buffer window holds after the `epoch`-th reset, until it is written
(rules R280 and R290: "each byte is a draw at reset"). Free value, log entry 1. -/
opaque resetByte (epoch off : Nat) : Byte

/-- The word that the `k`-th host read returns where 20_memory.md rule R68 leaves it UNSPECIFIED
("the word returned is a draw, independent per read"). Free value, log entry 2. -/
opaque freeWord (k : Nat) : Word

/-- Byte `i` of CAND_HEX[g], as START leaves it (10_state.md rule R46: UNSPECIFIED). Free value, log entry 3. -/
opaque candHexByte (k g i : Nat) : Byte

/-- Byte `i` of CAND_DIG[g], as START leaves it (10_state.md rule R46: UNSPECIFIED). Free value, log entry 3. -/
opaque candDigByte (k g i : Nat) : Byte

/-- The agent that moves at the `k`-th step for which State lists no choice (20_memory.md rule R75: "any enabled
step of any agent may be taken next"). Free value, log entry 4. -/
opaque freeMover (k : Nat) : Mover

end Config

end Sys2Proof
end

