-- ==== Sys2Proof/Syntax.lean ====
section
/-! DEFINITION. The operations of the block (00_scope.md rule R2, 30_encoding.md rules R90 to R99): one constructor
per row of spec/opcode_table.json. A register row has no operand but the data written, since OFF[1:0] selects
nothing (20_memory.md rule R63); a window row carries the word index (`WORD` of the table). An internal operation
carries those operands of its rule that are not pieces of the block's state. -/

namespace Sys2Proof

/-- The direction of a bus transaction, with the data a write carries (rule R91). -/
inductive BusDir where
  | read
  | write (data : Word)
  deriving DecidableEq, Repr

/-- Every row of the opcode table. -/
inductive Instr where
  -- host bus transactions (rule R92)
  | rdCmd
  | wrCmd (data : Word)
  | rdStatus
  | wrStatus (data : Word)
  | rdFound
  | wrFound (data : Word)
  | rdPrefixLen
  | wrPrefixLen (data : Word)
  | rdStartNonceLo
  | wrStartNonceLo (data : Word)
  | rdStartNonceHi
  | wrStartNonceHi (data : Word)
  | rdNonceOffset
  | wrNonceOffset (data : Word)
  | rdNonceStride
  | wrNonceStride (data : Word)
  | rdItersPerWorker
  | wrItersPerWorker (data : Word)
  | rdMode
  | wrMode (data : Word)
  | rdNumWorkers
  | wrNumWorkers (data : Word)
  | rdTargetHex (word : BitVec 4)
  | wrTargetHex (word : BitVec 4) (data : Word)
  | rdResultNonce (word : BitVec 4)
  | wrResultNonce (word : BitVec 4) (data : Word)
  | rdResultDigest (word : BitVec 3)
  | wrResultDigest (word : BitVec 3) (data : Word)
  | rdPrefix (word : BitVec 11)
  | wrPrefix (word : BitVec 11) (data : Word)
  | unmapped (off : BitVec 14) (dir : BusDir)
  -- host commands (rule R94)
  | nop
  | start
  | reservedCommand (v : Word)
  -- internal operations (rule R96)
  | compress (state : HashWords) (block : Bytes 64)
  | prefixClamp
  | midstateAbsorb
  | tailCapture
  | bitlenCompute
  | setup
  | nonceDerive (g : Word) (it : Word)
  | nonceBytes (high32 : Word) (low64 : Long)
  | nonceHex (nb : Bytes 32)
  | finalBlocks (hex : Bytes 64)
  | finalize (a : Bytes 64) (b : Bytes 64) (c : Option (Bytes 64))
  | hexNibble (c : Byte)
  | targetDecode
  | compare (dig : Bytes 32)
  | poll (g : Word)
  | claim (g : Word)
  | writeResult (g : Word)
  | publish (g : Word)
  | wait (g : Word)
  | eval (g : Word)
  | complete
  -- pseudo-operations of the host program syntax (rule R99)
  | wr64 (off : BitVec 14) (v : Long)
  | wrbuf (base : BitVec 14) (s : List Byte)
  | rdbuf (base : BitVec 14) (n : Nat)
  | waitdone
  deriving DecidableEq, Repr

/-- Whether an operation is a host pseudo-operation, which has no word of its own (rule R99: it expands to bus rows). -/
def Instr.isPseudo : Instr → Bool
  | .wr64 _ _ | .wrbuf _ _ | .rdbuf _ _ | .waitdone => true
  | _ => false

/-- One line of a host program (rules R98 and R99): a transaction as its encoded pair, a command word on its way to
CMD, or a pseudo-operation. -/
inductive HostItem where
  | txn (txn : BitVec 15) (data : Word)
  | command (v : Word)
  | wr64 (off : BitVec 14) (v : Long)
  | wrbuf (base : BitVec 14) (s : List Byte)
  | rdbuf (base : BitVec 14) (n : Nat)
  | waitdone
  deriving DecidableEq, Repr

/-- One entry of a schedule (20_memory.md rule R75): an agent that moves, or an internal operation named by its
number and operand bytes (30_encoding.md rule R96), as the schedules of 95_test_vectors.md name the step taken. -/
inductive Pick where
  | mover (m : Mover)
  | issue (id : Byte) (operands : List Byte)
  deriving DecidableEq, Repr

end Sys2Proof
end

