-- ==== Sys2Proof/Machine/Bytes.lean ====
section
/-! DEFINITION. Byte order in both senses of the spec: big-endian inside the block (20_memory.md rule R65, 00_scope.md
rule R9) and little-endian lanes on the host bus (rule R64); and the readers that take operands off a byte string. -/

namespace Sys2Proof

/-- `BE32` of rule R9: the first byte is the most significant. -/
def be32 (b0 b1 b2 b3 : Byte) : Word := b0 ++ b1 ++ b2 ++ b3

/-- `be32bytes` of rule R9. -/
def be32bytes (x : Word) : List Byte :=
  [x.extractLsb' 24 8, x.extractLsb' 16 8, x.extractLsb' 8 8, x.extractLsb' 0 8]

/-- `be64bytes` of rule R9. -/
def be64bytes (x : Long) : List Byte :=
  be32bytes (x.extractLsb' 32 32) ++ be32bytes (x.extractLsb' 0 32)

/-- `BE256` of rule R9, for a byte string of any length: the number whose most significant byte is the first. -/
def beNat (s : List Byte) : Nat := s.foldl (fun n b => 256 * n + b.toNat) 0

/-- `zeros(n)` of rule R9. -/
def zeros (n : Nat) : List Byte := List.replicate n 0

/-- `s[a..b)` of rule R9. -/
def slice (s : List Byte) (a b : Nat) : List Byte := (s.drop a).take (b - a)

/-- The byte string of length `n` whose byte `i` is `f i`. -/
def tabulate (n : Nat) (f : Nat → Byte) : Bytes n := ⟨(List.range n).map f, by simp⟩

/-- The bytes of a bus word in lane order: bits [8j+7:8j] carry byte `j` (rule R64). -/
def laneBytes (v : Word) : List Byte :=
  [v.extractLsb' 0 8, v.extractLsb' 8 8, v.extractLsb' 16 8, v.extractLsb' 24 8]

/-- The bus word whose lane `j` carries byte `j` (rule R64). -/
def laneWord (b0 b1 b2 b3 : Byte) : Word := b3 ++ b2 ++ b1 ++ b0

/-- The word of a transfer whose string may end inside it: "bytes past the end of s are 0x00" (30_encoding.md rule R99). -/
def laneWordAt (s : List Byte) : Word := laneWord (s.getD 0 0) (s.getD 1 0) (s.getD 2 0) (s.getD 3 0)

/-- Why a byte string is no operation: the decoder's rejections, by name. -/
inductive DecodeError where
  /-- No internal operation has this number (30_encoding.md rule R96 numbers 0x01 to 0x15). -/
  | noSuchOperation (id : Byte)
  /-- Fewer operand bytes than the operation has. -/
  | truncated
  /-- The byte that says whether FINALIZE has a third block is neither 0 nor 1. -/
  | badFlag (b : Byte)
  deriving DecidableEq, Repr

/-- Take `n` bytes off the front. -/
def takeBytes (n : Nat) (l : List Byte) : Except DecodeError (Bytes n × List Byte) :=
  if h : (l.take n).length = n then .ok (⟨l.take n, h⟩, l.drop n) else .error .truncated

/-- Take one byte off the front. -/
def takeByte : List Byte → Except DecodeError (Byte × List Byte)
  | b :: r => .ok (b, r)
  | [] => .error .truncated

/-- Take a big-endian `u32` off the front. -/
def takeWord : List Byte → Except DecodeError (Word × List Byte)
  | b0 :: b1 :: b2 :: b3 :: r => .ok (be32 b0 b1 b2 b3, r)
  | _ => .error .truncated

/-- Take a big-endian `u64` off the front. -/
def takeLong (l : List Byte) : Except DecodeError (Long × List Byte) := do
  let (hi, r) ← takeWord l
  let (lo, r) ← takeWord r
  return (hi ++ lo, r)

/-- The eight words of a hash state, big-endian, index 0 first (43_block_finalizer.md rule R186). -/
def hashBytes (v : HashWords) : List Byte :=
  be32bytes v.a ++ be32bytes v.b ++ be32bytes v.c ++ be32bytes v.d ++
  be32bytes v.e ++ be32bytes v.f ++ be32bytes v.g ++ be32bytes v.h

/-- Take eight big-endian words off the front. -/
def takeHash (l : List Byte) : Except DecodeError (HashWords × List Byte) := do
  let (a, r) ← takeWord l
  let (b, r) ← takeWord r
  let (c, r) ← takeWord r
  let (d, r) ← takeWord r
  let (e, r) ← takeWord r
  let (f, r) ← takeWord r
  let (g, r) ← takeWord r
  let (h, r) ← takeWord r
  return (⟨a, b, c, d, e, f, g, h⟩, r)

end Sys2Proof
end

