-- ==== Sys2Proof/WellFormed.lean ====
section
/-! DEFINITION. Which operations exist. The decoder makes only well-formed ones (the round trip says the converse);
a host program's pseudo-operation may name an offset outside the 14-bit bus, and then it has no expansion. -/

namespace Sys2Proof

/-- The offsets no row of 30_encoding.md rule R92 covers (rule R93): 0x02C to 0x0FF, 0x140 to 0x1FF, 0x260 to 0x1FFF. -/
def unmappedOff (off : BitVec 14) : Bool :=
  let a := off.toNat
  (0x02C ≤ a && a < 0x100) || (0x140 ≤ a && a < 0x200) || (0x260 ≤ a && a < 0x2000)

/-- Whether the last word of a buffer transfer of `n` bytes from `base` still has a 14-bit offset (rule R99: the
offsets are `base + 4k` for k = 0 to ceil(n/4)-1). -/
def transferFits (base : BitVec 14) (n : Nat) : Bool :=
  n == 0 || base.toNat + 4 * ((n - 1) / 4) < 0x4000

/-- Well-formedness, constructor by constructor. -/
def Instr.wf : Instr → Bool
  | .unmapped off _ => unmappedOff off
  | .reservedCommand v => 2 ≤ v.toNat
  | .wr64 off _ => off.toNat + 4 < 0x4000
  | .wrbuf base s => transferFits base s.length
  | .rdbuf base n => transferFits base n
  | .rdCmd | .wrCmd _ | .rdStatus | .wrStatus _ | .rdFound | .wrFound _ | .rdPrefixLen | .wrPrefixLen _
  | .rdStartNonceLo | .wrStartNonceLo _ | .rdStartNonceHi | .wrStartNonceHi _ | .rdNonceOffset | .wrNonceOffset _
  | .rdNonceStride | .wrNonceStride _ | .rdItersPerWorker | .wrItersPerWorker _ | .rdMode | .wrMode _
  | .rdNumWorkers | .wrNumWorkers _ | .rdTargetHex _ | .wrTargetHex _ _ | .rdResultNonce _ | .wrResultNonce _ _
  | .rdResultDigest _ | .wrResultDigest _ _ | .rdPrefix _ | .wrPrefix _ _ | .nop | .start | .compress _ _
  | .prefixClamp | .midstateAbsorb | .tailCapture | .bitlenCompute | .setup | .nonceDerive _ _ | .nonceBytes _ _
  | .nonceHex _ | .finalBlocks _ | .finalize _ _ _ | .hexNibble _ | .targetDecode | .compare _ | .poll _ | .claim _
  | .writeResult _ | .publish _ | .wait _ | .eval _ | .complete | .waitdone => true

end Sys2Proof
end

