-- ==== Sys2Proof/Decode.lean ====
section
/-! DEFINITION. The three encoding spaces of 30_encoding.md rule R90 as decoders, and then the encoder. The bus and the
command space decode every word; an internal operation's number may be none of rule R96's. -/

namespace Sys2Proof

/-- The fifteen registers and windows of the map of 30_encoding.md rule R92. -/
inductive BusTarget where
  | cmd
  | status
  | found
  | prefixLen
  | startNonceLo
  | startNonceHi
  | nonceOffset
  | nonceStride
  | itersPerWorker
  | mode
  | numWorkers
  | targetHex
  | resultNonce
  | resultDigest
  | prefixBuf
  deriving DecidableEq, Repr

/-- One row of the map: its mask and the value of `TXN & mask` that selects it (rule R91). -/
structure BusRow where
  target : BusTarget
  isWrite : Bool
  pattern : BitVec 15
  mask : BitVec 15
  deriving DecidableEq, Repr

/-- The read and the write row of one line of rule R92's table, whose two masks agree. -/
def BusRow.pair (target : BusTarget) (read write mask : BitVec 15) : List BusRow :=
  [⟨target, false, read, mask⟩, ⟨target, true, write, mask⟩]

/-- The map of rule R92, line by line. -/
def busTable : List BusRow :=
  BusRow.pair .cmd 0x0000 0x4000 0x7FFC ++
  BusRow.pair .status 0x0004 0x4004 0x7FFC ++
  BusRow.pair .found 0x0008 0x4008 0x7FFC ++
  BusRow.pair .prefixLen 0x000C 0x400C 0x7FFC ++
  BusRow.pair .startNonceLo 0x0010 0x4010 0x7FFC ++
  BusRow.pair .startNonceHi 0x0014 0x4014 0x7FFC ++
  BusRow.pair .nonceOffset 0x0018 0x4018 0x7FFC ++
  BusRow.pair .nonceStride 0x001C 0x401C 0x7FFC ++
  BusRow.pair .itersPerWorker 0x0020 0x4020 0x7FFC ++
  BusRow.pair .mode 0x0024 0x4024 0x7FFC ++
  BusRow.pair .numWorkers 0x0028 0x4028 0x7FFC ++
  BusRow.pair .targetHex 0x0100 0x4100 0x7FC0 ++
  BusRow.pair .resultNonce 0x0200 0x4200 0x7FC0 ++
  BusRow.pair .resultDigest 0x0240 0x4240 0x7FE0 ++
  BusRow.pair .prefixBuf 0x2000 0x6000 0x6000

/-- Whether a row is the one a transaction word selects (rule R91: "whose `match` equals `TXN & mask`"). -/
def BusRow.selects (r : BusRow) (txn : BitVec 15) : Bool := txn &&& r.mask == r.pattern

/-- The operation of a selected row; a window row takes its word index from the offset (the table's `WORD` field). -/
def busInstr (target : BusTarget) (isWrite : Bool) (txn : BitVec 15) (data : Word) : Instr :=
  match target, isWrite with
  | .cmd, false => .rdCmd
  | .cmd, true => .wrCmd data
  | .status, false => .rdStatus
  | .status, true => .wrStatus data
  | .found, false => .rdFound
  | .found, true => .wrFound data
  | .prefixLen, false => .rdPrefixLen
  | .prefixLen, true => .wrPrefixLen data
  | .startNonceLo, false => .rdStartNonceLo
  | .startNonceLo, true => .wrStartNonceLo data
  | .startNonceHi, false => .rdStartNonceHi
  | .startNonceHi, true => .wrStartNonceHi data
  | .nonceOffset, false => .rdNonceOffset
  | .nonceOffset, true => .wrNonceOffset data
  | .nonceStride, false => .rdNonceStride
  | .nonceStride, true => .wrNonceStride data
  | .itersPerWorker, false => .rdItersPerWorker
  | .itersPerWorker, true => .wrItersPerWorker data
  | .mode, false => .rdMode
  | .mode, true => .wrMode data
  | .numWorkers, false => .rdNumWorkers
  | .numWorkers, true => .wrNumWorkers data
  | .targetHex, false => .rdTargetHex (txn.extractLsb' 2 4)
  | .targetHex, true => .wrTargetHex (txn.extractLsb' 2 4) data
  | .resultNonce, false => .rdResultNonce (txn.extractLsb' 2 4)
  | .resultNonce, true => .wrResultNonce (txn.extractLsb' 2 4) data
  | .resultDigest, false => .rdResultDigest (txn.extractLsb' 2 3)
  | .resultDigest, true => .wrResultDigest (txn.extractLsb' 2 3) data
  | .prefixBuf, false => .rdPrefix (txn.extractLsb' 2 11)
  | .prefixBuf, true => .wrPrefix (txn.extractLsb' 2 11) data

/-- The `OFF` field of a transaction word (rule R91). -/
def txnOff (txn : BitVec 15) : BitVec 14 := txn.extractLsb' 0 14

/-- The `DIR` field of a transaction word (rule R91: 1 = write), with the data of a write. -/
def txnDir (txn : BitVec 15) (data : Word) : BusDir := if txn.getLsbD 14 then .write data else .read

/-- The bus decoder (rule R91): the row selected, or the unmapped transaction when no row is (rule R93). -/
def decodeBus (txn : BitVec 15) (data : Word) : Instr :=
  match busTable.find? (·.selects txn) with
  | some r => busInstr r.target r.isWrite txn data
  | none => .unmapped (txnOff txn) (txnDir txn data)

/-- The command decoder's reading of a command word (rule R94). -/
def decodeCommand (v : Word) : Instr :=
  if v = 0x00000000 then .nop else if v = 0x00000001 then .start else .reservedCommand v

/-- An internal operation from its number (rule R96) and its operand bytes, with the bytes left over. The layout of
the operand bytes (the order of the rule's operand list, every number big-endian) is the model's own: "no agent
decodes them" (log entry 5). -/
def decodeInternal (id : Byte) (l : List Byte) : Except DecodeError (Instr × List Byte) :=
  match id.toNat with
  | 0x01 => do
    let (st, r) ← takeHash l
    let (blk, r) ← takeBytes 64 r
    return (.compress st blk, r)
  | 0x02 => .ok (.prefixClamp, l)
  | 0x03 => .ok (.midstateAbsorb, l)
  | 0x04 => .ok (.tailCapture, l)
  | 0x05 => .ok (.bitlenCompute, l)
  | 0x06 => .ok (.setup, l)
  | 0x07 => do
    let (g, r) ← takeWord l
    let (it, r) ← takeWord r
    return (.nonceDerive g it, r)
  | 0x08 => do
    let (hi, r) ← takeWord l
    let (lo, r) ← takeLong r
    return (.nonceBytes hi lo, r)
  | 0x09 => do
    let (nb, r) ← takeBytes 32 l
    return (.nonceHex nb, r)
  | 0x0A => do
    let (hex, r) ← takeBytes 64 l
    return (.finalBlocks hex, r)
  | 0x0B => do
    let (a, r) ← takeBytes 64 l
    let (b, r) ← takeBytes 64 r
    let (flag, r) ← takeByte r
    if flag = 0 then return (.finalize a b none, r)
    else if flag = 1 then
      let (c, r) ← takeBytes 64 r
      return (.finalize a b (some c), r)
    else .error (.badFlag flag)
  | 0x0C => do
    let (c, r) ← takeByte l
    return (.hexNibble c, r)
  | 0x0D => .ok (.targetDecode, l)
  | 0x0E => do
    let (dig, r) ← takeBytes 32 l
    return (.compare dig, r)
  | 0x0F => do
    let (g, r) ← takeWord l
    return (.poll g, r)
  | 0x10 => do
    let (g, r) ← takeWord l
    return (.claim g, r)
  | 0x11 => do
    let (g, r) ← takeWord l
    return (.writeResult g, r)
  | 0x12 => do
    let (g, r) ← takeWord l
    return (.publish g, r)
  | 0x13 => do
    let (g, r) ← takeWord l
    return (.wait g, r)
  | 0x14 => do
    let (g, r) ← takeWord l
    return (.eval g, r)
  | 0x15 => .ok (.complete, l)
  | _ => .error (.noSuchOperation id)

/-- What the three spaces carry (rule R90). -/
inductive Encoded where
  | bus (txn : BitVec 15) (data : Word)
  | command (v : Word)
  | internal (id : Byte) (operands : List Byte)
  deriving DecidableEq, Repr

/-- The whole decoder; bytes beyond an internal operation's operands are ignored. -/
def decode : Encoded → Except DecodeError Instr
  | .bus txn data => .ok (decodeBus txn data)
  | .command v => .ok (decodeCommand v)
  | .internal id l => (decodeInternal id l).map Prod.fst

/-- The operation a line of a host program names. -/
def HostItem.instr : HostItem → Instr
  | .txn t data => decodeBus t data
  | .command v => decodeCommand v
  | .wr64 off v => .wr64 off v
  | .wrbuf base s => .wrbuf base s
  | .rdbuf base n => .rdbuf base n
  | .waitdone => .waitdone

/-- The transaction word of a read at `off` (rule R98: "encodes as `TXN = off`"). -/
def rdTxn (off : BitVec 14) : BitVec 15 := off.setWidth 15

/-- The transaction word of a write at `off` (rule R98: "`TXN = 0x4000 | off`"). -/
def wrTxn (off : BitVec 14) : BitVec 15 := 0x4000 ||| off.setWidth 15

/-- The offset of word `k` of a buffer window. -/
def wordOff (base k : Nat) : BitVec 14 := BitVec.ofNat 14 (base + 4 * k)

/-- `RD <off>` as a transaction; DATA is the answer's, so the request carries 0. -/
def encRd (off : BitVec 14) : List Encoded := [.bus (rdTxn off) 0]

/-- `WR <off>, <data>` as a transaction. -/
def encWr (off : BitVec 14) (data : Word) : List Encoded := [.bus (wrTxn off) data]

/-- The writes of `WRBUF` (rule R99), from `base`, four bytes of the string a word. -/
def expandWrbuf (base : BitVec 14) : List Byte → List Encoded
  | [] => []
  | b0 :: b1 :: b2 :: b3 :: r => .bus (wrTxn base) (laneWord b0 b1 b2 b3) :: expandWrbuf (base + 4) r
  | s => [.bus (wrTxn base) (laneWordAt s)]

/-- The reads of `RDBUF` (rule R99): `k` of them, from `base`. -/
def expandRdbuf (base : BitVec 14) : Nat → List Encoded
  | 0 => []
  | k + 1 => .bus (rdTxn base) 0 :: expandRdbuf (base + 4) k

/-- The words of an operation: one for a row of the table, and for a pseudo-operation the rows it expands to
(rule R99), of which `WAITDONE` repeats its one read as long as DONE is 0. -/
def encode : Instr → List Encoded
  | .rdCmd => encRd 0x000
  | .wrCmd d => encWr 0x000 d
  | .rdStatus => encRd 0x004
  | .wrStatus d => encWr 0x004 d
  | .rdFound => encRd 0x008
  | .wrFound d => encWr 0x008 d
  | .rdPrefixLen => encRd 0x00C
  | .wrPrefixLen d => encWr 0x00C d
  | .rdStartNonceLo => encRd 0x010
  | .wrStartNonceLo d => encWr 0x010 d
  | .rdStartNonceHi => encRd 0x014
  | .wrStartNonceHi d => encWr 0x014 d
  | .rdNonceOffset => encRd 0x018
  | .wrNonceOffset d => encWr 0x018 d
  | .rdNonceStride => encRd 0x01C
  | .wrNonceStride d => encWr 0x01C d
  | .rdItersPerWorker => encRd 0x020
  | .wrItersPerWorker d => encWr 0x020 d
  | .rdMode => encRd 0x024
  | .wrMode d => encWr 0x024 d
  | .rdNumWorkers => encRd 0x028
  | .wrNumWorkers d => encWr 0x028 d
  | .rdTargetHex k => encRd (wordOff 0x100 k.toNat)
  | .wrTargetHex k d => encWr (wordOff 0x100 k.toNat) d
  | .rdResultNonce k => encRd (wordOff 0x200 k.toNat)
  | .wrResultNonce k d => encWr (wordOff 0x200 k.toNat) d
  | .rdResultDigest k => encRd (wordOff 0x240 k.toNat)
  | .wrResultDigest k d => encWr (wordOff 0x240 k.toNat) d
  | .rdPrefix k => encRd (wordOff 0x2000 k.toNat)
  | .wrPrefix k d => encWr (wordOff 0x2000 k.toNat) d
  | .unmapped off .read => encRd off
  | .unmapped off (.write d) => encWr off d
  | .nop => [.command 0x00000000]
  | .start => [.command 0x00000001]
  | .reservedCommand v => [.command v]
  | .compress st blk => [.internal 0x01 (hashBytes st ++ blk.val)]
  | .prefixClamp => [.internal 0x02 []]
  | .midstateAbsorb => [.internal 0x03 []]
  | .tailCapture => [.internal 0x04 []]
  | .bitlenCompute => [.internal 0x05 []]
  | .setup => [.internal 0x06 []]
  | .nonceDerive g it => [.internal 0x07 (be32bytes g ++ be32bytes it)]
  | .nonceBytes hi lo => [.internal 0x08 (be32bytes hi ++ be64bytes lo)]
  | .nonceHex nb => [.internal 0x09 nb.val]
  | .finalBlocks hex => [.internal 0x0A hex.val]
  | .finalize a b none => [.internal 0x0B (a.val ++ b.val ++ [0])]
  | .finalize a b (some c) => [.internal 0x0B (a.val ++ b.val ++ [1] ++ c.val)]
  | .hexNibble c => [.internal 0x0C [c]]
  | .targetDecode => [.internal 0x0D []]
  | .compare dig => [.internal 0x0E dig.val]
  | .poll g => [.internal 0x0F (be32bytes g)]
  | .claim g => [.internal 0x10 (be32bytes g)]
  | .writeResult g => [.internal 0x11 (be32bytes g)]
  | .publish g => [.internal 0x12 (be32bytes g)]
  | .wait g => [.internal 0x13 (be32bytes g)]
  | .eval g => [.internal 0x14 (be32bytes g)]
  | .complete => [.internal 0x15 []]
  | .wr64 off v => encWr off (v.extractLsb' 0 32) ++ encWr (off + 4) (v.extractLsb' 32 32)
  | .wrbuf base s => expandWrbuf base s
  | .rdbuf base n => expandRdbuf base ((n + 3) / 4)
  | .waitdone => encRd 0x004

/-- The operand bytes of a table word: zero, and enough of them for the longest operation. -/
def zeroOperands : List Byte := zeros 200

/-- The encoded form of a table word of `nbits` bits, numbered as spec/opcode_table.json numbers them: 8 bits hold an
internal operation's number, 16 a transaction word (bit 15 is none of its bits and must be 0), 32 a command word, and
48 a transaction word with its data word. -/
def tableWord (nbits w : Nat) : Option Encoded :=
  if 2 ^ nbits ≤ w then none
  else if nbits ≤ 8 then some (.internal (BitVec.ofNat 8 w) zeroOperands)
  else if nbits ≤ 16 then
    if w < 0x8000 then some (.bus (BitVec.ofNat 15 w) 0) else none
  else if nbits ≤ 32 then some (.command (BitVec.ofNat 32 w))
  else if nbits ≤ 48 then
    if w % 0x10000 < 0x8000 then some (.bus (BitVec.ofNat 15 (w % 0x10000)) (BitVec.ofNat 32 (w / 0x10000))) else none
  else none

/-- The instruction this decoder reads from a table word. -/
def decodeTableWord (nbits w : Nat) : Option Instr :=
  match tableWord nbits w with
  | none => none
  | some e =>
    match decode e with
    | .ok i => some i
    | .error _ => none

end Sys2Proof
end

