-- ==== Sys2Proof/Machine/State.lean ====
section
/-! DEFINITION. Every piece of state of 10_state.md (rules R20 to R46), and beside it what the model needs of the
world around the block: the host's program and what its reads returned, the schedule, and the counters that pick
free values. State is plain data. -/

namespace Sys2Proof

namespace Machine

/-- STATUS.PHASE (rule R22); "the value 3 is never held". -/
inductive Phase where
  | idle
  | setup
  | search
  deriving DecidableEq, Repr

/-- FOUND.STATE (rule R23); "the value 3 is never held". -/
inductive FoundState where
  | unset
  | claimed
  | published
  deriving DecidableEq, Repr

/-- WPHASE[g] (rule R44). -/
inductive WPhase where
  | wait
  | poll
  | eval
  | claim
  | write
  | publish
  | exited
  deriving DecidableEq, Repr

/-- The job registers (rules R24 to R30), each with all 32 bits writable (rule R31). -/
structure Job where
  prefixLen : Word
  startNonceLo : Word
  startNonceHi : Word
  nonceOffset : Word
  nonceStride : Word
  itersPerWorker : Word
  mode : Word
  numWorkers : Word
  deriving DecidableEq, Repr

/-- The setup state (rules R36 to R41). -/
structure Setup where
  /-- PLEN, "an integer 0 to 8192" (rule R39). -/
  plen : Fin 8193
  /-- MID_H[0..7] (rule R36). -/
  midH : HashWords
  /-- TAIL (rule R37). -/
  tail : Bytes 64
  /-- TAIL_LEN, "an integer 0 to 63" (rule R38). -/
  tailLen : Fin 64
  /-- BITLEN (rule R40). -/
  bitlen : Long
  /-- TGT (rule R41). -/
  tgt : Bytes 32
  deriving DecidableEq, Repr

/-- WORKER[g] (rules R43 to R46). -/
structure Worker where
  /-- WPHASE[g] (rule R44). -/
  phase : WPhase
  /-- IT[g] (rule R45). -/
  it : Word
  /-- CAND_HEX[g] (rule R46). -/
  candHex : Bytes 64
  /-- CAND_DIG[g] (rule R46). -/
  candDig : Bytes 32
  deriving DecidableEq, Repr

/-- The result of an internal operation that is a pure function, in the operation's own terms. -/
inductive OpResult where
  | none
  /-- COMPRESS (40_hash_primitive.md rule R125). -/
  | state (h : HashWords)
  /-- NONCE_DERIVE (42_nonce_partitioner.md rule R160). -/
  | nonce (high32 : Word) (low64 : Long)
  /-- NONCE_BYTES (rule R161). -/
  | nb (b : Bytes 32)
  /-- NONCE_HEX (rule R162). -/
  | hex (b : Bytes 64)
  /-- FINAL_BLOCKS (43_block_finalizer.md rule R184). -/
  | blocks (l : List (Bytes 64))
  /-- FINALIZE (rule R185). -/
  | digest (b : Bytes 32)
  /-- HEX_NIBBLE (44_comparator_arbitration.md rule R200). -/
  | nibble (v : BitVec 4)
  /-- COMPARE (rule R202). -/
  | flag (b : Bool)
  deriving DecidableEq, Repr

/-- What the model keeps of the world around the block. None of it is state of the hardware (rule R20: "Nothing else
is state"; the schedule "is a free choice"). -/
structure Env where
  /-- The transactions and pseudo-operations HOST has still to issue, next first (30_encoding.md rules R98 and R99). -/
  hostProg : List HostItem
  /-- The words the host's reads returned, newest first (rule R91: DATA is "the value returned"; log entry 15). -/
  hostRx : List Word
  /-- The choices of which agent moves next (20_memory.md rule R75), next first. -/
  sched : List Pick
  /-- The result of the last pure operation that was issued alone (log entry 11). -/
  opOut : OpResult
  /-- How many resets there have been: it selects the bytes that the buffers hold until they are written. -/
  epoch : Nat
  /-- The counter that free values are drawn with. -/
  draws : Nat
  deriving DecidableEq, Repr

/-- The machine. -/
structure State where
  /-- The job registers (rules R24 to R30). -/
  job : Job
  /-- The bytes of TARGET_HEX, RESULT_NONCE, RESULT_DIGEST and PREFIX written since reset, by bus offset (rules R32 to R35). -/
  mem : List Host.Cell
  /-- FOUND.STATE (rule R23). -/
  found : FoundState
  /-- STATUS.PHASE (rules R22 and R42). -/
  phase : Phase
  /-- STATUS.DONE (rules R22 and R42). -/
  done : Bool
  /-- The setup state (rules R36 to R41). -/
  setup : Setup
  /-- WORKER[0] to WORKER[W-1], in order (rule R43); empty outside a launch. -/
  workers : List Worker
  /-- The model's own part. -/
  env : Env
  deriving DecidableEq, Repr

/-- The block "raises no exception" and its steps have "no fault outcome for any input" (60_exceptions.md rules R260
and R265): there is no fault, and so nothing raises one (log entry 13). -/
inductive Fault
  deriving DecidableEq, Repr

/-- Why the model gives an operation no meaning. No input of the hardware leads to one of these
(log entry 13). -/
inductive Refusal where
  /-- Raised by an arm of exec that has no meaning yet. Safe. -/
  | notModelled (mnemonic : String)
  /-- Raised by step for a schedule entry whose number and bytes are no internal operation: "no agent decodes them and
  no host can issue them" (30_encoding.md rule R96). Safe. -/
  | undecodable (e : DecodeError)
  /-- Raised by step for a pseudo-operation that names an offset beyond the 14-bit bus (rules R91 and R99). Safe. -/
  | illFormed
  deriving DecidableEq, Repr

/-- The job registers after reset (70_reset_and_hazards.md rule R280). -/
def Job.reset : Job := ⟨0, 0, 0, 0, 0, 0, 0, 0⟩

/-- The setup state after reset, which rule R280 leaves UNSPECIFIED: zero (DESIGN CHOICE, log entry 6). -/
def Setup.reset : Setup :=
  ⟨0, ⟨0, 0, 0, 0, 0, 0, 0, 0⟩, tabulate 64 (fun _ => 0), 0, 0, tabulate 32 (fun _ => 0)⟩

/-- The model's own part at the first reset: nothing to do and nothing done yet (DESIGN CHOICE, log entry 7). -/
def Env.reset : Env := ⟨[], [], [], .none, 0, 0⟩

/-- The machine right after reset (rules R280 and R281). -/
def State.reset : State where
  job := Job.reset
  mem := []
  found := .unset
  phase := .idle
  done := false
  setup := Setup.reset
  workers := []
  env := Env.reset

end Machine

end Sys2Proof
end

