-- ==== Sys2Proof/Machine/Flags.lean ====
section
/-! DEFINITION. The block's three flag-like fields (10_state.md rule R48) as the words a host reads. -/

namespace Sys2Proof.Machine

/-- STATUS.BUSY: "it reads as `PHASE ≠ 0`" (rule R22). -/
def busy (s : State) : Bool := s.phase != .idle

/-- PHASE as its two bits (rule R22). -/
def Phase.code : Phase → BitVec 2
  | .idle => 0
  | .setup => 1
  | .search => 2

/-- STATE of FOUND as its two bits (rule R23). -/
def FoundState.code : FoundState → BitVec 2
  | .unset => 0
  | .claimed => 1
  | .published => 2

/-- The read value of STATUS (rule R22): bits [31:4] zero, PHASE, DONE, BUSY. -/
def statusWord (s : State) : Word :=
  (0 : BitVec 28) ++ s.phase.code ++ BitVec.ofBool s.done ++ BitVec.ofBool (busy s)

/-- The read value of FOUND (rule R23): bits [31:2] zero, STATE. -/
def foundWord (s : State) : Word := (0 : BitVec 30) ++ s.found.code

end Sys2Proof.Machine
end

