-- ==== Sys2Proof/Machine/Memory.lean ====
section
/-! DEFINITION. The four buffers of the host bus (10_state.md rules R32 to R35) as one memory keyed by bus offset. A
cell that is not listed holds no value that anyone wrote since reset; what it reads as is a free value
(70_reset_and_hazards.md rule R290, log entry 1). -/

namespace Sys2Proof.Machine

/-- Where a buffer window begins (20_memory.md rule R69). -/
def targetHexBase : Nat := 0x100
def resultNonceBase : Nat := 0x200
def resultDigestBase : Nat := 0x240
def prefixBase : Nat := 0x2000

/-- The offsets of the four windows (rule R69). -/
def inWindow (a : Nat) : Bool :=
  (0x100 ≤ a && a < 0x140) || (0x200 ≤ a && a < 0x260) || (0x2000 ≤ a && a < 0x4000)

/-- The byte written last at an offset, if any was since reset. -/
def Memory.get? : List Host.Cell → Nat → Option Byte
  | [], _ => none
  | (k, v) :: m, a => if k = a then some v else Memory.get? m a

/-- Write one byte, keeping the offsets strictly rising. -/
def Memory.set : List Host.Cell → Nat → Byte → List Host.Cell
  | [], a, b => [(a, b)]
  | (k, v) :: m, a, b =>
    if a < k then (a, b) :: (k, v) :: m
    else if a = k then (a, b) :: m
    else (k, v) :: Memory.set m a b

/-- Write a byte string from offset `a` on. -/
def Memory.setMany : List Host.Cell → Nat → List Byte → List Host.Cell
  | m, _, [] => m
  | m, a, b :: bs => Memory.setMany (Memory.set m a b) (a + 1) bs

/-- The offsets rise strictly. -/
def Memory.rising : List Host.Cell → Bool
  | [] => true
  | [_] => true
  | (k, _) :: (k', v') :: m => k < k' && Memory.rising ((k', v') :: m)

/-- The canonical form: offsets strictly rising, each inside a buffer window. An unlisted offset has no written
value, so no entry equals what an unlisted offset holds, and equal memories are equal lists. -/
def Memory.wf (m : List Host.Cell) : Bool := Memory.rising m && m.all (fun c => inWindow c.1)

/-- `BufByte` of 00_scope.md rule R10, by bus offset: the byte last written there, or the byte drawn at the last reset
(rule R290). -/
def bufByte (s : State) (a : Nat) : Byte := (Memory.get? s.mem a).getD (Config.resetByte s.env.epoch a)

/-- Write a byte string into a buffer window. -/
def writeBytes (s : State) (a : Nat) (bs : List Byte) : State := { s with mem := Memory.setMany s.mem a bs }

/-- The word of a buffer window at an aligned offset (20_memory.md rule R61: byte 3 in the most significant lane). -/
def windowWord (s : State) (a : Nat) : Word :=
  laneWord (bufByte s a) (bufByte s (a + 1)) (bufByte s (a + 2)) (bufByte s (a + 3))

end Sys2Proof.Machine
end

