-- ==== Sys2Proof/Machine/Ops.lean ====
section
/-! DEFINITION. The shared operations: a host read and its answer, a job write under the BUSY rule, the command
decoder and START, a worker's step, and reset. The block takes no exception and has no return from one
(60_exceptions.md rules R260 and R265), so the reset input is the only thing that overrides a running launch. -/

namespace Sys2Proof.Machine

/-- The host gets the word `v` as the DATA of its read (30_encoding.md rule R91). "A read changes no state" of the block
(20_memory.md rule R61): only the host's record and the free-value counter move. -/
def hostRead (v : Word) (s : State) : State :=
  { s with env.hostRx := v :: s.env.hostRx, env.draws := s.env.draws + 1 }

/-- Record the result of a pure operation; it writes no state of the block (log entry 11). -/
def putResult (r : OpResult) (s : State) : State := { s with env.opOut := r }

/-- Put a line back at the head of the host's program. -/
def pushHost (it : HostItem) (s : State) : State := { s with env.hostProg := it :: s.env.hostProg }

/-- The BUSY rule of 10_state.md rule R31: a job write takes effect only while STATUS.BUSY = 0. -/
def jobWrite (f : State → State) (s : State) : State := if busy s then s else f s

/-- The eight job registers by name. -/
inductive JobReg where
  | prefixLen
  | startNonceLo
  | startNonceHi
  | nonceOffset
  | nonceStride
  | itersPerWorker
  | mode
  | numWorkers
  deriving DecidableEq, Repr

/-- The stored value of a job register (rule R31: returned "at any time, BUSY or not"). -/
def readReg (r : JobReg) (s : State) : Word :=
  match r with
  | .prefixLen => s.job.prefixLen
  | .startNonceLo => s.job.startNonceLo
  | .startNonceHi => s.job.startNonceHi
  | .nonceOffset => s.job.nonceOffset
  | .nonceStride => s.job.nonceStride
  | .itersPerWorker => s.job.itersPerWorker
  | .mode => s.job.mode
  | .numWorkers => s.job.numWorkers

/-- Store a job register. -/
def setReg (r : JobReg) (v : Word) (s : State) : State :=
  match r with
  | .prefixLen => { s with job.prefixLen := v }
  | .startNonceLo => { s with job.startNonceLo := v }
  | .startNonceHi => { s with job.startNonceHi := v }
  | .nonceOffset => { s with job.nonceOffset := v }
  | .nonceStride => { s with job.nonceStride := v }
  | .itersPerWorker => { s with job.itersPerWorker := v }
  | .mode => { s with job.mode := v }
  | .numWorkers => { s with job.numWorkers := v }

/-- A host write to a job register (rules R31 and R62). -/
def writeReg (r : JobReg) (v : Word) : State → State := jobWrite (setReg r v)

/-- A host write to the job buffer word at aligned offset `a` (rules R31, R62 and R64). -/
def writeWindow (a : Nat) (v : Word) : State → State := jobWrite (fun s => writeBytes s a (laneBytes v))

/-- The word a host read of a result window returns at aligned offset `a`: UNSPECIFIED while FOUND.STATE = 1
(20_memory.md rule R68), the stored bytes otherwise. -/
def resultWord (s : State) (a : Nat) : Word :=
  if s.found = .claimed then Config.freeWord s.env.draws else windowWord s a

/-- A worker as START creates it, with free candidate latches (45_launch_control.md rule R231, 10_state.md rule R46). -/
def freshWorker (k g : Nat) : Worker where
  phase := .wait
  it := 0
  candHex := tabulate 64 (Config.candHexByte k g)
  candDig := tabulate 32 (Config.candDigByte k g)

/-- The effect of START from IDLE (rule R231). -/
def launch (s : State) : State :=
  { s with
    found := .unset
    done := false
    phase := .setup
    workers := (List.range s.job.numWorkers.toNat).map (freshWorker s.env.draws)
    env.draws := s.env.draws + 1 }

/-- START: ignored while STATUS.BUSY = 1 (rule R232). -/
def startCommand (s : State) : State := if busy s then s else launch s

/-- The command decoder (rule R230): START, or no change for NOP and for a reserved value. -/
def commandWrite (v : Word) (s : State) : State :=
  match decodeCommand v with
  | .start => startCommand s
  | _ => s

/-- The job registers' offsets (30_encoding.md rule R92). -/
def jobRegAt (a : Nat) : Option JobReg :=
  [(0x00C, JobReg.prefixLen), (0x010, .startNonceLo), (0x014, .startNonceHi), (0x018, .nonceOffset),
   (0x01C, .nonceStride), (0x020, .itersPerWorker), (0x024, .mode), (0x028, .numWorkers)].lookup a

/-- The word-aligned offset of a transaction, `off & 0x3FFC` (20_memory.md rules R61 to R63). -/
def alignedOff (off : BitVec 14) : Nat := (off &&& 0x3FFC).toNat

/-- `BusRead(off)` as rule R61 gives it, with rule R68 for the result windows. -/
def busRead (off : BitVec 14) (s : State) : Word :=
  let a := alignedOff off
  if a = 0x000 then 0
  else if a = 0x004 then statusWord s
  else if a = 0x008 then foundWord s
  else match jobRegAt a with
    | some r => readReg r s
    | none =>
      if 0x200 ≤ a ∧ a < 0x260 then resultWord s a
      else if (0x100 ≤ a ∧ a < 0x140) ∨ 0x2000 ≤ a then windowWord s a
      else 0

/-- `BusWrite(off, v)` as rule R62 gives it. -/
def busWrite (off : BitVec 14) (v : Word) (s : State) : State :=
  let a := alignedOff off
  if a = 0x000 then commandWrite v s
  else match jobRegAt a with
    | some r => writeReg r v s
    | none => if (0x100 ≤ a ∧ a < 0x140) ∨ 0x2000 ≤ a then writeWindow a v s else s

/-- WORKER[g], when it exists (10_state.md rule R43). -/
def worker? (s : State) (g : Word) : Option Worker := s.workers[g.toNat]?

/-- Write WORKER[g] back. -/
def setWorker (g : Word) (w : Worker) (s : State) : State := { s with workers := s.workers.set g.toNat w }

/-- A step of WORKER[g] that is enabled in phase `p`: where the worker does not exist or is in another phase it "has no
enabled step: it holds" (45_launch_control.md rule R235), and nothing changes (log entry 8). -/
def workerStep (g : Word) (p : WPhase) (f : Worker → State) (s : State) : State :=
  match worker? s g with
  | some w => if w.phase = p then f w else s
  | none => s

/-- The reset input (70_reset_and_hazards.md rule R280). The host, its program and the schedule are outside the block
and go on (log entry 12); the buffers hold new draws (log entry 1). -/
def resetBlock (s : State) : State :=
  { State.reset with env := { s.env with opOut := .none, epoch := s.env.epoch + 1 } }

end Sys2Proof.Machine
end

