-- ==== Sys2Proof/Machine/Operands.lean ====
section
/-! DEFINITION. Operand assembly (30_encoding.md rule R97): the values that operations build from pieces of state. -/

namespace Sys2Proof.Machine

/-- `START_NONCE = {START_NONCE_HI, START_NONCE_LO}` (10_state.md rule R25). -/
def startNonce (j : Job) : Long := j.startNonceHi ++ j.startNonceLo

/-- BUDGET: ITERS_PER_WORKER "when ITERS_PER_WORKER > 0 (as a signed 32-bit value)", and 0 otherwise
(45_launch_control.md rule R236). -/
def budget (j : Job) : Nat := if 0 < j.itersPerWorker.toInt then j.itersPerWorker.toNat else 0

/-- PREFIX byte `i` (10_state.md rule R33). -/
def prefixByte (s : State) (i : Nat) : Byte := bufByte s (prefixBase + i)

/-- TARGET_HEX byte `i` (rule R32). -/
def targetChar (s : State) (i : Nat) : Byte := bufByte s (targetHexBase + i)

/-- `PREFIX[0..n)`. -/
def prefixBytes (s : State) (n : Nat) : List Byte := (List.range n).map (prefixByte s)

/-- The offset of word `k` of a window from its base (the `WORD` field of the table). -/
def windowOff (base k : Nat) : Nat := base + 4 * k

end Sys2Proof.Machine
end

