-- ==== Sys2Proof/Machine/Bus.lean ====
section
/-! DEFINITION. The host bus transactions, one meaning per row of 30_encoding.md rule R92 and the unmapped row of rule
R93. "The read value and write effect of each row are those of 20_memory.md rules R61 and R62." -/

namespace Sys2Proof.Machine

/-- CMD is write-only and stores nothing: a read returns 0 (10_state.md rule R21). -/
def execRdCmd (s : State) : Host.Outcome State Fault Refusal := .next (hostRead 0 s)

/-- The data of a write to CMD goes to the command decoder (rule R21, 45_launch_control.md rule R230). -/
def execWrCmd (v : Word) (s : State) : Host.Outcome State Fault Refusal := .next (commandWrite v s)

/-- STATUS (rule R22). -/
def execRdStatus (s : State) : Host.Outcome State Fault Refusal := .next (hostRead (statusWord s) s)

/-- STATUS is read-only: "the write is ignored" (rules R22 and R62). -/
def execWrStatus (_v : Word) (s : State) : Host.Outcome State Fault Refusal := .next s

/-- FOUND (rule R23). -/
def execRdFound (s : State) : Host.Outcome State Fault Refusal := .next (hostRead (foundWord s) s)

/-- FOUND is read-only (rules R23 and R62). -/
def execWrFound (_v : Word) (s : State) : Host.Outcome State Fault Refusal := .next s

/-- PREFIX_LEN (rule R24). -/
def execRdPrefixLen (s : State) : Host.Outcome State Fault Refusal := .next (hostRead (readReg .prefixLen s) s)

/-- PREFIX_LEN, stored only while STATUS.BUSY = 0 (rules R24 and R31). -/
def execWrPrefixLen (v : Word) (s : State) : Host.Outcome State Fault Refusal := .next (writeReg .prefixLen v s)

/-- START_NONCE_LO (rule R25). -/
def execRdStartNonceLo (s : State) : Host.Outcome State Fault Refusal := .next (hostRead (readReg .startNonceLo s) s)

/-- START_NONCE_LO, stored only while STATUS.BUSY = 0 (rules R25 and R31). -/
def execWrStartNonceLo (v : Word) (s : State) : Host.Outcome State Fault Refusal := .next (writeReg .startNonceLo v s)

/-- START_NONCE_HI (rule R25). -/
def execRdStartNonceHi (s : State) : Host.Outcome State Fault Refusal := .next (hostRead (readReg .startNonceHi s) s)

/-- START_NONCE_HI, stored only while STATUS.BUSY = 0 (rules R25 and R31). -/
def execWrStartNonceHi (v : Word) (s : State) : Host.Outcome State Fault Refusal := .next (writeReg .startNonceHi v s)

/-- NONCE_OFFSET (rule R26). -/
def execRdNonceOffset (s : State) : Host.Outcome State Fault Refusal := .next (hostRead (readReg .nonceOffset s) s)

/-- NONCE_OFFSET, stored only while STATUS.BUSY = 0 (rules R26 and R31). -/
def execWrNonceOffset (v : Word) (s : State) : Host.Outcome State Fault Refusal := .next (writeReg .nonceOffset v s)

/-- NONCE_STRIDE (rule R27). -/
def execRdNonceStride (s : State) : Host.Outcome State Fault Refusal := .next (hostRead (readReg .nonceStride s) s)

/-- NONCE_STRIDE, stored only while STATUS.BUSY = 0 (rules R27 and R31). -/
def execWrNonceStride (v : Word) (s : State) : Host.Outcome State Fault Refusal := .next (writeReg .nonceStride v s)

/-- ITERS_PER_WORKER (rule R28). -/
def execRdItersPerWorker (s : State) : Host.Outcome State Fault Refusal := .next (hostRead (readReg .itersPerWorker s) s)

/-- ITERS_PER_WORKER, stored only while STATUS.BUSY = 0 (rules R28 and R31). -/
def execWrItersPerWorker (v : Word) (s : State) : Host.Outcome State Fault Refusal := .next (writeReg .itersPerWorker v s)

/-- MODE (rule R29). -/
def execRdMode (s : State) : Host.Outcome State Fault Refusal := .next (hostRead (readReg .mode s) s)

/-- MODE, stored only while STATUS.BUSY = 0 (rules R29 and R31). -/
def execWrMode (v : Word) (s : State) : Host.Outcome State Fault Refusal := .next (writeReg .mode v s)

/-- NUM_WORKERS (rule R30). -/
def execRdNumWorkers (s : State) : Host.Outcome State Fault Refusal := .next (hostRead (readReg .numWorkers s) s)

/-- NUM_WORKERS, stored only while STATUS.BUSY = 0 (rules R30 and R31). -/
def execWrNumWorkers (v : Word) (s : State) : Host.Outcome State Fault Refusal := .next (writeReg .numWorkers v s)

/-- Word `k` of TARGET_HEX (rule R32). -/
def execRdTargetHex (k : BitVec 4) (s : State) : Host.Outcome State Fault Refusal :=
  .next (hostRead (windowWord s (windowOff targetHexBase k.toNat)) s)

/-- Word `k` of TARGET_HEX, stored only while STATUS.BUSY = 0 (rules R31 and R32). -/
def execWrTargetHex (k : BitVec 4) (v : Word) (s : State) : Host.Outcome State Fault Refusal :=
  .next (writeWindow (windowOff targetHexBase k.toNat) v s)

/-- Word `k` of RESULT_NONCE (rule R34), UNSPECIFIED while FOUND.STATE = 1 (20_memory.md rule R68). -/
def execRdResultNonce (k : BitVec 4) (s : State) : Host.Outcome State Fault Refusal :=
  .next (hostRead (resultWord s (windowOff resultNonceBase k.toNat)) s)

/-- RESULT_NONCE is read-only (rules R34 and R62). -/
def execWrResultNonce (_k : BitVec 4) (_v : Word) (s : State) : Host.Outcome State Fault Refusal := .next s

/-- Word `k` of RESULT_DIGEST (rule R35), UNSPECIFIED while FOUND.STATE = 1 (20_memory.md rule R68). -/
def execRdResultDigest (k : BitVec 3) (s : State) : Host.Outcome State Fault Refusal :=
  .next (hostRead (resultWord s (windowOff resultDigestBase k.toNat)) s)

/-- RESULT_DIGEST is read-only (rules R35 and R62). -/
def execWrResultDigest (_k : BitVec 3) (_v : Word) (s : State) : Host.Outcome State Fault Refusal := .next s

/-- Word `k` of PREFIX (rule R33). -/
def execRdPrefix (k : BitVec 11) (s : State) : Host.Outcome State Fault Refusal :=
  .next (hostRead (windowWord s (windowOff prefixBase k.toNat)) s)

/-- Word `k` of PREFIX, stored only while STATUS.BUSY = 0 (rules R31 and R33). -/
def execWrPrefix (k : BitVec 11) (v : Word) (s : State) : Host.Outcome State Fault Refusal :=
  .next (writeWindow (windowOff prefixBase k.toNat) v s)

/-- An unmapped transaction: "a read returns 0x00000000 and a write is ignored" (30_encoding.md rule R93). -/
def execUnmapped (_off : BitVec 14) (dir : BusDir) (s : State) : Host.Outcome State Fault Refusal :=
  match dir with
  | .read => .next (hostRead 0 s)
  | .write _ => .next s

end Sys2Proof.Machine
end

