-- ==== Sys2Proof/Machine/Launch.lean ====
section
/-! DEFINITION. The host commands and COMPLETE (45_launch_control.md rules R230 to R233 and R240). -/

namespace Sys2Proof.Machine

/-- Every worker has exited (rule R240; "vacuously true when W = 0"). -/
def allExited (s : State) : Bool := s.workers.all (fun w => w.phase = .exited)

/-- COMPLETE: PHASE to IDLE, DONE to 1, no worker left (rule R240), enabled in SEARCH once every worker has exited. -/
def completeStep (s : State) : State :=
  if s.phase = .search ∧ allExited s then { s with phase := .idle, done := true, workers := [] } else s

/-- NOP (rule R233): "a NOP during SEARCH leaves every piece of state unchanged". -/
def execNop (s : State) : Host.Outcome State Fault Refusal := .next s

/-- START (rules R231 and R232). -/
def execStart (s : State) : Host.Outcome State Fault Refusal := .next (startCommand s)

/-- A reserved command value (30_encoding.md rule R94): "the decoder ignores it and no state changes". -/
def execReservedCommand (_v : Word) (s : State) : Host.Outcome State Fault Refusal := .next s

/-- COMPLETE as an operation (0x15). -/
def execComplete (s : State) : Host.Outcome State Fault Refusal := .next (completeStep s)

end Sys2Proof.Machine
end

