-- ==== Sys2Proof/Machine/Pseudo.lean ====
section
/-! DEFINITION. The pseudo-operations of the host program syntax (30_encoding.md rule R99). "Every bus transaction is one
atomic step of HOST" (20_memory.md rule R66), so each issues the next transaction of its expansion and puts what is
left of it back at the head of the host's program: other agents may step in between (log entry 10). -/

namespace Sys2Proof.Machine

/-- `WR64 <off>, <v64>`: the low word at `off` now, the high word at `off + 4` next. -/
def execWr64 (off : BitVec 14) (v : Long) (s : State) : Host.Outcome State Fault Refusal :=
  .next (pushHost (.txn (wrTxn (off + 4)) (v.extractLsb' 32 32)) (busWrite off (v.extractLsb' 0 32) s))

/-- `WRBUF <base>, <s>`: the first four bytes now, zero past the end, and the rest of the string from `base + 4`. -/
def execWrbuf (base : BitVec 14) (bs : List Byte) (s : State) : Host.Outcome State Fault Refusal :=
  if bs = [] then .next s
  else if bs.length ≤ 4 then .next (busWrite base (laneWordAt bs) s)
  else .next (pushHost (.wrbuf (base + 4) (bs.drop 4)) (busWrite base (laneWordAt bs) s))

/-- `RDBUF <base>, <n>`: one read now, and the rest of the `n` bytes from `base + 4`. -/
def execRdbuf (base : BitVec 14) (n : Nat) (s : State) : Host.Outcome State Fault Refusal :=
  if n = 0 then .next s
  else if n ≤ 4 then .next (hostRead (busRead base s) s)
  else .next (pushHost (.rdbuf (base + 4) (n - 4)) (hostRead (busRead base s) s))

/-- `WAITDONE`: `RD STATUS`, and again "until bit 1 (DONE) of the value read is 1". -/
def execWaitdone (s : State) : Host.Outcome State Fault Refusal :=
  if (statusWord s).getLsbD 1 then .next (hostRead (statusWord s) s)
  else .next (pushHost .waitdone (hostRead (statusWord s) s))

/-- The bytes of the first `n` of the host's last reads, "taken in lane order" (rule R99): `rx` is newest first. -/
def rxBytes (rx : List Word) (n : Nat) : List Byte := ((rx.take ((n + 3) / 4)).reverse.flatMap laneBytes).take n

end Sys2Proof.Machine
end

