-- ==== Sys2Proof/Machine/Hash.lean ====
section
/-! DEFINITION. The hash primitive of 40_hash_primitive.md (rules R120 to R130), and COMPRESS. -/

namespace Sys2Proof.Machine

/-- `H_INIT` (rule R120). -/
def hInit : HashWords :=
  ⟨0x6a09e667, 0xbb67ae85, 0x3c6ef372, 0xa54ff53a, 0x510e527f, 0x9b05688c, 0x1f83d9ab, 0x5be0cd19⟩

/-- The table of rule R121, one number a row: the row at t holds `K[t]` to `K[t+7]`, `K[t]` in its highest word. -/
def roundConstantRows : List (BitVec 256) := [
  0x428a2f98_71374491_b5c0fbcf_e9b5dba5_3956c25b_59f111f1_923f82a4_ab1c5ed5,
  0xd807aa98_12835b01_243185be_550c7dc3_72be5d74_80deb1fe_9bdc06a7_c19bf174,
  0xe49b69c1_efbe4786_0fc19dc6_240ca1cc_2de92c6f_4a7484aa_5cb0a9dc_76f988da,
  0x983e5152_a831c66d_b00327c8_bf597fc7_c6e00bf3_d5a79147_06ca6351_14292967,
  0x27b70a85_2e1b2138_4d2c6dfc_53380d13_650a7354_766a0abb_81c2c92e_92722c85,
  0xa2bfe8a1_a81a664b_c24b8b70_c76c51a3_d192e819_d6990624_f40e3585_106aa070,
  0x19a4c116_1e376c08_2748774c_34b0bcb5_391c0cb3_4ed8aa4a_5b9cca4f_682e6ff3,
  0x748f82ee_78a5636f_84c87814_8cc70208_90befffa_a4506ceb_bef9a3f7_c67178f2]

/-- The eight words of a row of the table, the highest first. -/
def rowWords (row : BitVec 256) : List Word := (List.range 8).map (fun i => row.extractLsb' (32 * (7 - i)) 32)

/-- `K[0..63]` (rule R121). -/
def roundConstants : List Word := roundConstantRows.flatMap rowWords

/-- `ROTR(x, n)` for 0 < n < 32 (00_scope.md rule R8). -/
def rotr (x : Word) (n : Nat) : Word := (x >>> n) ||| (x <<< (32 - n))

/-- `Ch` (rule R122). -/
def ch (x y z : Word) : Word := (x &&& y) ^^^ (~~~x &&& z)

/-- `Maj` (rule R122). -/
def maj (x y z : Word) : Word := (x &&& y) ^^^ (x &&& z) ^^^ (y &&& z)

/-- `Σ0` (rule R123). -/
def bigSigma0 (x : Word) : Word := rotr x 2 ^^^ rotr x 13 ^^^ rotr x 22

/-- `Σ1` (rule R123). -/
def bigSigma1 (x : Word) : Word := rotr x 6 ^^^ rotr x 11 ^^^ rotr x 25

/-- `σ0` (rule R124). -/
def smallSigma0 (x : Word) : Word := rotr x 7 ^^^ rotr x 18 ^^^ (x >>> 3)

/-- `σ1` (rule R124). -/
def smallSigma1 (x : Word) : Word := rotr x 17 ^^^ rotr x 19 ^^^ (x >>> 10)

/-- The big-endian word load (rule R126). -/
def loadWords : List Byte → List Word
  | b0 :: b1 :: b2 :: b3 :: r => be32 b0 b1 b2 b3 :: loadWords r
  | _ => []

/-- `Wsched[t]` from `Wsched[0..t)`, for t at least 16 (rule R127). -/
def nextWord (ws : List Word) : Word :=
  smallSigma1 (ws.getD (ws.length - 2) 0) + ws.getD (ws.length - 7) 0 +
  smallSigma0 (ws.getD (ws.length - 15) 0) + ws.getD (ws.length - 16) 0

/-- `n` more words of the schedule (rule R127). -/
def expandSchedule : Nat → List Word → List Word
  | 0, ws => ws
  | n + 1, ws => expandSchedule n (ws ++ [nextWord ws])

/-- `SCHEDULE(block)`: 64 words (rules R126 and R127). -/
def schedule (block : Bytes 64) : List Word := expandSchedule 48 (loadWords block.val)

/-- `ROUND` with the constant and the schedule word of its t (rule R128). -/
def round (v : HashWords) (kw : Word × Word) : HashWords :=
  let t1 := v.h + bigSigma1 v.e + ch v.e v.f v.g + kw.1 + kw.2
  let t2 := bigSigma0 v.a + maj v.a v.b v.c
  { a := t1 + t2, b := v.a, c := v.b, d := v.c, e := v.d + t1, f := v.e, g := v.f, h := v.g }

/-- The final addition, word by word modulo 2^32 (rule R129). -/
def feedForward (x v : HashWords) : HashWords :=
  ⟨x.a + v.a, x.b + v.b, x.c + v.c, x.d + v.d, x.e + v.e, x.f + v.f, x.g + v.g, x.h + v.h⟩

/-- `COMPRESS(state, block)` (rule R125). -/
def compress (state : HashWords) (block : Bytes 64) : HashWords :=
  feedForward state ((roundConstants.zip (schedule block)).foldl round state)

/-- COMPRESS issued alone (internal operation 0x01): "it reads only its operands and writes only its result". -/
def execCompress (state : HashWords) (block : Bytes 64) (s : State) : Host.Outcome State Fault Refusal :=
  .next (putResult (.state (compress state block)) s)

end Sys2Proof.Machine
end

