-- ==== Sys2Proof/Machine/Partitioner.lean ====
section
/-! DEFINITION. The nonce space partitioner (42_nonce_partitioner.md rules R160 to R165). -/

namespace Sys2Proof.Machine

/-- The low 64 bits of a nonce, every `+` and `*` modulo 2^64 and every operand zero-extended (rule R160, decision D13). -/
def low64 (j : Job) (g it : Word) : Long :=
  startNonce j + g.setWidth 64 * j.itersPerWorker.setWidth 64 * j.nonceStride.setWidth 64 +
  j.nonceOffset.setWidth 64 + it.setWidth 64 * j.nonceStride.setWidth 64

/-- `NONCE_DERIVE(g, it)` (rule R160): `high32` is the worker index, whose truncation to 32 bits is the identity. -/
def deriveNonce (j : Job) (g it : Word) : Word × Long := (g, low64 j g it)

/-- `NONCE_BYTES` (rule R161): "the top 20 bytes fixed at zero". -/
def nonceBytes (high32 : Word) (low : Long) : Bytes 32 :=
  ⟨zeros 20 ++ be32bytes high32 ++ be64bytes low, by simp [zeros, be32bytes, be64bytes]⟩

/-- `HEXCHAR(v)` (rule R162): lowercase ASCII. -/
def hexChar (v : BitVec 4) : Byte :=
  if v.toNat < 10 then BitVec.ofNat 8 (0x30 + v.toNat) else BitVec.ofNat 8 (0x61 + (v.toNat - 10))

/-- The two characters of a byte, most significant nibble first (rule R162). -/
def hexPair (b : Byte) : List Byte := [hexChar (b.extractLsb' 4 4), hexChar (b.extractLsb' 0 4)]

/-- The characters of a byte string. -/
def hexString (s : List Byte) : List Byte := s.flatMap hexPair

theorem hexString_length (s : List Byte) : (hexString s).length = 2 * s.length := by
  induction s with
  | nil => rfl
  | cons b s ih => simp only [hexString, List.flatMap_cons, List.length_append, List.length_cons] at ih ⊢; simp [hexPair]; omega

/-- `NONCE_HEX` (rule R162). -/
def nonceHex (nb : Bytes 32) : Bytes 64 := ⟨hexString nb.val, by rw [hexString_length, nb.property]⟩

/-- The nonce hex of candidate (g, it): the first two lines of EVAL (45_launch_control.md rule R237). -/
def candidateHex (j : Job) (g it : Word) : Bytes 64 :=
  nonceHex (nonceBytes (deriveNonce j g it).1 (deriveNonce j g it).2)

/-- NONCE_DERIVE issued alone (internal operation 0x07). -/
def execNonceDerive (g it : Word) (s : State) : Host.Outcome State Fault Refusal :=
  .next (putResult (.nonce (deriveNonce s.job g it).1 (deriveNonce s.job g it).2) s)

/-- NONCE_BYTES issued alone (internal operation 0x08). -/
def execNonceBytes (high32 : Word) (low : Long) (s : State) : Host.Outcome State Fault Refusal :=
  .next (putResult (.nb (nonceBytes high32 low)) s)

/-- NONCE_HEX issued alone (internal operation 0x09). -/
def execNonceHex (nb : Bytes 32) (s : State) : Host.Outcome State Fault Refusal :=
  .next (putResult (.hex (nonceHex nb)) s)

end Sys2Proof.Machine
end

