-- ==== Sys2Proof/Machine/Finalizer.lean ====
section
/-! DEFINITION. The block finalizer (43_block_finalizer.md rules R180 to R188), and beside it SHA-256 of a whole message
by the standard padding, which rule R187 compares it with. -/

namespace Sys2Proof.Machine

/-- Block A (rules R181 to R183): `TAIL[0..r) ∥ HEX[0..64-r)`, which is HEX when r = 0. -/
def blockA (tail : Bytes 64) (r : Fin 64) (hex : Bytes 64) : Bytes 64 :=
  ⟨slice tail.val 0 r.val ++ slice hex.val 0 (64 - r.val), by
    simp only [slice, List.length_append, List.length_take, List.length_drop, tail.property, hex.property]; omega⟩

/-- Block B where the length still fits, r ≤ 55 (rules R181 and R182; HEX[64..64) is empty when r = 0). -/
def blockBShort (r : Fin 64) (bitlen : Long) (hex : Bytes 64) (h : r.val ≤ 55) : Bytes 64 :=
  ⟨slice hex.val (64 - r.val) 64 ++ [0x80] ++ zeros (55 - r.val) ++ be64bytes bitlen, by
    simp only [slice, zeros, be64bytes, be32bytes, List.length_append, List.length_take, List.length_drop,
      List.length_replicate, List.length_cons, List.length_nil, hex.property]; omega⟩

/-- Block B where it does not, 56 ≤ r (rule R183). -/
def blockBLong (r : Fin 64) (hex : Bytes 64) : Bytes 64 :=
  ⟨slice hex.val (64 - r.val) 64 ++ [0x80] ++ zeros (63 - r.val), by
    simp only [slice, zeros, List.length_append, List.length_take, List.length_drop,
      List.length_replicate, List.length_cons, List.length_nil, hex.property]; omega⟩

/-- Block C (rule R183). -/
def blockC (bitlen : Long) : Bytes 64 := ⟨zeros 56 ++ be64bytes bitlen, by simp [zeros, be64bytes, be32bytes]⟩

/-- `FINAL_BLOCKS(TAIL, TAIL_LEN, BITLEN, HEX)` (rule R184): "determined solely by `r`". -/
def finalBlocks (tail : Bytes 64) (r : Fin 64) (bitlen : Long) (hex : Bytes 64) : List (Bytes 64) :=
  if h : r.val ≤ 55 then [blockA tail r hex, blockBShort r bitlen hex h]
  else [blockA tail r hex, blockBLong r hex, blockC bitlen]

/-- `DIGEST_BYTES(H)` (rule R186). -/
def digestBytes (h : HashWords) : Bytes 32 := ⟨hashBytes h, by simp [hashBytes, be32bytes]⟩

/-- `FINALIZE(MID_H, blocks)` (rule R185): "starting from the cached midstate, never from the standard initial state". -/
def finalize (midH : HashWords) (blocks : List (Bytes 64)) : Bytes 32 := digestBytes (blocks.foldl compress midH)

/-- The digest of a candidate from the setup state: the third line of EVAL (45_launch_control.md rule R237). -/
def candidateDig (u : Setup) (hex : Bytes 64) : Bytes 32 :=
  finalize u.midH (finalBlocks u.tail u.tailLen u.bitlen hex)

/-- The standard padding of a message (rule R187): 0x80, "the fewest zero bytes that make the length 56 mod 64", and
the length in bits as 64 bits big-endian. -/
def padMessage (msg : List Byte) : List Byte :=
  msg ++ [0x80] ++ zeros ((119 - msg.length % 64) % 64) ++ be64bytes (BitVec.ofNat 64 (8 * msg.length))

/-- Block `b` of a byte string. -/
def blockAt (l : List Byte) (b : Nat) : Bytes 64 := tabulate 64 (fun i => l.getD (64 * b + i) 0)

/-- SHA-256 of a whole message: COMPRESS "chained from `H_INIT` over the standard padding" (40_hash_primitive.md rule R130). -/
def sha256 (msg : List Byte) : Bytes 32 :=
  digestBytes ((List.range ((padMessage msg).length / 64)).foldl (fun h b => compress h (blockAt (padMessage msg) b)) hInit)

/-- FINAL_BLOCKS issued alone (internal operation 0x0A). -/
def execFinalBlocks (hex : Bytes 64) (s : State) : Host.Outcome State Fault Refusal :=
  .next (putResult (.blocks (finalBlocks s.setup.tail s.setup.tailLen s.setup.bitlen hex)) s)

/-- FINALIZE issued alone (internal operation 0x0B), on the two or three blocks given. -/
def execFinalize (a b : Bytes 64) (c : Option (Bytes 64)) (s : State) : Host.Outcome State Fault Refusal :=
  .next (putResult (.digest (finalize s.setup.midH (a :: b :: c.toList))) s)

end Sys2Proof.Machine
end

