-- ==== Sys2Proof/Machine/Comparator.lean ====
section
/-! DEFINITION. Target decoding and comparison (44_comparator_arbitration.md rules R200 to R203). -/

namespace Sys2Proof.Machine

/-- `HEX_NIBBLE(c)` (rule R200); a malformed character decodes to 0, and 'A' to 'F' as 'a' to 'f' (decision D15). -/
def hexNibble (c : Byte) : BitVec 4 :=
  let n := c.toNat
  if 0x30 ≤ n ∧ n ≤ 0x39 then BitVec.ofNat 4 (n - 0x30)
  else if 0x61 ≤ n ∧ n ≤ 0x66 then BitVec.ofNat 4 (n - 0x61 + 10)
  else if 0x41 ≤ n ∧ n ≤ 0x46 then BitVec.ofNat 4 (n - 0x41 + 10)
  else 0

/-- `TGT` from TARGET_HEX (rule R201: "the first character of each pair is the high nibble"). -/
def decodeTarget (s : State) : Bytes 32 :=
  tabulate 32 (fun k => hexNibble (targetChar s (2 * k)) ++ hexNibble (targetChar s (2 * k + 1)))

/-- `COMPARE(DIG, TGT)` on byte strings of one length: lexicographic, big-endian, equality included (rule R202). -/
def digestLe : List Byte → List Byte → Bool
  | d :: ds, t :: ts => if d < t then true else if t < d then false else digestLe ds ts
  | _, _ => true

/-- HEX_NIBBLE issued alone (internal operation 0x0C). -/
def execHexNibble (c : Byte) (s : State) : Host.Outcome State Fault Refusal :=
  .next (putResult (.nibble (hexNibble c)) s)

/-- TARGET_DECODE (internal operation 0x0D): writes TGT (rule R201). -/
def targetDecode (s : State) : State := { s with setup.tgt := decodeTarget s }

/-- TARGET_DECODE as an operation. -/
def execTargetDecode (s : State) : Host.Outcome State Fault Refusal := .next (targetDecode s)

/-- COMPARE issued alone (internal operation 0x0E): its second operand is TGT. -/
def execCompare (dig : Bytes 32) (s : State) : Host.Outcome State Fault Refusal :=
  .next (putResult (.flag (digestLe dig.val s.setup.tgt.val)) s)

end Sys2Proof.Machine
end

