-- ==== Sys2Proof/Machine/Midstate.lean ====
section
/-! DEFINITION. The midstate compressor (41_midstate.md rules R140 to R146), and the SETUP agent's step
(45_launch_control.md rule R234). -/

namespace Sys2Proof.Machine

/-- `min(PREFIX_LEN, PREFIX_MAX)` (rule R140). -/
def clampLen (prefixLen : Word) : Fin 8193 := ⟨min prefixLen.toNat Config.prefixMax, by simp only [Config.prefixMax]; omega⟩

/-- `NBLK = PLEN div 64` (rule R141). -/
def nblk (plen : Fin 8193) : Nat := plen.val / 64

/-- `r = PLEN mod 64` (rule R141). -/
def tailLenOf (plen : Fin 8193) : Fin 64 := ⟨plen.val % 64, by omega⟩

/-- Full block `b`, `PREFIX[64b..64b+64)` (rule R141). -/
def prefixBlock (s : State) (b : Nat) : Bytes 64 := tabulate 64 (fun i => prefixByte s (64 * b + i))

/-- The midstate: the full blocks absorbed in increasing order from H_INIT (rule R142). -/
def absorb (s : State) (plen : Fin 8193) : HashWords :=
  (List.range (nblk plen)).foldl (fun h b => compress h (prefixBlock s b)) hInit

/-- The tail, zero-padded to 64 bytes (rule R143). -/
def captureTail (s : State) (plen : Fin 8193) : Bytes 64 :=
  tabulate 64 (fun i => if i < (tailLenOf plen).val then prefixByte s (64 * nblk plen + i) else 0)

/-- `zext_64((PLEN + 64) * 8)` (rule R144). -/
def bitlenOf (plen : Fin 8193) : Long := BitVec.ofNat 64 ((plen.val + Config.nonceHexLen) * 8)

/-- PREFIX_CLAMP (internal operation 0x02). -/
def clampPrefix (s : State) : State := { s with setup.plen := clampLen s.job.prefixLen }

/-- MIDSTATE_ABSORB (internal operation 0x03). -/
def absorbMidstate (s : State) : State := { s with setup.midH := absorb s s.setup.plen }

/-- TAIL_CAPTURE (internal operation 0x04). -/
def writeTail (s : State) : State :=
  { s with setup.tail := captureTail s s.setup.plen, setup.tailLen := tailLenOf s.setup.plen }

/-- BITLEN_COMPUTE (internal operation 0x05). -/
def writeBitlen (s : State) : State := { s with setup.bitlen := bitlenOf s.setup.plen }

/-- SETUP, the five operations in the order of rule R145. -/
def setupCompute (s : State) : State := targetDecode (writeBitlen (writeTail (absorbMidstate (clampPrefix s))))

/-- The SETUP step (45_launch_control.md rule R234): compute, then release the barrier. -/
def setupStep (s : State) : State := { setupCompute s with phase := .search }

/-- PREFIX_CLAMP as an operation. -/
def execPrefixClamp (s : State) : Host.Outcome State Fault Refusal := .next (clampPrefix s)

/-- MIDSTATE_ABSORB as an operation. -/
def execMidstateAbsorb (s : State) : Host.Outcome State Fault Refusal := .next (absorbMidstate s)

/-- TAIL_CAPTURE as an operation. -/
def execTailCapture (s : State) : Host.Outcome State Fault Refusal := .next (writeTail s)

/-- BITLEN_COMPUTE as an operation. -/
def execBitlenCompute (s : State) : Host.Outcome State Fault Refusal := .next (writeBitlen s)

/-- SETUP (internal operation 0x06) as the agent step of rule R234: "Enabled when: PHASE = SETUP"; otherwise the agent
has no such step and nothing changes (log entry 8). -/
def execSetup (s : State) : Host.Outcome State Fault Refusal :=
  .next (if s.phase = .setup then setupStep s else s)

end Sys2Proof.Machine
end

