-- ==== Sys2Proof/Machine/Worker.lean ====
section
/-! DEFINITION. The steps of WORKER[g] (44_comparator_arbitration.md rules R210 to R214, 45_launch_control.md rules R235
and R237). Each is one atomic step (20_memory.md rule R66). -/

namespace Sys2Proof.Machine

/-- WAIT: `WPHASE[g] <- POLL`, enabled only while PHASE = SEARCH (rule R235). -/
def waitStep (g : Word) (s : State) : State :=
  if s.phase = .search then workerStep g .wait (fun w => setWorker g { w with phase := .poll } s) s else s

/-- POLL: the budget first, then the found-flag (rule R210). -/
def pollStep (g : Word) (s : State) : State :=
  workerStep g .poll (fun w =>
    if budget s.job ≤ w.it.toNat then setWorker g { w with phase := .exited } s
    else if s.found ≠ .unset then setWorker g { w with phase := .exited } s
    else setWorker g { w with phase := .eval } s) s

/-- EVAL: one hash evaluation and its comparison (rule R237). -/
def evalStep (g : Word) (s : State) : State :=
  workerStep g .eval (fun w =>
    let hex := candidateHex s.job g w.it
    let dig := candidateDig s.setup hex
    if digestLe dig.val s.setup.tgt.val then
      setWorker g { w with candHex := hex, candDig := dig, phase := .claim } s
    else setWorker g { w with candHex := hex, candDig := dig, it := w.it + 1, phase := .poll } s) s

/-- CLAIM: the compare-and-swap of FOUND from 0 to 1 (rule R211). -/
def claimStep (g : Word) (s : State) : State :=
  workerStep g .claim (fun w =>
    if s.found = .unset then { setWorker g { w with phase := .write } s with found := .claimed }
    else setWorker g { w with it := w.it + 1, phase := .poll } s) s

/-- WRITE_RESULT: both result windows from the candidate latches (rule R213). -/
def writeResultStep (g : Word) (s : State) : State :=
  workerStep g .write (fun w =>
    setWorker g { w with phase := .publish }
      (writeBytes (writeBytes s resultNonceBase w.candHex.val) resultDigestBase w.candDig.val)) s

/-- PUBLISH (rule R214). -/
def publishStep (g : Word) (s : State) : State :=
  workerStep g .publish (fun w =>
    { setWorker g { w with it := w.it + 1, phase := .poll } s with found := .published }) s

/-- WAIT as an operation (0x13). -/
def execWait (g : Word) (s : State) : Host.Outcome State Fault Refusal := .next (waitStep g s)

/-- POLL as an operation (0x0F). -/
def execPoll (g : Word) (s : State) : Host.Outcome State Fault Refusal := .next (pollStep g s)

/-- EVAL as an operation (0x14). -/
def execEval (g : Word) (s : State) : Host.Outcome State Fault Refusal := .next (evalStep g s)

/-- CLAIM as an operation (0x10). -/
def execClaim (g : Word) (s : State) : Host.Outcome State Fault Refusal := .next (claimStep g s)

/-- WRITE_RESULT as an operation (0x11). -/
def execWriteResult (g : Word) (s : State) : Host.Outcome State Fault Refusal := .next (writeResultStep g s)

/-- PUBLISH as an operation (0x12). -/
def execPublish (g : Word) (s : State) : Host.Outcome State Fault Refusal := .next (publishStep g s)

end Sys2Proof.Machine
end

