-- ==== Sys2Proof/Machine/Dispatch.lean ====
section
/-! DEFINITION. One arm per operation of the table, each a direct call of its meaning. -/

namespace Sys2Proof.Machine

def exec (i : Instr) (s : State) : Host.Outcome State Fault Refusal :=
  match i with
  -- host bus transactions (rule R92)
  | .rdCmd => Sys2Proof.Machine.execRdCmd s
  | .wrCmd data => Sys2Proof.Machine.execWrCmd data s
  | .rdStatus => Sys2Proof.Machine.execRdStatus s
  | .wrStatus data => Sys2Proof.Machine.execWrStatus data s
  | .rdFound => Sys2Proof.Machine.execRdFound s
  | .wrFound data => Sys2Proof.Machine.execWrFound data s
  | .rdPrefixLen => Sys2Proof.Machine.execRdPrefixLen s
  | .wrPrefixLen data => Sys2Proof.Machine.execWrPrefixLen data s
  | .rdStartNonceLo => Sys2Proof.Machine.execRdStartNonceLo s
  | .wrStartNonceLo data => Sys2Proof.Machine.execWrStartNonceLo data s
  | .rdStartNonceHi => Sys2Proof.Machine.execRdStartNonceHi s
  | .wrStartNonceHi data => Sys2Proof.Machine.execWrStartNonceHi data s
  | .rdNonceOffset => Sys2Proof.Machine.execRdNonceOffset s
  | .wrNonceOffset data => Sys2Proof.Machine.execWrNonceOffset data s
  | .rdNonceStride => Sys2Proof.Machine.execRdNonceStride s
  | .wrNonceStride data => Sys2Proof.Machine.execWrNonceStride data s
  | .rdItersPerWorker => Sys2Proof.Machine.execRdItersPerWorker s
  | .wrItersPerWorker data => Sys2Proof.Machine.execWrItersPerWorker data s
  | .rdMode => Sys2Proof.Machine.execRdMode s
  | .wrMode data => Sys2Proof.Machine.execWrMode data s
  | .rdNumWorkers => Sys2Proof.Machine.execRdNumWorkers s
  | .wrNumWorkers data => Sys2Proof.Machine.execWrNumWorkers data s
  | .rdTargetHex word => Sys2Proof.Machine.execRdTargetHex word s
  | .wrTargetHex word data => Sys2Proof.Machine.execWrTargetHex word data s
  | .rdResultNonce word => Sys2Proof.Machine.execRdResultNonce word s
  | .wrResultNonce word data => Sys2Proof.Machine.execWrResultNonce word data s
  | .rdResultDigest word => Sys2Proof.Machine.execRdResultDigest word s
  | .wrResultDigest word data => Sys2Proof.Machine.execWrResultDigest word data s
  | .rdPrefix word => Sys2Proof.Machine.execRdPrefix word s
  | .wrPrefix word data => Sys2Proof.Machine.execWrPrefix word data s
  | .unmapped off dir => Sys2Proof.Machine.execUnmapped off dir s
  -- host commands (rule R94)
  | .nop => Sys2Proof.Machine.execNop s
  | .start => Sys2Proof.Machine.execStart s
  | .reservedCommand v => Sys2Proof.Machine.execReservedCommand v s
  -- internal operations (rule R96)
  | .compress st block => Sys2Proof.Machine.execCompress st block s
  | .prefixClamp => Sys2Proof.Machine.execPrefixClamp s
  | .midstateAbsorb => Sys2Proof.Machine.execMidstateAbsorb s
  | .tailCapture => Sys2Proof.Machine.execTailCapture s
  | .bitlenCompute => Sys2Proof.Machine.execBitlenCompute s
  | .setup => Sys2Proof.Machine.execSetup s
  | .nonceDerive g it => Sys2Proof.Machine.execNonceDerive g it s
  | .nonceBytes high32 low64 => Sys2Proof.Machine.execNonceBytes high32 low64 s
  | .nonceHex nb => Sys2Proof.Machine.execNonceHex nb s
  | .finalBlocks hex => Sys2Proof.Machine.execFinalBlocks hex s
  | .finalize a b c => Sys2Proof.Machine.execFinalize a b c s
  | .hexNibble c => Sys2Proof.Machine.execHexNibble c s
  | .targetDecode => Sys2Proof.Machine.execTargetDecode s
  | .compare dig => Sys2Proof.Machine.execCompare dig s
  | .poll g => Sys2Proof.Machine.execPoll g s
  | .claim g => Sys2Proof.Machine.execClaim g s
  | .writeResult g => Sys2Proof.Machine.execWriteResult g s
  | .publish g => Sys2Proof.Machine.execPublish g s
  | .wait g => Sys2Proof.Machine.execWait g s
  | .eval g => Sys2Proof.Machine.execEval g s
  | .complete => Sys2Proof.Machine.execComplete s
  -- pseudo-operations of the host program syntax (rule R99)
  | .wr64 off v => Sys2Proof.Machine.execWr64 off v s
  | .wrbuf base bs => Sys2Proof.Machine.execWrbuf base bs s
  | .rdbuf base n => Sys2Proof.Machine.execRdbuf base n s
  | .waitdone => Sys2Proof.Machine.execWaitdone s

end Sys2Proof.Machine
end

