-- ==== Sys2Proof/Machine/Fetch.lean ====
section
/-! DEFINITION. What the next step runs. The block fetches no instructions (20_memory.md rules R60 and R77): the next
operation is the next line of the host's program or the step its phase gives an agent, and which agent moves is the
schedule's choice (rule R75). -/

namespace Sys2Proof.Machine

/-- What a step is about to do, and the state it does it from. -/
inductive Fetched where
  | run (i : Instr) (s : State)
  | hold (s : State)
  | reset (s : State)
  | bad (e : DecodeError)
  deriving DecidableEq, Repr

/-- The step a worker in a phase takes (10_state.md rule R44); EXITED is final. -/
def workerInstr (g : Word) : WPhase → Option Instr
  | .wait => some (.wait g)
  | .poll => some (.poll g)
  | .eval => some (.eval g)
  | .claim => some (.claim g)
  | .write => some (.writeResult g)
  | .publish => some (.publish g)
  | .exited => none

/-- The step the SETUP agent takes in a phase (00_scope.md rule R6): SETUP, then COMPLETE as launch control. -/
def setupInstr : Phase → Option Instr
  | .idle => none
  | .setup => some .setup
  | .search => some .complete

/-- What an agent does when it is its turn. An agent without a step holds (log entry 8). -/
def fetchMover (m : Mover) (s : State) : Fetched :=
  match m with
  | .host =>
    match s.env.hostProg with
    | [] => .hold s
    | it :: rest => .run it.instr { s with env.hostProg := rest }
  | .setup =>
    match setupInstr s.phase with
    | some i => .run i s
    | none => .hold s
  | .worker g =>
    match worker? s g with
    | some w =>
      match workerInstr g w.phase with
      | some i => .run i s
      | none => .hold s
    | none => .hold s
  | .reset => .reset s

/-- What one schedule entry does. -/
def fetchPick (p : Pick) (s : State) : Fetched :=
  match p with
  | .mover m => fetchMover m s
  | .issue id l =>
    match decodeInternal id l with
    | .ok (i, _) => .run i s
    | .error e => .bad e

/-- What the next step does: the schedule's next entry, or, where State lists none, the agent a free value picks
(log entry 4). -/
def fetch (s : State) : Fetched :=
  match s.env.sched with
  | p :: ps => fetchPick p { s with env.sched := ps }
  | [] => fetchMover (Config.freeMover s.env.draws) { s with env.draws := s.env.draws + 1 }

/-- Put an encoded operation next: a transaction or a command as the host's next line and the host next, an internal
operation as the schedule's next entry. -/
def loadNext (e : Encoded) (s : State) : State :=
  match e with
  | .bus txn data => { s with env.hostProg := .txn txn data :: s.env.hostProg, env.sched := .mover .host :: s.env.sched }
  | .command v => { s with env.hostProg := .command v :: s.env.hostProg, env.sched := .mover .host :: s.env.sched }
  | .internal id l => { s with env.sched := .issue id l :: s.env.sched }

end Sys2Proof.Machine
end

