-- ==== Sys2Proof/Machine/Step.lean ====
section
/-! DEFINITION. One step of the machine: one atomic step of one agent (20_memory.md rules R66 and R71), or a reset. -/

namespace Sys2Proof.Machine

/-- Run what the schedule's choice fetches. -/
def step (s : State) : Host.Outcome State Fault Refusal :=
  match fetch s with
  | .run i t => if i.wf then exec i t else .refused .illFormed
  | .hold t => .next t
  | .reset t => .next (resetBlock t)
  | .bad e => .refused (.undecodable e)

/-- `s` with the operation of a table word placed where the next step takes it from (log entry 9). -/
def State.withFetchWord (s : State) (nbits w : Nat) : State :=
  match tableWord nbits w with
  | some e => loadNext e s
  | none => s

end Sys2Proof.Machine
end

