-- ==== Sys2Proof/Safety.lean ====
section
/-! DEFINITION. What counts as a safe run, in the terms the claims use: the state that a launch leads to, the invariant
that every step keeps, the work a launch still has, the inputs on which a step cannot stop, and the fair runs. -/

namespace Sys2Proof.Machine

/-- Nothing of the block changed: all eight job registers, every byte of the buffers, FOUND, PHASE, DONE, the setup
state and every worker are the same. -/
structure SameBlock (s t : State) : Prop where
  job : t.job = s.job
  mem : t.mem = s.mem
  epoch : t.env.epoch = s.env.epoch
  found : t.found = s.found
  phase : t.phase = s.phase
  done : t.done = s.done
  setup : t.setup = s.setup
  workers : t.workers = s.workers

/-- What the model keeps of the host and of the schedule is the same. -/
structure SameWorld (s t : State) : Prop where
  hostProg : t.env.hostProg = s.env.hostProg
  hostRx : t.env.hostRx = s.env.hostRx
  sched : t.env.sched = s.env.sched

/-- The host got the word `v`, and nothing else changed but the free-value counter. -/
structure Answered (s t : State) (v : Word) : Prop where
  block : SameBlock s t
  rx : t.env.hostRx = v :: s.env.hostRx
  hostProg : t.env.hostProg = s.env.hostProg
  sched : t.env.sched = s.env.sched

/-- A pure operation gave the result `r`, and nothing else changed. -/
structure Computed (s t : State) (r : OpResult) : Prop where
  block : SameBlock s t
  world : SameWorld s t
  draws : t.env.draws = s.env.draws
  out : t.env.opOut = r

/-- The row that reads a job register, and the row that writes it (30_encoding.md rule R92). -/
def jobRd : JobReg → Instr
  | .prefixLen => .rdPrefixLen
  | .startNonceLo => .rdStartNonceLo
  | .startNonceHi => .rdStartNonceHi
  | .nonceOffset => .rdNonceOffset
  | .nonceStride => .rdNonceStride
  | .itersPerWorker => .rdItersPerWorker
  | .mode => .rdMode
  | .numWorkers => .rdNumWorkers

@[inherit_doc jobRd]
def jobWr (r : JobReg) (v : Word) : Instr :=
  match r with
  | .prefixLen => .wrPrefixLen v
  | .startNonceLo => .wrStartNonceLo v
  | .startNonceHi => .wrStartNonceHi v
  | .nonceOffset => .wrNonceOffset v
  | .nonceStride => .wrNonceStride v
  | .itersPerWorker => .wrItersPerWorker v
  | .mode => .wrMode v
  | .numWorkers => .wrNumWorkers v

/-- Whether an operation is an internal one (30_encoding.md rule R96). -/
def isInternal (i : Instr) : Bool :=
  match encode i with
  | [.internal _ _] => true
  | _ => false

/-- The setup state that rules R140 to R144 and R201 compute from the job. -/
def setupOf (s : State) : Setup where
  plen := clampLen s.job.prefixLen
  midH := absorb s (clampLen s.job.prefixLen)
  tail := captureTail s (clampLen s.job.prefixLen)
  tailLen := tailLenOf (clampLen s.job.prefixLen)
  bitlen := bitlenOf (clampLen s.job.prefixLen)
  tgt := decodeTarget s

/-- The digest of candidate (g, it) of the job. -/
def candidateDigest (s : State) (g it : Word) : Bytes 32 := candidateDig (setupOf s) (candidateHex s.job g it)

/-- Candidate (g, it) matches the target (44_comparator_arbitration.md rule R202). -/
def candidateMatches (s : State) (g it : Word) : Bool := digestLe (candidateDigest s g it).val (decodeTarget s).val

/-- `it = first(g)` of 45_launch_control.md rule R243: the smallest iteration below BUDGET whose candidate matches. -/
def FirstMatch (s : State) (g it : Word) : Prop :=
  it.toNat < budget s.job ∧ candidateMatches s g it = true ∧
  ∀ i : Word, i.toNat < it.toNat → candidateMatches s g i = false

/-- The 64 bytes of RESULT_NONCE. -/
def resultNonce (s : State) : List Byte := (List.range 64).map (fun i => bufByte s (resultNonceBase + i))

/-- The 32 bytes of RESULT_DIGEST. -/
def resultDigest (s : State) : List Byte := (List.range 32).map (fun i => bufByte s (resultDigestBase + i))

/-- The result windows hold candidate (g, it). -/
def ResultHolds (s : State) (g it : Word) : Prop :=
  resultNonce s = (candidateHex s.job g it).val ∧ resultDigest s = (candidateDigest s g it).val

/-- A worker that holds the claim: it is in WRITE or PUBLISH. -/
def holdsClaim (w : Worker) : Bool :=
  match w.phase with
  | .write | .publish => true
  | .wait | .poll | .eval | .claim | .exited => false

/-- What is true of WORKER[g] during SEARCH. -/
structure WorkerOk (s : State) (g : Word) (w : Worker) : Prop where
  it_le : w.it.toNat ≤ budget s.job
  wait_it : w.phase = .wait → w.it = 0
  eval_it : w.phase = .eval → w.it.toNat < budget s.job
  latches : w.phase = .claim ∨ w.phase = .write ∨ w.phase = .publish →
    w.candHex = candidateHex s.job g w.it ∧ w.candDig = candidateDigest s g w.it ∧ FirstMatch s g w.it
  written : w.phase = .publish → ResultHolds s g w.it
  earlier : (∀ i : Word, i.toNat < w.it.toNat → candidateMatches s g i = false) ∨
    (s.found ≠ .unset ∧ (w.phase = .poll ∨ w.phase = .exited))
  exited : w.phase = .exited → w.it.toNat = budget s.job ∨ s.found ≠ .unset

/-- The invariant of the block: the memory's canonical form; workers exist exactly during a launch; the barrier holds
them while PHASE = SETUP; the setup state is the job's while PHASE = SEARCH; FOUND = 1 exactly while one worker holds
the claim; and FOUND = 2 means the result windows hold the first match of some worker. -/
structure LaunchInv (s : State) : Prop where
  memory : Memory.wf s.mem = true
  idle_pool : s.phase = .idle → s.workers = []
  pool : s.phase ≠ .idle → s.workers.length = s.job.numWorkers.toNat
  not_done : s.phase ≠ .idle → s.done = false
  barrier : s.phase = .setup → s.found = .unset ∧ ∀ w ∈ s.workers, w.phase = .wait ∧ w.it = 0
  setup_state : s.phase = .search → s.setup = setupOf s
  claim : s.workers.countP holdsClaim = if s.found = .claimed then 1 else 0
  workers : s.phase = .search → ∀ g w, worker? s g = some w → WorkerOk s g w
  winner : s.phase = .search → s.found = .published →
    ∃ g it : Word, g.toNat < s.job.numWorkers.toNat ∧ FirstMatch s g it ∧ ResultHolds s g it

/-- An agent of the block itself: SETUP or a worker (00_scope.md rule R6). -/
def blockMover : Mover → Bool
  | .setup | .worker _ => true
  | .host | .reset => false

/-- The agent has an enabled step (45_launch_control.md rules R234, R235 and R240; EXITED has none). -/
def enabled (m : Mover) (s : State) : Bool :=
  match m with
  | .setup => s.phase == .setup || (s.phase == .search && allExited s)
  | .worker g =>
    match worker? s g with
    | some w => s.phase == .search && w.phase != .exited
    | none => false
  | .host => s.env.hostProg != []
  | .reset => true

/-- A bound on the steps WORKER[g] still takes in this launch (45_launch_control.md rule R242), 2·BUDGET + 5 at START. -/
def stepsLeft (j : Job) (f : FoundState) (w : Worker) : Nat :=
  match w.phase with
  | .wait => 2 * budget j + 5
  | .poll => if f = .unset then 2 * (budget j - w.it.toNat) + 4 else 1
  | .eval => if f = .unset then 2 * (budget j - w.it.toNat) + 3 else 3
  | .claim => if f = .unset then 4 else 2
  | .write => 3
  | .publish => 2
  | .exited => 0

/-- The steps the launch still has: the workers' and those of the SETUP agent. -/
def launchWork (s : State) : Nat :=
  (s.workers.map (stepsLeft s.job s.found)).sum +
  match s.phase with
  | .idle => 0
  | .setup => 2
  | .search => 1

/-- Run a list of schedule entries, one step each. -/
def runPicks (ps : List Pick) (s : State) : Host.Outcome State Fault Refusal :=
  Host.Core.run Sys2Proof.core ps.length { s with env.sched := ps ++ s.env.sched }

/-- A schedule entry that names an operation: any agent, or an internal operation whose bytes decode. -/
def Pick.ok : Pick → Bool
  | .mover _ => true
  | .issue id l =>
    match decodeInternal id l with
    | .ok _ => true
    | .error _ => false

/-- The inputs a step runs on: every line of the host's program and every schedule entry names an operation. -/
def feedOk (s : State) : Bool :=
  s.env.hostProg.all (fun it => it.instr.wf) && s.env.sched.all Pick.ok

/-- One step of the agent `m`: a step whose choice is `m` (20_memory.md rule R75). -/
def stepAs (m : Mover) (s : State) : Host.Outcome State Fault Refusal :=
  step { s with env.sched := .mover m :: s.env.sched }

/-- An infinite run under the schedule `σ`, the parameter of 93_implementation_defined.md section 3: at each point n the
state is `ρ n` and the agent `σ n` moves (20_memory.md rule R71). -/
def IsRun (σ : Nat → Mover) (ρ : Nat → State) : Prop := ∀ n, stepAs (σ n) (ρ n) = .next (ρ (n + 1))

/-- Weak fairness: "an agent whose step stays enabled eventually takes it" (20_memory.md rule R75). The reset input is
no agent (00_scope.md rule R6). -/
def WeaklyFair (σ : Nat → Mover) (ρ : Nat → State) : Prop :=
  ∀ m, m ≠ .reset → ∀ n, (∀ k, n ≤ k → enabled m (ρ k) = true) → ∃ k, n ≤ k ∧ σ k = m

/-- A weakly fair run into which no reset falls. -/
structure FairRun (σ : Nat → Mover) (ρ : Nat → State) : Prop where
  run : IsRun σ ρ
  fair : WeaklyFair σ ρ
  no_reset : ∀ n, σ n ≠ .reset

end Sys2Proof.Machine
end

