-- ==== Sys2Proof/Certificates/Slice0/Obligations.lean ====
section
/-! DEFINITION. The statements: what the rules of spec/ say the operations and the block do. A next state is given whole:
`t = { s with f := t.f }` says that no field but `f` changed, and a clause beside it says what `f` became. -/

open Sys2Proof Sys2Proof.Machine

/-! ## Encoding -/

/-- Rules R91, R92, R94 and R96 with the model's operand layout (log entry 5): every operation that has a word of its
own is read back from it with every operand. -/
def Obligations.DecodeOfEncodeIsTheOperation : Prop :=
  ∀ i : Instr, i.wf = true → i.isPseudo = false → ∃ e, encode i = [e] ∧ decode e = .ok i

/-- Rules R91 to R93 and R98 the other way round: the encoder gives back a transaction word but for the bits OFF[1:0]
that a mapped row ignores, and the data of a write. -/
def Obligations.EncodeOfDecodedTransaction : Prop :=
  ∀ (t : BitVec 15) (d : Word),
    encode (decodeBus t d) =
      [.bus (if unmappedOff (txnOff t) then t else t &&& 0x7FFC) (if t.getLsbD 14 then d else 0)]

/-- Rule R92: "No two rows match one `TXN`." -/
def Obligations.NoTwoBusRowsMatchOneTransaction : Prop :=
  ∀ (t : BitVec 15) (r q : BusRow), r ∈ busTable → q ∈ busTable → r.selects t = true → q.selects t = true → r = q

/-- Rule R93: the transactions no row matches are those of the three offset ranges, in either direction; a read of one
returns 0 and a write of one is ignored. -/
def Obligations.UnmappedTransactionsReadZeroAndIgnoreWrites : Prop :=
  ∀ (t : BitVec 15) (d : Word) (s : State),
    ((∀ r ∈ busTable, r.selects t = false) ↔
      (0x02C ≤ (txnOff t).toNat ∧ (txnOff t).toNat ≤ 0x0FF) ∨ (0x140 ≤ (txnOff t).toNat ∧ (txnOff t).toNat ≤ 0x1FF) ∨
      (0x260 ≤ (txnOff t).toNat ∧ (txnOff t).toNat ≤ 0x1FFF)) ∧
    ((∀ r ∈ busTable, r.selects t = false) →
      (t.getLsbD 14 = false → decodeBus t d = .unmapped (txnOff t) .read ∧
        ∃ u, exec (decodeBus t d) s = .next u ∧ Answered s u 0) ∧
      (t.getLsbD 14 = true → decodeBus t d = .unmapped (txnOff t) (.write d) ∧ exec (decodeBus t d) s = .next s))

/-- Rules R94, R230 and R233: the whole 32-bit word is the command; 0 is NOP and changes nothing, 1 is START, and every
other value is reserved and changes nothing, in the step of the write to CMD itself. -/
def Obligations.CommandWordsNopStartAndReserved : Prop :=
  ∀ (s : State),
    (decode (.command 0) = .ok .nop ∧ exec .nop s = .next s ∧ exec (.wrCmd 0) s = .next s) ∧
    (decode (.command 1) = .ok .start ∧ exec (.wrCmd 1) s = exec .start s) ∧
    (∀ v : Word, 2 ≤ v.toNat →
      decode (.command v) = .ok (.reservedCommand v) ∧ exec (.reservedCommand v) s = .next s ∧
      exec (.wrCmd v) s = .next s)

/-- Rule R99 (WR64, WRBUF, RDBUF): the transactions a pseudo-operation expands to, by index, with zero past the end. -/
def Obligations.PseudoOperationsExpandToTransactions : Prop :=
  (∀ (off : BitVec 14) (v : Long),
    encode (.wr64 off v) = [.bus (wrTxn off) (v.extractLsb' 0 32), .bus (wrTxn (off + 4)) (v.extractLsb' 32 32)]) ∧
  (∀ (base : BitVec 14) (bs : List Byte),
    (encode (.wrbuf base bs)).length = (bs.length + 3) / 4 ∧
    ∀ k, k < (bs.length + 3) / 4 →
      (encode (.wrbuf base bs))[k]? = some (.bus (wrTxn (base + BitVec.ofNat 14 (4 * k)))
        (bs.getD (4 * k + 3) 0 ++ bs.getD (4 * k + 2) 0 ++ bs.getD (4 * k + 1) 0 ++ bs.getD (4 * k) 0))) ∧
  (∀ (base : BitVec 14) (n : Nat),
    (encode (.rdbuf base n)).length = (n + 3) / 4 ∧
    ∀ k, k < (n + 3) / 4 → (encode (.rdbuf base n))[k]? = some (.bus (rdTxn (base + BitVec.ofNat 14 (4 * k))) 0))

/-- A few words of the table, written out from rules R92, R94 and R96 and from section 2.9 of 95_test_vectors.md. How a
table word of 8, 16, 32 or 48 bits is laid out (zero operand bytes and zero data where the table gives them no bits, DATA
above TXN) is the model's own (log entry 5). -/
def Obligations.TableWordsDecodeToTheirRows : Prop :=
  decodeTableWord 16 0x0007 = some .rdStatus ∧ decodeTableWord 16 0x4004 = some (.wrStatus 0) ∧
  decodeTableWord 16 0x413C = some (.wrTargetHex 15 0) ∧ decodeTableWord 16 0x025C = some (.rdResultDigest 7) ∧
  decodeTableWord 16 0x7FFC = some (.wrPrefix 2047 0) ∧
  decodeTableWord 16 0x0260 = some (.unmapped 0x0260 .read) ∧
  decodeTableWord 48 0xDEADBEEF4024 = some (.wrMode 0xDEADBEEF) ∧
  decodeTableWord 32 0x00000001 = some .start ∧ decodeTableWord 8 0x0F = some (.poll 0) ∧
  decodeTableWord 8 0x15 = some .complete ∧ decodeTableWord 8 0x16 = none ∧ decodeTableWord 8 0x00 = none

/-! ## A step runs the decoded operation -/

/-- Rules R66, R71 and R98: when the host moves, the step is the meaning of the operation its next line encodes, in the
state whose program and schedule (the model's own, log entries 4 and 9) have moved past it. -/
def Obligations.StepRunsTheHostsNextLine : Prop :=
  ∀ (s : State) (ps : List Pick) (it : HostItem) (rest : List HostItem),
    s.env.sched = .mover .host :: ps → s.env.hostProg = it :: rest → it.instr.wf = true →
    step s = exec it.instr { s with env.sched := ps, env.hostProg := rest }

/-- Rules R42, R44 and R75 and log entries 4 and 8: when an agent of the block moves, the step is the operation its
phase gives it, and an agent without a step holds. That a schedule entry may name a numbered operation, which is then run
as its bytes decode, is the model's own (log entries 5, 9 and 11): rule R96 lets no host issue one. -/
def Obligations.StepRunsTheAgentsOperation : Prop :=
  ∀ (s : State) (ps : List Pick),
    (s.env.sched = .mover .setup :: ps →
      (s.phase = .setup → step s = exec .setup { s with env.sched := ps }) ∧
      (s.phase = .search → step s = exec .complete { s with env.sched := ps }) ∧
      (s.phase = .idle → step s = .next { s with env.sched := ps })) ∧
    (∀ (g : Word) (w : Worker), s.env.sched = .mover (.worker g) :: ps → worker? s g = some w →
      (w.phase = .wait → step s = exec (.wait g) { s with env.sched := ps }) ∧
      (w.phase = .poll → step s = exec (.poll g) { s with env.sched := ps }) ∧
      (w.phase = .eval → step s = exec (.eval g) { s with env.sched := ps }) ∧
      (w.phase = .claim → step s = exec (.claim g) { s with env.sched := ps }) ∧
      (w.phase = .write → step s = exec (.writeResult g) { s with env.sched := ps }) ∧
      (w.phase = .publish → step s = exec (.publish g) { s with env.sched := ps }) ∧
      (w.phase = .exited → step s = .next { s with env.sched := ps })) ∧
    (∀ g : Word, s.env.sched = .mover (.worker g) :: ps → worker? s g = none →
      step s = .next { s with env.sched := ps }) ∧
    (∀ (id : Byte) (l r : List Byte) (i : Instr), s.env.sched = .issue id l :: ps →
      decodeInternal id l = .ok (i, r) → i.wf = true → step s = exec i { s with env.sched := ps }) ∧
    (s.env.sched = [] →
      step s = step { s with
        env.sched := [.mover (Config.freeMover s.env.draws)], env.draws := s.env.draws + 1 })

/-- Log entry 9: a word put where the next step takes its operation from is run by that step, and by nothing else. -/
def Obligations.LoadedWordIsRunNext : Prop :=
  ∀ (s : State) (nbits w : Nat) (i : Instr), decodeTableWord nbits w = some i →
    step (s.withFetchWord nbits w) = exec i s

/-- Rules R260 and R265: the block raises no exception and every operation is total: exec answers a next state for
every operation in every state, and so does step as long as the program and the schedule name operations, which every
step keeps. -/
def Obligations.NoStepEverStops : Prop :=
  (∀ (i : Instr) (s : State), ∃ t, exec i s = .next t) ∧
  (∀ s : State, feedOk s = true → ∃ t, step s = .next t ∧ feedOk t = true)

/-! ## Host bus transactions -/

/-- Rules R21, R22 and R23: a read of CMD returns 0; STATUS shows BUSY, DONE and PHASE and FOUND shows STATE, and the
other bits read 0. A read changes no state of the block. -/
def Obligations.ControlRegisterReads : Prop :=
  ∀ s : State,
    (∃ t, exec .rdCmd s = .next t ∧ Answered s t 0) ∧
    (∃ t v, exec .rdStatus s = .next t ∧ Answered s t v ∧
      v.getLsbD 0 = decide (s.phase ≠ .idle) ∧ v.getLsbD 1 = s.done ∧
      v.extractLsb' 2 2 = (match s.phase with | .idle => 0 | .setup => 1 | .search => 2) ∧ v.extractLsb' 4 28 = 0) ∧
    (∃ t v, exec .rdFound s = .next t ∧ Answered s t v ∧
      v.toNat = (match s.found with | .unset => 0 | .claimed => 1 | .published => 2))

/-- Rules R26, R27 and (for the other registers) R24, R25 and R28 to R30: a job register resets to 0, a read of it
returns the stored value, and a write to it while IDLE is what the next read returns, with no other register changed. -/
def Obligations.JobRegistersResetReadAndWrite : Prop :=
  ∀ r : JobReg,
    readReg r State.reset = 0 ∧
    (∀ s : State, ∃ t, exec (jobRd r) s = .next t ∧ Answered s t (readReg r s)) ∧
    (∀ (s : State) (v : Word), s.phase = .idle → ∃ t u, exec (jobWr r v) s = .next t ∧
      exec (jobRd r) t = .next u ∧ Answered t u v ∧ t = { s with job := t.job } ∧
      ∀ q, q ≠ r → readReg q t = readReg q s)

/-- Rule R31: job register and job buffer writes take effect only while STATUS.BUSY = 0 and change nothing while it is 1;
reads of both return the stored values at any time. -/
def Obligations.JobWritesObeyTheBusyRule : Prop :=
  (∀ s : State, s.phase ≠ .idle →
    (∀ r v, exec (jobWr r v) s = .next s) ∧ (∀ k v, exec (.wrTargetHex k v) s = .next s) ∧
    (∀ k v, exec (.wrPrefix k v) s = .next s)) ∧
  (∀ s : State, s.phase = .idle →
    (∀ r v, ∃ t, exec (jobWr r v) s = .next t ∧ readReg r t = v ∧ t = { s with job := t.job }) ∧
    (∀ (k : BitVec 4) (v : Word) (j : Nat), j < 4 → ∃ t, exec (.wrTargetHex k v) s = .next t ∧
      bufByte t (0x100 + 4 * k.toNat + j) = v.extractLsb' (8 * j) 8 ∧ t = { s with mem := t.mem }) ∧
    (∀ (k : BitVec 11) (v : Word) (j : Nat), j < 4 → ∃ t, exec (.wrPrefix k v) s = .next t ∧
      bufByte t (0x2000 + 4 * k.toNat + j) = v.extractLsb' (8 * j) 8 ∧ t = { s with mem := t.mem })) ∧
  (∀ s : State,
    (∀ r, ∃ t, exec (jobRd r) s = .next t ∧ Answered s t (readReg r s)) ∧
    (∀ k : BitVec 4, ∃ t, exec (.rdTargetHex k) s = .next t ∧ Answered s t (windowWord s (0x100 + 4 * k.toNat))) ∧
    (∀ k : BitVec 11, ∃ t, exec (.rdPrefix k) s = .next t ∧ Answered s t (windowWord s (0x2000 + 4 * k.toNat))))

/-- Rules R32, R33 and R64: bits [8j+7:8j] of a word read from a job buffer are buffer byte 4k+j, and nothing changes; a
job buffer write while IDLE stores its four lanes at the window word it names, and every other byte reads as before. -/
def Obligations.JobBufferWindowsMoveFourLanes : Prop :=
  (∀ s : State,
    (∀ k : BitVec 4, ∃ t v, exec (.rdTargetHex k) s = .next t ∧ Answered s t v ∧
      ∀ j, j < 4 → v.extractLsb' (8 * j) 8 = bufByte s (0x100 + 4 * k.toNat + j)) ∧
    (∀ k : BitVec 11, ∃ t v, exec (.rdPrefix k) s = .next t ∧ Answered s t v ∧
      ∀ j, j < 4 → v.extractLsb' (8 * j) 8 = bufByte s (0x2000 + 4 * k.toNat + j))) ∧
  (∀ (s : State) (v : Word), s.phase = .idle →
    (∀ k : BitVec 4, ∃ t, exec (.wrTargetHex k v) s = .next t ∧ t = { s with mem := t.mem } ∧
      (∀ j, j < 4 → bufByte t (windowOff targetHexBase k.toNat + j) = v.extractLsb' (8 * j) 8) ∧
      ∀ a, a < windowOff targetHexBase k.toNat ∨ windowOff targetHexBase k.toNat + 4 ≤ a → bufByte t a = bufByte s a) ∧
    (∀ k : BitVec 11, ∃ t, exec (.wrPrefix k v) s = .next t ∧ t = { s with mem := t.mem } ∧
      (∀ j, j < 4 → bufByte t (windowOff prefixBase k.toNat + j) = v.extractLsb' (8 * j) 8) ∧
      ∀ a, a < windowOff prefixBase k.toNat ∨ windowOff prefixBase k.toNat + 4 ≤ a → bufByte t a = bufByte s a))

/-- Rules R34, R35, R64 and R68: a read of a result window returns the stored lanes while FOUND.STATE is 0 or 2, and a
free value, independent per read (log entry 2), while it is 1; it changes no state of the block. -/
def Obligations.ResultWindowReads : Prop :=
  ∀ s : State,
    (∀ k : BitVec 4, ∃ t v, exec (.rdResultNonce k) s = .next t ∧ Answered s t v ∧ t.env.draws = s.env.draws + 1 ∧
      (s.found = .claimed → v = Config.freeWord s.env.draws) ∧
      (s.found ≠ .claimed → ∀ j, j < 4 → v.extractLsb' (8 * j) 8 = bufByte s (0x200 + 4 * k.toNat + j))) ∧
    (∀ k : BitVec 3, ∃ t v, exec (.rdResultDigest k) s = .next t ∧ Answered s t v ∧ t.env.draws = s.env.draws + 1 ∧
      (s.found = .claimed → v = Config.freeWord s.env.draws) ∧
      (s.found ≠ .claimed → ∀ j, j < 4 → v.extractLsb' (8 * j) 8 = bufByte s (0x240 + 4 * k.toNat + j)))

/-- Rule R62: a write to STATUS, FOUND, RESULT_NONCE or RESULT_DIGEST, or to an unmapped offset, is ignored; and rule
R93: a read of an unmapped offset returns 0. -/
def Obligations.WritesToReadOnlyOffsetsAreIgnored : Prop :=
  ∀ (s : State) (v : Word),
    exec (.wrStatus v) s = .next s ∧ exec (.wrFound v) s = .next s ∧
    (∀ k, exec (.wrResultNonce k v) s = .next s) ∧ (∀ k, exec (.wrResultDigest k v) s = .next s) ∧
    (∀ off, exec (.unmapped off (.write v)) s = .next s) ∧
    (∀ off, ∃ t, exec (.unmapped off .read) s = .next t ∧ Answered s t 0)

/-- Rules R61, R62, R63 and R92: the row a transaction word selects does what `BusRead` and `BusWrite`, which go by the
offset alone, say; and OFF[1:0] selects nothing. -/
def Obligations.BusRowsRefineBusReadAndBusWrite : Prop :=
  ∀ (t : BitVec 15) (d : Word) (s : State),
    exec (decodeBus t d) s =
      .next (if t.getLsbD 14 then busWrite (txnOff t) d s else hostRead (busRead (txnOff t) s) s) ∧
    exec (decodeBus t d) s = exec (decodeBus (t &&& 0x7FFC) d) s

/-- Rules R66 and R99: a pseudo-operation performs the next transaction of its expansion as one host step and leaves the
rest at the head of the host's program (log entry 10); WAITDONE repeats its read until the value read has DONE = 1. -/
def Obligations.PseudoOperationsIssueTheirNextTransaction : Prop :=
  ∀ s : State,
    (∀ (off : BitVec 14) (v : Long), ∃ t u, exec (.wr64 off v) s = .next t ∧
      exec (decodeBus (wrTxn off) (v.extractLsb' 0 32)) s = .next u ∧
      t = { u with env.hostProg := .txn (wrTxn (off + 4)) (v.extractLsb' 32 32) :: u.env.hostProg }) ∧
    (∀ base : BitVec 14, exec (.wrbuf base []) s = .next s ∧ exec (.rdbuf base 0) s = .next s) ∧
    (∀ (base : BitVec 14) (bs : List Byte), bs ≠ [] → ∃ t u, exec (.wrbuf base bs) s = .next t ∧
      exec (decodeBus (wrTxn base) (bs.getD 3 0 ++ bs.getD 2 0 ++ bs.getD 1 0 ++ bs.getD 0 0)) s = .next u ∧
      t = if bs.length ≤ 4 then u
        else { u with env.hostProg := .wrbuf (base + 4) (bs.drop 4) :: u.env.hostProg }) ∧
    (∀ (base : BitVec 14) (n : Nat), 0 < n → ∃ t u, exec (.rdbuf base n) s = .next t ∧
      exec (decodeBus (rdTxn base) 0) s = .next u ∧
      t = if n ≤ 4 then u else { u with env.hostProg := .rdbuf (base + 4) (n - 4) :: u.env.hostProg }) ∧
    (∃ t u, exec .waitdone s = .next t ∧ exec .rdStatus s = .next u ∧
      t = if s.done then u else { u with env.hostProg := .waitdone :: u.env.hostProg })

/-- Rules R64, R99 and R288: while IDLE, WRBUF to a place inside TARGET_HEX or PREFIX stores its whole string in
ceil(n/4) host steps, zero in the rest of the last word, and leaves every other byte alone. -/
def Obligations.WrbufStoresTheWholeString : Prop :=
  ∀ (s : State) (base : BitVec 14) (bs : List Byte), s.phase = .idle → base.toNat % 4 = 0 →
    (0x100 ≤ base.toNat ∧ base.toNat + 4 * ((bs.length + 3) / 4) ≤ 0x140 ∨
      0x2000 ≤ base.toNat ∧ base.toNat + 4 * ((bs.length + 3) / 4) ≤ 0x4000) →
    ∃ t, runPicks (List.replicate ((bs.length + 3) / 4) (.mover .host))
        { s with env.hostProg := if bs = [] then s.env.hostProg else .wrbuf base bs :: s.env.hostProg } = .next t ∧
      t = { s with mem := t.mem } ∧
      ∀ a, bufByte t a =
        if base.toNat ≤ a ∧ a < base.toNat + 4 * ((bs.length + 3) / 4) then bs.getD (a - base.toNat) 0 else bufByte s a

/-- Rules R64, R68 and R99: while FOUND.STATE is not 1, RDBUF of n bytes of one window gives the host, in ceil(n/4) host
steps, exactly those bytes in lane order, and changes nothing of the block. -/
def Obligations.RdbufReturnsTheBytes : Prop :=
  ∀ (s : State) (base : BitVec 14) (n : Nat), s.found ≠ .claimed → base.toNat % 4 = 0 → 0 < n →
    (0x100 ≤ base.toNat ∧ base.toNat + n ≤ 0x140 ∨ 0x200 ≤ base.toNat ∧ base.toNat + n ≤ 0x240 ∨
      0x240 ≤ base.toNat ∧ base.toNat + n ≤ 0x260 ∨ 0x2000 ≤ base.toNat ∧ base.toNat + n ≤ 0x4000) →
    ∃ t, runPicks (List.replicate ((n + 3) / 4) (.mover .host))
        { s with env.hostProg := .rdbuf base n :: s.env.hostProg } = .next t ∧ SameBlock s t ∧
      t.env.hostProg = s.env.hostProg ∧
      rxBytes t.env.hostRx n = (List.range n).map (fun i => bufByte s (base.toNat + i))

/-! ## Commands, setup and completion -/

/-- Rule R231: START from IDLE. The fields named are all that changes; every worker is in WAIT with IT = 0. -/
def Obligations.StartBeginsALaunch : Prop :=
  ∀ s : State, s.phase = .idle → ∃ t, exec .start s = .next t ∧ exec (.wrCmd 1) s = .next t ∧
    t = { s with found := .unset, done := false, phase := .setup, workers := t.workers, env.draws := t.env.draws } ∧
    t.workers.length = s.job.numWorkers.toNat ∧ ∀ w ∈ t.workers, w.phase = .wait ∧ w.it = 0

/-- Rule R232: START while BUSY is ignored. -/
def Obligations.StartWhileBusyIsIgnored : Prop :=
  ∀ s : State, s.phase ≠ .idle → exec .start s = .next s ∧ exec (.wrCmd 1) s = .next s

/-- Rules R140 to R145 and R234: the SETUP step clamps the length, absorbs the full blocks in order from H_INIT, captures
the zero-padded tail, computes the bit-length, decodes the target and releases the barrier; nothing else changes, and no
value that the setup state held before is read (rules R36 to R41: the reset values of log entry 6 reach nothing). -/
def Obligations.SetupStepComputesAndReleases : Prop :=
  ∀ s : State, s.phase = .setup → ∃ t, exec .setup s = .next t ∧ (∀ u : Setup, exec .setup { s with setup := u } = .next t) ∧
    t = { s with phase := .search, setup := t.setup } ∧
    t.setup.plen.val = min s.job.prefixLen.toNat 8192 ∧
    t.setup.midH = ((List.range (t.setup.plen.val / 64)).map (fun b => blockAt (prefixBytes s t.setup.plen.val) b)).foldl
      compress hInit ∧
    t.setup.tailLen.val = t.setup.plen.val % 64 ∧
    t.setup.tail.val.take t.setup.tailLen.val =
      (prefixBytes s t.setup.plen.val).drop (t.setup.plen.val - t.setup.tailLen.val) ∧
    t.setup.tail.val.drop t.setup.tailLen.val = List.replicate (64 - t.setup.tailLen.val) 0 ∧
    t.setup.bitlen.toNat = (t.setup.plen.val + 64) * 8 ∧
    beNat t.setup.tgt.val =
      (List.range 64).foldl (fun n i => 16 * n + (hexNibble (bufByte s (0x100 + i))).toNat) 0

/-- Rules R140, R142, R143, R144 and R201: each setup operation writes its own piece of the setup state and nothing else.
The spec runs them inside SETUP only; that each runs alone, in any phase, is the model's own (log entry 11). -/
def Obligations.SetupOperationsWriteTheirOwnPiece : Prop :=
  ∀ s : State,
    (∃ t, exec .prefixClamp s = .next t ∧ t = { s with setup.plen := t.setup.plen } ∧
      t.setup.plen.val = min s.job.prefixLen.toNat 8192) ∧
    (∃ t, exec .midstateAbsorb s = .next t ∧ t = { s with setup.midH := t.setup.midH } ∧
      (s.setup.plen.val < 64 → t.setup.midH = hInit) ∧
      t.setup.midH =
        ((List.range (s.setup.plen.val / 64)).map (fun b => blockAt (prefixBytes s 8192) b)).foldl compress hInit) ∧
    (∃ t, exec .tailCapture s = .next t ∧ t = { s with setup.tail := t.setup.tail, setup.tailLen := t.setup.tailLen } ∧
      t.setup.tailLen.val = s.setup.plen.val % 64 ∧
      ∀ i, i < 64 → t.setup.tail.val.getD i 0 =
        if i < s.setup.plen.val % 64 then bufByte s (0x2000 + 64 * (s.setup.plen.val / 64) + i) else 0) ∧
    (∃ t, exec .bitlenCompute s = .next t ∧ t = { s with setup.bitlen := t.setup.bitlen } ∧
      t.setup.bitlen.toNat = (s.setup.plen.val + 64) * 8) ∧
    (∃ t, exec .targetDecode s = .next t ∧ t = { s with setup.tgt := t.setup.tgt } ∧
      ∀ k, k < 32 → t.setup.tgt.val.getD k 0 =
        hexNibble (bufByte s (0x100 + 2 * k)) ++ hexNibble (bufByte s (0x100 + (2 * k + 1))))

/-- Rule R145: "any order that runs PREFIX_CLAMP first gives the same state". -/
def Obligations.SetupOperationsCommuteAfterTheClamp : Prop :=
  ∀ (s : State) (fs : List (State → State)),
    fs.Perm [absorbMidstate, writeTail, writeBitlen, targetDecode] →
    fs.foldl (fun u f => f u) (clampPrefix s) = setupCompute s

/-- Rule R240: COMPLETE, once every worker has exited. -/
def Obligations.CompleteEndsTheLaunch : Prop :=
  ∀ s : State, s.phase = .search → (∀ w ∈ s.workers, w.phase = .exited) →
    exec .complete s = .next { s with phase := .idle, done := true, workers := [] }

/-- Log entry 8 with the "Enabled when" of rules R210, R211, R213, R214, R234, R235, R237 and R240: an agent's operation
that is not enabled changes nothing. -/
def Obligations.DisabledOperationsChangeNothing : Prop :=
  ∀ s : State,
    (s.phase ≠ .setup → exec .setup s = .next s) ∧
    ((s.phase ≠ .search ∨ ∃ w ∈ s.workers, w.phase ≠ .exited) → exec .complete s = .next s) ∧
    (∀ g : Word,
      ((s.phase ≠ .search ∨ ∀ w, worker? s g = some w → w.phase ≠ .wait) → exec (.wait g) s = .next s) ∧
      ((∀ w, worker? s g = some w → w.phase ≠ .poll) → exec (.poll g) s = .next s) ∧
      ((∀ w, worker? s g = some w → w.phase ≠ .eval) → exec (.eval g) s = .next s) ∧
      ((∀ w, worker? s g = some w → w.phase ≠ .claim) → exec (.claim g) s = .next s) ∧
      ((∀ w, worker? s g = some w → w.phase ≠ .write) → exec (.writeResult g) s = .next s) ∧
      ((∀ w, worker? s g = some w → w.phase ≠ .publish) → exec (.publish g) s = .next s))

/-! ## Worker steps -/

/-- Rule R235: WAIT goes to POLL once PHASE = SEARCH, and holds until then. -/
def Obligations.WaitPassesTheBarrier : Prop :=
  ∀ (s : State) (g : Word) (w : Worker), worker? s g = some w → w.phase = .wait →
    (s.phase = .search →
      exec (.wait g) s = .next { s with workers := s.workers.set g.toNat { w with phase := .poll } }) ∧
    (s.phase ≠ .search → exec (.wait g) s = .next s)

/-- Rules R210 and R236: POLL exits on a spent budget, then on a found-flag that is not 0, and else admits the worker to
EVAL; the budget is ITERS_PER_WORKER when positive as a signed number, and 0 otherwise. -/
def Obligations.PollTestsTheBudgetThenTheFlag : Prop :=
  ∀ (s : State) (g : Word) (w : Worker), worker? s g = some w → w.phase = .poll →
    ((w.it.toNat : Int) ≥ max 0 s.job.itersPerWorker.toInt →
      exec (.poll g) s = .next { s with workers := s.workers.set g.toNat { w with phase := .exited } }) ∧
    ((w.it.toNat : Int) < max 0 s.job.itersPerWorker.toInt → s.found ≠ .unset →
      exec (.poll g) s = .next { s with workers := s.workers.set g.toNat { w with phase := .exited } }) ∧
    ((w.it.toNat : Int) < max 0 s.job.itersPerWorker.toInt → s.found = .unset →
      exec (.poll g) s = .next { s with workers := s.workers.set g.toNat { w with phase := .eval } })

/-- Rule R237: EVAL latches the nonce hex and the digest of its candidate, and compares the digest as a 256-bit number. -/
def Obligations.EvalHashesOneCandidate : Prop :=
  ∀ (s : State) (g : Word) (w : Worker), worker? s g = some w → w.phase = .eval →
    ∃ (hex : Bytes 64) (dig : Bytes 32),
      hex = nonceHex (nonceBytes g (low64 s.job g w.it)) ∧
      dig = finalize s.setup.midH (finalBlocks s.setup.tail s.setup.tailLen s.setup.bitlen hex) ∧
      (beNat dig.val ≤ beNat s.setup.tgt.val → exec (.eval g) s = .next { s with
        workers := s.workers.set g.toNat { w with candHex := hex, candDig := dig, phase := .claim } }) ∧
      (beNat s.setup.tgt.val < beNat dig.val → exec (.eval g) s = .next { s with
        workers := s.workers.set g.toNat { w with candHex := hex, candDig := dig, it := w.it + 1, phase := .poll } })

/-- Rule R211: CLAIM is one atomic compare-and-swap of FOUND from 0 to 1. -/
def Obligations.ClaimIsACompareAndSwap : Prop :=
  ∀ (s : State) (g : Word) (w : Worker), worker? s g = some w → w.phase = .claim →
    (s.found = .unset → exec (.claim g) s = .next { s with
      found := .claimed, workers := s.workers.set g.toNat { w with phase := .write } }) ∧
    (s.found ≠ .unset → exec (.claim g) s = .next { s with
      workers := s.workers.set g.toNat { w with it := w.it + 1, phase := .poll } })

/-- Rule R213: WRITE_RESULT stores the candidate latches in the two result windows, and no other byte. -/
def Obligations.WriteResultStoresTheCandidate : Prop :=
  ∀ (s : State) (g : Word) (w : Worker), worker? s g = some w → w.phase = .write →
    ∃ t, exec (.writeResult g) s = .next t ∧
      t = { s with mem := t.mem, workers := s.workers.set g.toNat { w with phase := .publish } } ∧
      (∀ i, i < 64 → bufByte t (resultNonceBase + i) = w.candHex.val.getD i 0) ∧
      (∀ i, i < 32 → bufByte t (resultDigestBase + i) = w.candDig.val.getD i 0) ∧
      ∀ a, a < 0x200 ∨ 0x260 ≤ a → bufByte t a = bufByte s a

/-- Rule R214: PUBLISH. -/
def Obligations.PublishSetsFoundToTwo : Prop :=
  ∀ (s : State) (g : Word) (w : Worker), worker? s g = some w → w.phase = .publish →
    exec (.publish g) s = .next { s with
      found := .published, workers := s.workers.set g.toNat { w with it := w.it + 1, phase := .poll } }

/-- Rule R267: a worker's operation writes no other worker, no job register, no setup state, no PHASE and no DONE, and
only the result windows of the buffers. -/
def Obligations.WorkersTouchOnlyTheirOwnState : Prop :=
  ∀ (s t : State) (g : Word) (i : Instr),
    i ∈ [Instr.wait g, .poll g, .eval g, .claim g, .writeResult g, .publish g] → exec i s = .next t →
    (∀ g', g' ≠ g → worker? t g' = worker? s g') ∧ t.workers.length = s.workers.length ∧
    t = { s with mem := t.mem, found := t.found, workers := t.workers } ∧
    ∀ a, a < 0x200 ∨ 0x260 ≤ a → bufByte t a = bufByte s a

/-! ## The pure operations: where each leaves its result when it is issued alone is the model's own (log entry 11) -/

/-- Rules R125 to R129: COMPRESS loads sixteen words big-endian, expands them to 64 by the recurrence, runs the 64 rounds
with the round constants, and adds the result to the state word by word; it changes no state. -/
def Obligations.CompressRunsTheSixtyFourRounds : Prop :=
  ∀ (st : HashWords) (blk : Bytes 64) (s : State), ∃ (w : Nat → Word) (v : Nat → HashWords) (t : State),
    (∀ k, k < 16 → (w k).toNat = beNat (slice blk.val (4 * k) (4 * k + 4))) ∧
    (∀ k, 16 ≤ k → k < 64 →
      w k = smallSigma1 (w (k - 2)) + w (k - 7) + smallSigma0 (w (k - 15)) + w (k - 16)) ∧
    v 0 = st ∧
    (∀ k, k < 64 → ∃ t1 t2 : Word,
      t1 = (v k).h + bigSigma1 (v k).e + ch (v k).e (v k).f (v k).g + roundConstants.getD k 0 + w k ∧
      t2 = bigSigma0 (v k).a + maj (v k).a (v k).b (v k).c ∧
      v (k + 1) = ⟨t1 + t2, (v k).a, (v k).b, (v k).c, (v k).d + t1, (v k).e, (v k).f, (v k).g⟩) ∧
    exec (.compress st blk) s = .next t ∧
    Computed s t (.state ⟨st.a + (v 64).a, st.b + (v 64).b, st.c + (v 64).c, st.d + (v 64).d,
      st.e + (v 64).e, st.f + (v 64).f, st.g + (v 64).g, st.h + (v 64).h⟩)

/-- The worked example of rule R125: the padded one-block message "abc". -/
def Obligations.CompressOfTheAbcBlock : Prop :=
  ∀ blk : Bytes 64, blk.val = [0x61, 0x62, 0x63, 0x80] ++ zeros 52 ++ be64bytes 24 →
    compress hInit blk =
      ⟨0xba7816bf, 0x8f01cfea, 0x414140de, 0x5dae2223, 0xb00361a3, 0x96177a9c, 0xb410ff61, 0xf20015ad⟩

/-- Rule R160: NONCE_DERIVE, as arithmetic on numbers modulo 2^64. -/
def Obligations.NonceDeriveFormula : Prop :=
  ∀ (s : State) (g it : Word), ∃ (t : State) (low : Long), exec (.nonceDerive g it) s = .next t ∧
    Computed s t (.nonce g low) ∧
    low.toNat = (s.job.startNonceHi.toNat * 2 ^ 32 + s.job.startNonceLo.toNat +
      g.toNat * s.job.itersPerWorker.toNat * s.job.nonceStride.toNat + s.job.nonceOffset.toNat +
      it.toNat * s.job.nonceStride.toNat) % 2 ^ 64

/-- Rules R161 and R162: NONCE_BYTES is the 96-bit nonce big-endian under twenty zero bytes; NONCE_HEX writes each nibble
as one lowercase character, most significant first. -/
def Obligations.NonceBytesAndNonceHex : Prop :=
  (∀ (s : State) (hi : Word) (lo : Long), ∃ (t : State) (nb : Bytes 32), exec (.nonceBytes hi lo) s = .next t ∧
    Computed s t (.nb nb) ∧ nb.val.take 20 = List.replicate 20 0 ∧
    beNat nb.val = hi.toNat * 2 ^ 64 + lo.toNat) ∧
  (∀ (s : State) (nb : Bytes 32), ∃ (t : State) (hex : Bytes 64), exec (.nonceHex nb) s = .next t ∧
    Computed s t (.hex hex) ∧
    ∀ k, k < 64 → ∃ v : Nat, v = (if k % 2 = 0 then (nb.val.getD (k / 2) 0).toNat / 16 else (nb.val.getD (k / 2) 0).toNat % 16) ∧
      (hex.val.getD k 0).toNat = if v < 10 then 0x30 + v else 0x61 + (v - 10))

/-- Rule R163: candidates of different workers always differ, and those of one worker differ exactly when
NONCE_STRIDE ≠ 0. -/
def Obligations.PartitionIsDisjoint : Prop :=
  ∀ (j : Job) (g1 g2 i1 i2 : Word), i1.toNat < budget j → i2.toNat < budget j →
    (g1 ≠ g2 → candidateHex j g1 i1 ≠ candidateHex j g2 i2) ∧
    (i1 ≠ i2 → (candidateHex j g1 i1 ≠ candidateHex j g1 i2 ↔ j.nonceStride ≠ 0))

/-- Rules R181 to R184: the two or three final blocks, by the tail length. -/
def Obligations.FinalBlocksByTailLength : Prop :=
  ∀ (s : State) (hex : Bytes 64), ∃ (t : State) (bl : List (Bytes 64)), exec (.finalBlocks hex) s = .next t ∧
    Computed s t (.blocks bl) ∧
    (s.setup.tailLen.val = 0 →
      bl.map Subtype.val = [hex.val, [0x80] ++ zeros 55 ++ be64bytes s.setup.bitlen]) ∧
    (1 ≤ s.setup.tailLen.val → s.setup.tailLen.val ≤ 55 →
      bl.map Subtype.val = [s.setup.tail.val.take s.setup.tailLen.val ++ hex.val.take (64 - s.setup.tailLen.val),
        hex.val.drop (64 - s.setup.tailLen.val) ++ [0x80] ++ zeros (55 - s.setup.tailLen.val) ++ be64bytes s.setup.bitlen]) ∧
    (56 ≤ s.setup.tailLen.val →
      bl.map Subtype.val = [s.setup.tail.val.take s.setup.tailLen.val ++ hex.val.take (64 - s.setup.tailLen.val),
        hex.val.drop (64 - s.setup.tailLen.val) ++ [0x80] ++ zeros (63 - s.setup.tailLen.val),
        zeros 56 ++ be64bytes s.setup.bitlen])

/-- Rules R185 and R186: FINALIZE chains COMPRESS from MID_H over its blocks in order, and gives the eight words
big-endian, word 0 first; MID_H is not written. -/
def Obligations.FinalizeChainsFromTheMidstate : Prop :=
  ∀ (s : State) (a b : Bytes 64) (c : Option (Bytes 64)), ∃ (t : State) (dig : Bytes 32) (h : HashWords),
    exec (.finalize a b c) s = .next t ∧ Computed s t (.digest dig) ∧
    h = (match c with
      | none => compress (compress s.setup.midH a) b
      | some x => compress (compress (compress s.setup.midH a) b) x) ∧
    dig.val = be32bytes h.a ++ be32bytes h.b ++ be32bytes h.c ++ be32bytes h.d ++
      be32bytes h.e ++ be32bytes h.f ++ be32bytes h.g ++ be32bytes h.h

/-- Rule R187 (and R188): the digest that the cached midstate gives a candidate is SHA-256 of the clamped prefix followed
by the nonce hex, in one pass over the standard padding, for every prefix length and every nonce. -/
def Obligations.DigestIsSha256OfPrefixAndNonce : Prop :=
  ∀ (s : State) (hex : Bytes 64),
    candidateDig (setupOf s) hex = sha256 (prefixBytes s (min s.job.prefixLen.toNat 8192) ++ hex.val)

/-- Rule R200: HEX_NIBBLE. -/
def Obligations.HexNibbleDecodesOneCharacter : Prop :=
  ∀ (s : State) (c : Byte), ∃ (t : State) (v : BitVec 4), exec (.hexNibble c) s = .next t ∧ Computed s t (.nibble v) ∧
    (0x30 ≤ c.toNat ∧ c.toNat ≤ 0x39 → v.toNat = c.toNat - 0x30) ∧
    (0x61 ≤ c.toNat ∧ c.toNat ≤ 0x66 → v.toNat = c.toNat - 0x61 + 10) ∧
    (0x41 ≤ c.toNat ∧ c.toNat ≤ 0x46 → v.toNat = c.toNat - 0x41 + 10) ∧
    (¬(0x30 ≤ c.toNat ∧ c.toNat ≤ 0x39) → ¬(0x61 ≤ c.toNat ∧ c.toNat ≤ 0x66) →
      ¬(0x41 ≤ c.toNat ∧ c.toNat ≤ 0x46) → v = 0)

/-- Rules R202 and R203: COMPARE is the comparison of unsigned 256-bit numbers, equality included. -/
def Obligations.CompareIsUnsignedLessOrEqual : Prop :=
  ∀ (s : State) (dig : Bytes 32), ∃ (t : State) (b : Bool), exec (.compare dig) s = .next t ∧ Computed s t (.flag b) ∧
    (b = true ↔ beNat dig.val ≤ beNat s.setup.tgt.val)

/-- Rule R29: no internal operation reads MODE: with any other value of it each gives the same next state but for MODE. -/
def Obligations.ModeIsReadByNoOperation : Prop :=
  ∀ (i : Instr) (s t : State) (m : Word), isInternal i = true → exec i s = .next t →
    exec i { s with job.mode := m } = .next { t with job.mode := m }

/-! ## Reset -/

/-- Rule R281 with R280: after reset STATUS and FOUND read 0, every job register reads 0, there is no worker, and a byte
of a buffer is a free value (log entry 1). -/
def Obligations.ResetStateReadsZero : Prop :=
  State.reset.phase = .idle ∧ State.reset.workers = [] ∧
  (∃ t, exec .rdStatus State.reset = .next t ∧ Answered State.reset t 0) ∧
  (∃ t, exec .rdFound State.reset = .next t ∧ Answered State.reset t 0) ∧
  (∀ r, ∃ t, exec (jobRd r) State.reset = .next t ∧ Answered State.reset t 0) ∧
  ∀ a, bufByte State.reset a = Config.resetByte 0 a

/-- Rule R280: the reset input, in any phase. The bytes of the four buffers are new free values (log entry 1), and what is
outside the block goes on (log entry 12). -/
def Obligations.ResetOverridesEveryPhase : Prop :=
  ∀ (s : State) (ps : List Pick), s.env.sched = .mover .reset :: ps →
    ∃ t, step s = .next t ∧ t.phase = .idle ∧ t.done = false ∧ t.found = .unset ∧ (∀ r, readReg r t = 0) ∧
      t.workers = [] ∧ (∀ a, bufByte t a = Config.resetByte (s.env.epoch + 1) a) ∧
      t.env.hostProg = s.env.hostProg ∧ t.env.hostRx = s.env.hostRx ∧ t.env.sched = ps

/-! ## The whole machine -/

/-- The state after reset meets the invariant. -/
def Obligations.ResetMeetsTheInvariant : Prop := LaunchInv State.reset

/-- Rules R42 to R46, R72, R73, R212 and R213: every step of every agent, and a reset, keeps the invariant: the canonical
memory, the worker pool, the barrier, the frozen setup state, one holder of the claim while FOUND = 1, and result
windows that hold a worker's first match once FOUND = 2. -/
def Obligations.EveryStepKeepsTheInvariant : Prop :=
  ∀ s t : State, LaunchInv s → step s = .next t → LaunchInv t

/-- Rule R243 (with R215): what a completed launch leaves. With FOUND = 0 no candidate of any worker matched and every
one of them was evaluated; otherwise FOUND = 2 and the windows hold the first match of some worker. -/
def Obligations.CompletedLaunchOutcome : Prop :=
  ∀ s t : State, LaunchInv s → s.phase = .search → (∀ w ∈ s.workers, w.phase = .exited) → exec .complete s = .next t →
    (t.found = .unset ∧ (∀ w ∈ s.workers, w.it.toNat = budget s.job) ∧
      ∀ g it : Word, g.toNat < t.job.numWorkers.toNat → it.toNat < budget t.job → candidateMatches t g it = false) ∨
    (t.found = .published ∧
      ∃ g it : Word, g.toNat < t.job.numWorkers.toNat ∧ FirstMatch t g it ∧ ResultHolds t g it)

/-- Rules R1, R187, R213 and R215 together: once FOUND = 2 in SEARCH, the digest the host reads is SHA-256 of the prefix
and the nonce hex it reads, and as a number it is at most the target. -/
def Obligations.PublishedResultIsASolution : Prop :=
  ∀ s : State, LaunchInv s → s.phase = .search → s.found = .published →
    resultDigest s = (sha256 (prefixBytes s (min s.job.prefixLen.toNat 8192) ++ resultNonce s)).val ∧
    beNat (resultDigest s) ≤ (List.range 64).foldl (fun n i => 16 * n + (hexNibble (bufByte s (0x100 + i))).toNat) 0

/-- Rule R243: "every such g is the winner under some schedule": a worker with a first match, run alone from the end of
setup, publishes that match. -/
def Obligations.EveryFirstMatchCanWin : Prop :=
  ∀ (s : State) (g it : Word), LaunchInv s → s.phase = .search → s.found = .unset →
    (∀ w ∈ s.workers, w.phase = .wait) → g.toNat < s.job.numWorkers.toNat → FirstMatch s g it →
    ∃ (n : Nat) (t : State), runPicks (List.replicate n (.mover (.worker g))) s = .next t ∧
      t.phase = .search ∧ t.job = s.job ∧ t.found = .published ∧ ResultHolds t g it

/-- Rule R23: within a launch, from the state START leaves to the state COMPLETE leaves, FOUND only rises: no step but a
reset lowers it while the block is not IDLE. -/
def Obligations.FoundOnlyRisesWithinALaunch : Prop :=
  ∀ s t : State, s.phase ≠ .idle → step s = .next t → t.env.epoch = s.env.epoch →
    s.found.code.toNat ≤ t.found.code.toNat

/-- Rules R31, R72 and R77: from START to COMPLETE no step but a reset changes a job register or a byte of TARGET_HEX or
PREFIX, and from the barrier on none changes the setup state. -/
def Obligations.JobIsFrozenDuringALaunch : Prop :=
  ∀ s t : State, LaunchInv s → s.phase ≠ .idle → step s = .next t → t.env.epoch = s.env.epoch →
    t.job = s.job ∧ (∀ a, a < 0x200 ∨ 0x260 ≤ a → bufByte t a = bufByte s a) ∧
    (s.phase = .search → t.setup = s.setup)

/-- Rules R34, R35, R73 and R212: no step but a reset and the WRITE_RESULT of the worker in WRITE changes a byte of the
result windows, and no worker is in WRITE unless FOUND = 1: the result is written at most once per launch. -/
def Obligations.ResultIsWrittenByTheWinnerOnly : Prop :=
  ∀ s t : State, LaunchInv s → step s = .next t → t.env.epoch = s.env.epoch →
    (∃ a, 0x200 ≤ a ∧ a < 0x260 ∧ bufByte t a ≠ bufByte s a) →
    s.found = .claimed ∧ ∃ (g : Word) (w w' : Worker), worker? s g = some w ∧ w.phase = .write ∧
      worker? t g = some w' ∧ w'.phase = .publish ∧
      (∀ g' u, g' ≠ g → worker? s g' = some u → holdsClaim u = false)

/-- Rule R216: once the flag is claimed no worker enters EVAL: each performs at most the evaluation it was already
admitted to. -/
def Obligations.NoEvaluationStartsAfterAClaim : Prop :=
  ∀ (s t : State) (g : Word) (w' : Worker), s.phase = .search → s.found ≠ .unset → step s = .next t →
    worker? t g = some w' → w'.phase = .eval → ∃ w, worker? s g = some w ∧ w.phase = .eval

/-- Rule R242: a worker starts a launch with a bound of 2·BUDGET + 5 steps; each step it takes lowers its bound, and no
step of anyone raises it. -/
def Obligations.WorkerStepsAreBounded : Prop :=
  (∀ (s t : State) (w : Worker), s.phase = .idle → exec .start s = .next t → w ∈ t.workers →
    stepsLeft t.job t.found w = 2 * budget s.job + 5) ∧
  (∀ (s t : State) (g : Word) (w w' : Worker) (ps : List Pick), LaunchInv s → s.phase = .search → t.phase = .search →
    worker? s g = some w → worker? t g = some w' → step s = .next t →
    stepsLeft t.job t.found w' ≤ stepsLeft s.job s.found w ∧
    (s.env.sched = .mover (.worker g) :: ps → w.phase ≠ .exited →
      stepsLeft t.job t.found w' < stepsLeft s.job s.found w))

/-- Rules R75 and R242: while a launch runs, some agent of the block has an enabled step, every enabled step of the block
lowers the launch's remaining work, and some schedule of the block's agents alone brings it to DONE = 1. Every weakly
fair run without a reset brings the launch it starts in to DONE = 1, whatever the host does meanwhile; and from every
state whose inputs name operations there is such a run. -/
def Obligations.EveryLaunchCanComplete : Prop :=
  (∀ s : State, LaunchInv s → s.phase ≠ .idle →
    (∃ m, blockMover m = true ∧ enabled m s = true) ∧
    (∀ m ps t, blockMover m = true → enabled m s = true → s.env.sched = .mover m :: ps → step s = .next t →
      launchWork t < launchWork s) ∧
    ∃ (ms : List Mover) (t : State), ms.all blockMover = true ∧ runPicks (ms.map .mover) s = .next t ∧
      t.phase = .idle ∧ t.done = true ∧ t.job = s.job) ∧
  (∀ (σ : Nat → Mover) (ρ : Nat → State), FairRun σ ρ → LaunchInv (ρ 0) → (ρ 0).phase ≠ .idle →
    ∃ n, (∀ k, k < n → (ρ k).phase ≠ .idle) ∧ (ρ n).phase = .idle ∧ (ρ n).done = true ∧ (ρ n).job = (ρ 0).job) ∧
  (∀ s : State, feedOk s = true → ∃ (σ : Nat → Mover) (ρ : Nat → State), FairRun σ ρ ∧ ρ 0 = s)

/-- Rule R241: with NUM_WORKERS = 0 a launch is START, SETUP and COMPLETE, and FOUND stays 0. -/
def Obligations.EmptyLaunchCompletes : Prop :=
  ∀ s : State, s.phase = .idle → s.job.numWorkers = 0 →
    ∃ t, runPicks [.mover .host, .mover .setup, .mover .setup] { s with env.hostProg := .command 1 :: s.env.hostProg } =
        .next t ∧
      t.phase = .idle ∧ t.done = true ∧ t.found = .unset ∧ t.workers = [] ∧ t.job = s.job ∧ t.mem = s.mem
end

