-- ==== Sys2Proof/Laws/Bytes.lean ====
section
/-! SUPPORT. Byte order: a number taken apart and put together again is the number, and each reader of the decoder gives
back what the encoder put at the front of the bytes. -/

namespace Sys2Proof

@[simp] theorem be32bytes_length (x : Word) : (be32bytes x).length = 4 := rfl

@[simp] theorem be64bytes_length (x : Long) : (be64bytes x).length = 8 := rfl

@[simp] theorem laneBytes_length (v : Word) : (laneBytes v).length = 4 := rfl

@[simp] theorem zeros_length (n : Nat) : (zeros n).length = n := by simp [zeros]

@[simp] theorem hashBytes_length (v : HashWords) : (hashBytes v).length = 32 := rfl

/-- `BE32` undoes `be32bytes` (00_scope.md rule R9). -/
theorem be32_extract (x : Word) :
    be32 (x.extractLsb' 24 8) (x.extractLsb' 16 8) (x.extractLsb' 8 8) (x.extractLsb' 0 8) = x := by
  apply BitVec.eq_of_getLsbD_eq
  intro i hi
  simp only [be32, BitVec.getLsbD_append, BitVec.getLsbD_extractLsb']
  by_cases h1 : i < 8
  · simp [h1]
  · by_cases h2 : i - 8 < 8
    · simp [h1, h2, show 8 + (i - 8) = i by omega]
    · by_cases h3 : i - 8 - 8 < 8
      · simp [h1, h2, h3, show 16 + (i - 8 - 8) = i by omega]
      · simp [h1, h2, h3, show 24 + (i - 8 - 8 - 8) = i by omega, show i - 8 - 8 - 8 < 8 by omega]

/-- A bus word is the word of its lanes (20_memory.md rule R64). -/
theorem laneWord_extract (x : Word) :
    laneWord (x.extractLsb' 0 8) (x.extractLsb' 8 8) (x.extractLsb' 16 8) (x.extractLsb' 24 8) = x := be32_extract x

/-- Lane `j` of a bus word is the byte put there. -/
theorem laneBytes_laneWord (b0 b1 b2 b3 : Byte) : laneBytes (laneWord b0 b1 b2 b3) = [b0, b1, b2, b3] := by
  have key : ∀ (a b c d : Byte), ((a ++ b ++ c ++ d : BitVec 32).extractLsb' 24 8 = a) ∧
      ((a ++ b ++ c ++ d : BitVec 32).extractLsb' 16 8 = b) ∧
      ((a ++ b ++ c ++ d : BitVec 32).extractLsb' 8 8 = c) ∧
      ((a ++ b ++ c ++ d : BitVec 32).extractLsb' 0 8 = d) := by
    intro a b c d
    refine ⟨?_, ?_, ?_, ?_⟩ <;>
    · apply BitVec.eq_of_getLsbD_eq
      intro i hi
      simp only [BitVec.getLsbD_append, BitVec.getLsbD_extractLsb', hi, decide_true, Bool.true_and]
      repeat' split
      all_goals first | omega | (congr 1; omega)
  obtain ⟨h3, h2, h1, h0⟩ := key b3 b2 b1 b0
  simp only [laneBytes, laneWord, h0, h1, h2, h3]

@[simp] theorem takeWord_be32bytes (x : Word) (r : List Byte) : takeWord (be32bytes x ++ r) = .ok (x, r) := by
  simp only [be32bytes, List.cons_append, List.nil_append, takeWord, be32_extract]

theorem long_extract (x : Long) : (x.extractLsb' 32 32 ++ x.extractLsb' 0 32 : BitVec 64) = x := by
  apply BitVec.eq_of_getLsbD_eq
  intro i hi
  simp only [BitVec.getLsbD_append, BitVec.getLsbD_extractLsb']
  by_cases h1 : i < 32
  · simp [h1]
  · simp [h1, show 32 + (i - 32) = i by omega, show i - 32 < 32 by omega]

@[simp] theorem takeLong_be64bytes (x : Long) (r : List Byte) : takeLong (be64bytes x ++ r) = .ok (x, r) := by
  simp only [takeLong, be64bytes, List.append_assoc, takeWord_be32bytes, bind, Except.bind, pure, Except.pure, long_extract]

@[simp] theorem takeBytes_append {n : Nat} (b : Bytes n) (r : List Byte) : takeBytes n (b.val ++ r) = .ok (b, r) := by
  obtain ⟨l, hl⟩ := b
  subst hl
  have h1 : (l ++ r).take l.length = l := by simp
  have h2 : (l ++ r).drop l.length = r := by simp
  simp only [takeBytes, h1, h2, dite_true]

@[simp] theorem takeHash_hashBytes (v : HashWords) (r : List Byte) : takeHash (hashBytes v ++ r) = .ok (v, r) := by
  simp only [takeHash, hashBytes, List.append_assoc, takeWord_be32bytes, bind, Except.bind, pure, Except.pure]

/-- Byte `i` of a tabulated string. -/
theorem tabulate_getElem {n i : Nat} (f : Nat → Byte) (h : i < (tabulate n f).val.length) : (tabulate n f).val[i] = f i := by
  simp [tabulate]

end Sys2Proof
end

