-- ==== Sys2Proof/Laws/State.lean ====
section
/-! SUPPORT. One lemma per field per update of State, each true by definition, so that no later proof unfolds a record
update: what a shared operation leaves alone, and what it writes. -/

namespace Sys2Proof.Machine

/-! A host read: only the host's record and the counter move. -/

@[simp] theorem hostRead_job (v : Word) (s : State) : (hostRead v s).job = s.job := rfl
@[simp] theorem hostRead_mem (v : Word) (s : State) : (hostRead v s).mem = s.mem := rfl
@[simp] theorem hostRead_found (v : Word) (s : State) : (hostRead v s).found = s.found := rfl
@[simp] theorem hostRead_phase (v : Word) (s : State) : (hostRead v s).phase = s.phase := rfl
@[simp] theorem hostRead_done (v : Word) (s : State) : (hostRead v s).done = s.done := rfl
@[simp] theorem hostRead_setup (v : Word) (s : State) : (hostRead v s).setup = s.setup := rfl
@[simp] theorem hostRead_workers (v : Word) (s : State) : (hostRead v s).workers = s.workers := rfl
@[simp] theorem hostRead_hostProg (v : Word) (s : State) : (hostRead v s).env.hostProg = s.env.hostProg := rfl
@[simp] theorem hostRead_hostRx (v : Word) (s : State) : (hostRead v s).env.hostRx = v :: s.env.hostRx := rfl
@[simp] theorem hostRead_sched (v : Word) (s : State) : (hostRead v s).env.sched = s.env.sched := rfl
@[simp] theorem hostRead_opOut (v : Word) (s : State) : (hostRead v s).env.opOut = s.env.opOut := rfl
@[simp] theorem hostRead_epoch (v : Word) (s : State) : (hostRead v s).env.epoch = s.env.epoch := rfl
@[simp] theorem hostRead_draws (v : Word) (s : State) : (hostRead v s).env.draws = s.env.draws + 1 := rfl

/-! The result of a pure operation. -/

@[simp] theorem putResult_job (r : OpResult) (s : State) : (putResult r s).job = s.job := rfl
@[simp] theorem putResult_mem (r : OpResult) (s : State) : (putResult r s).mem = s.mem := rfl
@[simp] theorem putResult_found (r : OpResult) (s : State) : (putResult r s).found = s.found := rfl
@[simp] theorem putResult_phase (r : OpResult) (s : State) : (putResult r s).phase = s.phase := rfl
@[simp] theorem putResult_done (r : OpResult) (s : State) : (putResult r s).done = s.done := rfl
@[simp] theorem putResult_setup (r : OpResult) (s : State) : (putResult r s).setup = s.setup := rfl
@[simp] theorem putResult_workers (r : OpResult) (s : State) : (putResult r s).workers = s.workers := rfl
@[simp] theorem putResult_hostProg (r : OpResult) (s : State) : (putResult r s).env.hostProg = s.env.hostProg := rfl
@[simp] theorem putResult_hostRx (r : OpResult) (s : State) : (putResult r s).env.hostRx = s.env.hostRx := rfl
@[simp] theorem putResult_sched (r : OpResult) (s : State) : (putResult r s).env.sched = s.env.sched := rfl
@[simp] theorem putResult_opOut (r : OpResult) (s : State) : (putResult r s).env.opOut = r := rfl
@[simp] theorem putResult_epoch (r : OpResult) (s : State) : (putResult r s).env.epoch = s.env.epoch := rfl
@[simp] theorem putResult_draws (r : OpResult) (s : State) : (putResult r s).env.draws = s.env.draws := rfl

/-! A line put back at the head of the host's program. -/

@[simp] theorem pushHost_job (it : HostItem) (s : State) : (pushHost it s).job = s.job := rfl
@[simp] theorem pushHost_mem (it : HostItem) (s : State) : (pushHost it s).mem = s.mem := rfl
@[simp] theorem pushHost_found (it : HostItem) (s : State) : (pushHost it s).found = s.found := rfl
@[simp] theorem pushHost_phase (it : HostItem) (s : State) : (pushHost it s).phase = s.phase := rfl
@[simp] theorem pushHost_done (it : HostItem) (s : State) : (pushHost it s).done = s.done := rfl
@[simp] theorem pushHost_setup (it : HostItem) (s : State) : (pushHost it s).setup = s.setup := rfl
@[simp] theorem pushHost_workers (it : HostItem) (s : State) : (pushHost it s).workers = s.workers := rfl
@[simp] theorem pushHost_hostProg (it : HostItem) (s : State) : (pushHost it s).env.hostProg = it :: s.env.hostProg := rfl
@[simp] theorem pushHost_hostRx (it : HostItem) (s : State) : (pushHost it s).env.hostRx = s.env.hostRx := rfl
@[simp] theorem pushHost_sched (it : HostItem) (s : State) : (pushHost it s).env.sched = s.env.sched := rfl
@[simp] theorem pushHost_opOut (it : HostItem) (s : State) : (pushHost it s).env.opOut = s.env.opOut := rfl
@[simp] theorem pushHost_epoch (it : HostItem) (s : State) : (pushHost it s).env.epoch = s.env.epoch := rfl
@[simp] theorem pushHost_draws (it : HostItem) (s : State) : (pushHost it s).env.draws = s.env.draws := rfl

/-! A job register stored. -/

@[simp] theorem setReg_mem (r : JobReg) (v : Word) (s : State) : (setReg r v s).mem = s.mem := by cases r <;> rfl
@[simp] theorem setReg_found (r : JobReg) (v : Word) (s : State) : (setReg r v s).found = s.found := by cases r <;> rfl
@[simp] theorem setReg_phase (r : JobReg) (v : Word) (s : State) : (setReg r v s).phase = s.phase := by cases r <;> rfl
@[simp] theorem setReg_done (r : JobReg) (v : Word) (s : State) : (setReg r v s).done = s.done := by cases r <;> rfl
@[simp] theorem setReg_setup (r : JobReg) (v : Word) (s : State) : (setReg r v s).setup = s.setup := by cases r <;> rfl
@[simp] theorem setReg_workers (r : JobReg) (v : Word) (s : State) : (setReg r v s).workers = s.workers := by cases r <;> rfl
@[simp] theorem setReg_env (r : JobReg) (v : Word) (s : State) : (setReg r v s).env = s.env := by cases r <;> rfl
@[simp] theorem readReg_setReg_same (r : JobReg) (v : Word) (s : State) : readReg r (setReg r v s) = v := by cases r <;> rfl
theorem readReg_setReg_ne {r q : JobReg} (v : Word) (s : State) (h : q ≠ r) : readReg q (setReg r v s) = readReg q s := by
  cases r <;> cases q <;> first | rfl | exact absurd rfl h

/-! Bytes written into a window. -/

@[simp] theorem writeBytes_job (s : State) (a : Nat) (bs : List Byte) : (writeBytes s a bs).job = s.job := rfl
@[simp] theorem writeBytes_mem (s : State) (a : Nat) (bs : List Byte) : (writeBytes s a bs).mem = Memory.setMany s.mem a bs := rfl
@[simp] theorem writeBytes_found (s : State) (a : Nat) (bs : List Byte) : (writeBytes s a bs).found = s.found := rfl
@[simp] theorem writeBytes_phase (s : State) (a : Nat) (bs : List Byte) : (writeBytes s a bs).phase = s.phase := rfl
@[simp] theorem writeBytes_done (s : State) (a : Nat) (bs : List Byte) : (writeBytes s a bs).done = s.done := rfl
@[simp] theorem writeBytes_setup (s : State) (a : Nat) (bs : List Byte) : (writeBytes s a bs).setup = s.setup := rfl
@[simp] theorem writeBytes_workers (s : State) (a : Nat) (bs : List Byte) : (writeBytes s a bs).workers = s.workers := rfl
@[simp] theorem writeBytes_env (s : State) (a : Nat) (bs : List Byte) : (writeBytes s a bs).env = s.env := rfl

/-! A worker written back. -/

@[simp] theorem setWorker_job (g : Word) (w : Worker) (s : State) : (setWorker g w s).job = s.job := rfl
@[simp] theorem setWorker_mem (g : Word) (w : Worker) (s : State) : (setWorker g w s).mem = s.mem := rfl
@[simp] theorem setWorker_found (g : Word) (w : Worker) (s : State) : (setWorker g w s).found = s.found := rfl
@[simp] theorem setWorker_phase (g : Word) (w : Worker) (s : State) : (setWorker g w s).phase = s.phase := rfl
@[simp] theorem setWorker_done (g : Word) (w : Worker) (s : State) : (setWorker g w s).done = s.done := rfl
@[simp] theorem setWorker_setup (g : Word) (w : Worker) (s : State) : (setWorker g w s).setup = s.setup := rfl
@[simp] theorem setWorker_workers (g : Word) (w : Worker) (s : State) : (setWorker g w s).workers = s.workers.set g.toNat w := rfl
@[simp] theorem setWorker_env (g : Word) (w : Worker) (s : State) : (setWorker g w s).env = s.env := rfl

/-! START from IDLE. -/

@[simp] theorem launch_job (s : State) : (launch s).job = s.job := rfl
@[simp] theorem launch_mem (s : State) : (launch s).mem = s.mem := rfl
@[simp] theorem launch_found (s : State) : (launch s).found = .unset := rfl
@[simp] theorem launch_phase (s : State) : (launch s).phase = .setup := rfl
@[simp] theorem launch_done (s : State) : (launch s).done = false := rfl
@[simp] theorem launch_setup (s : State) : (launch s).setup = s.setup := rfl
@[simp] theorem launch_workers (s : State) : (launch s).workers = (List.range s.job.numWorkers.toNat).map (freshWorker s.env.draws) := rfl
@[simp] theorem launch_hostProg (s : State) : (launch s).env.hostProg = s.env.hostProg := rfl
@[simp] theorem launch_hostRx (s : State) : (launch s).env.hostRx = s.env.hostRx := rfl
@[simp] theorem launch_sched (s : State) : (launch s).env.sched = s.env.sched := rfl
@[simp] theorem launch_opOut (s : State) : (launch s).env.opOut = s.env.opOut := rfl
@[simp] theorem launch_epoch (s : State) : (launch s).env.epoch = s.env.epoch := rfl
@[simp] theorem launch_draws (s : State) : (launch s).env.draws = s.env.draws + 1 := rfl

/-! The setup operations write the setup state only. -/

@[simp] theorem clampPrefix_job (s : State) : (clampPrefix s).job = s.job := rfl
@[simp] theorem clampPrefix_mem (s : State) : (clampPrefix s).mem = s.mem := rfl
@[simp] theorem clampPrefix_found (s : State) : (clampPrefix s).found = s.found := rfl
@[simp] theorem clampPrefix_phase (s : State) : (clampPrefix s).phase = s.phase := rfl
@[simp] theorem clampPrefix_done (s : State) : (clampPrefix s).done = s.done := rfl
@[simp] theorem clampPrefix_workers (s : State) : (clampPrefix s).workers = s.workers := rfl
@[simp] theorem clampPrefix_env (s : State) : (clampPrefix s).env = s.env := rfl
@[simp] theorem clampPrefix_plen (s : State) : (clampPrefix s).setup.plen = clampLen s.job.prefixLen := rfl
@[simp] theorem clampPrefix_midH (s : State) : (clampPrefix s).setup.midH = s.setup.midH := rfl
@[simp] theorem clampPrefix_tail (s : State) : (clampPrefix s).setup.tail = s.setup.tail := rfl
@[simp] theorem clampPrefix_tailLen (s : State) : (clampPrefix s).setup.tailLen = s.setup.tailLen := rfl
@[simp] theorem clampPrefix_bitlen (s : State) : (clampPrefix s).setup.bitlen = s.setup.bitlen := rfl
@[simp] theorem clampPrefix_tgt (s : State) : (clampPrefix s).setup.tgt = s.setup.tgt := rfl

@[simp] theorem absorbMidstate_job (s : State) : (absorbMidstate s).job = s.job := rfl
@[simp] theorem absorbMidstate_mem (s : State) : (absorbMidstate s).mem = s.mem := rfl
@[simp] theorem absorbMidstate_found (s : State) : (absorbMidstate s).found = s.found := rfl
@[simp] theorem absorbMidstate_phase (s : State) : (absorbMidstate s).phase = s.phase := rfl
@[simp] theorem absorbMidstate_done (s : State) : (absorbMidstate s).done = s.done := rfl
@[simp] theorem absorbMidstate_workers (s : State) : (absorbMidstate s).workers = s.workers := rfl
@[simp] theorem absorbMidstate_env (s : State) : (absorbMidstate s).env = s.env := rfl
@[simp] theorem absorbMidstate_plen (s : State) : (absorbMidstate s).setup.plen = s.setup.plen := rfl
@[simp] theorem absorbMidstate_midH (s : State) : (absorbMidstate s).setup.midH = absorb s s.setup.plen := rfl
@[simp] theorem absorbMidstate_tail (s : State) : (absorbMidstate s).setup.tail = s.setup.tail := rfl
@[simp] theorem absorbMidstate_tailLen (s : State) : (absorbMidstate s).setup.tailLen = s.setup.tailLen := rfl
@[simp] theorem absorbMidstate_bitlen (s : State) : (absorbMidstate s).setup.bitlen = s.setup.bitlen := rfl
@[simp] theorem absorbMidstate_tgt (s : State) : (absorbMidstate s).setup.tgt = s.setup.tgt := rfl

@[simp] theorem writeTail_job (s : State) : (writeTail s).job = s.job := rfl
@[simp] theorem writeTail_mem (s : State) : (writeTail s).mem = s.mem := rfl
@[simp] theorem writeTail_found (s : State) : (writeTail s).found = s.found := rfl
@[simp] theorem writeTail_phase (s : State) : (writeTail s).phase = s.phase := rfl
@[simp] theorem writeTail_done (s : State) : (writeTail s).done = s.done := rfl
@[simp] theorem writeTail_workers (s : State) : (writeTail s).workers = s.workers := rfl
@[simp] theorem writeTail_env (s : State) : (writeTail s).env = s.env := rfl
@[simp] theorem writeTail_plen (s : State) : (writeTail s).setup.plen = s.setup.plen := rfl
@[simp] theorem writeTail_midH (s : State) : (writeTail s).setup.midH = s.setup.midH := rfl
@[simp] theorem writeTail_tail (s : State) : (writeTail s).setup.tail = captureTail s s.setup.plen := rfl
@[simp] theorem writeTail_tailLen (s : State) : (writeTail s).setup.tailLen = tailLenOf s.setup.plen := rfl
@[simp] theorem writeTail_bitlen (s : State) : (writeTail s).setup.bitlen = s.setup.bitlen := rfl
@[simp] theorem writeTail_tgt (s : State) : (writeTail s).setup.tgt = s.setup.tgt := rfl

@[simp] theorem writeBitlen_job (s : State) : (writeBitlen s).job = s.job := rfl
@[simp] theorem writeBitlen_mem (s : State) : (writeBitlen s).mem = s.mem := rfl
@[simp] theorem writeBitlen_found (s : State) : (writeBitlen s).found = s.found := rfl
@[simp] theorem writeBitlen_phase (s : State) : (writeBitlen s).phase = s.phase := rfl
@[simp] theorem writeBitlen_done (s : State) : (writeBitlen s).done = s.done := rfl
@[simp] theorem writeBitlen_workers (s : State) : (writeBitlen s).workers = s.workers := rfl
@[simp] theorem writeBitlen_env (s : State) : (writeBitlen s).env = s.env := rfl
@[simp] theorem writeBitlen_plen (s : State) : (writeBitlen s).setup.plen = s.setup.plen := rfl
@[simp] theorem writeBitlen_midH (s : State) : (writeBitlen s).setup.midH = s.setup.midH := rfl
@[simp] theorem writeBitlen_tail (s : State) : (writeBitlen s).setup.tail = s.setup.tail := rfl
@[simp] theorem writeBitlen_tailLen (s : State) : (writeBitlen s).setup.tailLen = s.setup.tailLen := rfl
@[simp] theorem writeBitlen_bitlen (s : State) : (writeBitlen s).setup.bitlen = bitlenOf s.setup.plen := rfl
@[simp] theorem writeBitlen_tgt (s : State) : (writeBitlen s).setup.tgt = s.setup.tgt := rfl

@[simp] theorem targetDecode_job (s : State) : (targetDecode s).job = s.job := rfl
@[simp] theorem targetDecode_mem (s : State) : (targetDecode s).mem = s.mem := rfl
@[simp] theorem targetDecode_found (s : State) : (targetDecode s).found = s.found := rfl
@[simp] theorem targetDecode_phase (s : State) : (targetDecode s).phase = s.phase := rfl
@[simp] theorem targetDecode_done (s : State) : (targetDecode s).done = s.done := rfl
@[simp] theorem targetDecode_workers (s : State) : (targetDecode s).workers = s.workers := rfl
@[simp] theorem targetDecode_env (s : State) : (targetDecode s).env = s.env := rfl
@[simp] theorem targetDecode_plen (s : State) : (targetDecode s).setup.plen = s.setup.plen := rfl
@[simp] theorem targetDecode_midH (s : State) : (targetDecode s).setup.midH = s.setup.midH := rfl
@[simp] theorem targetDecode_tail (s : State) : (targetDecode s).setup.tail = s.setup.tail := rfl
@[simp] theorem targetDecode_tailLen (s : State) : (targetDecode s).setup.tailLen = s.setup.tailLen := rfl
@[simp] theorem targetDecode_bitlen (s : State) : (targetDecode s).setup.bitlen = s.setup.bitlen := rfl
@[simp] theorem targetDecode_tgt (s : State) : (targetDecode s).setup.tgt = decodeTarget s := rfl

/-! Reset. -/

@[simp] theorem resetBlock_job (s : State) : (resetBlock s).job = Job.reset := rfl
@[simp] theorem resetBlock_mem (s : State) : (resetBlock s).mem = [] := rfl
@[simp] theorem resetBlock_found (s : State) : (resetBlock s).found = .unset := rfl
@[simp] theorem resetBlock_phase (s : State) : (resetBlock s).phase = .idle := rfl
@[simp] theorem resetBlock_done (s : State) : (resetBlock s).done = false := rfl
@[simp] theorem resetBlock_setup (s : State) : (resetBlock s).setup = Setup.reset := rfl
@[simp] theorem resetBlock_workers (s : State) : (resetBlock s).workers = [] := rfl
@[simp] theorem resetBlock_hostProg (s : State) : (resetBlock s).env.hostProg = s.env.hostProg := rfl
@[simp] theorem resetBlock_hostRx (s : State) : (resetBlock s).env.hostRx = s.env.hostRx := rfl
@[simp] theorem resetBlock_sched (s : State) : (resetBlock s).env.sched = s.env.sched := rfl
@[simp] theorem resetBlock_opOut (s : State) : (resetBlock s).env.opOut = .none := rfl
@[simp] theorem resetBlock_epoch (s : State) : (resetBlock s).env.epoch = s.env.epoch + 1 := rfl
@[simp] theorem resetBlock_draws (s : State) : (resetBlock s).env.draws = s.env.draws := rfl

end Sys2Proof.Machine
end

