-- ==== Sys2Proof/Laws/Memory.lean ====
section
/-! SUPPORT. The buffers: a byte read back is the byte last written there, a write leaves every other byte alone, and
every memory operation keeps the canonical form. -/

namespace Sys2Proof.Machine

@[simp] theorem Memory.get?_set_same (m : List Host.Cell) (a : Nat) (b : Byte) :
    Memory.get? (Memory.set m a b) a = some b := by
  induction m with
  | nil => simp [Memory.set, Memory.get?]
  | cons c m ih =>
    obtain ⟨k, v⟩ := c
    simp only [Memory.set]
    split
    · simp [Memory.get?]
    · split
      · simp [Memory.get?]
      · simp only [Memory.get?]
        rw [if_neg (by omega)]
        exact ih

theorem Memory.get?_set_ne {a x : Nat} (m : List Host.Cell) (b : Byte) (h : x ≠ a) :
    Memory.get? (Memory.set m a b) x = Memory.get? m x := by
  induction m with
  | nil => simp [Memory.set, Memory.get?, Ne.symm h]
  | cons c m ih =>
    obtain ⟨k, v⟩ := c
    simp only [Memory.set]
    split
    · simp [Memory.get?, Ne.symm h]
    · split
      · next h2 => subst h2; simp [Memory.get?, Ne.symm h]
      · simp only [Memory.get?, ih]

/-- What a write of a byte string does to every byte. -/
theorem Memory.get?_setMany (bs : List Byte) (m : List Host.Cell) (a x : Nat) :
    Memory.get? (Memory.setMany m a bs) x =
      if h : a ≤ x ∧ x < a + bs.length then some (bs[x - a]'(by omega)) else Memory.get? m x := by
  induction bs generalizing m a with
  | nil => simp only [Memory.setMany, List.length_nil, Nat.add_zero]; rw [dif_neg (by omega)]
  | cons b bs ih =>
    simp only [Memory.setMany, ih, List.length_cons]
    by_cases hx : x = a
    · subst hx
      rw [dif_neg (by omega), dif_pos (by omega)]
      simp
    · by_cases h : a + 1 ≤ x ∧ x < a + 1 + bs.length
      · rw [dif_pos h, dif_pos (by omega)]
        have : x - a = (x - (a + 1)) + 1 := by omega
        simp [this]
      · rw [dif_neg h, dif_neg (by omega), Memory.get?_set_ne _ _ hx]

theorem inWindow_iff (a : Nat) :
    inWindow a = true ↔ 0x100 ≤ a ∧ a < 0x140 ∨ 0x200 ≤ a ∧ a < 0x260 ∨ 0x2000 ≤ a ∧ a < 0x4000 := by
  simp [inWindow, or_assoc]

theorem Memory.rising_cons_set {k a : Nat} {v b : Byte} {m : List Host.Cell} (h : k < a)
    (hm : Memory.rising ((k, v) :: m) = true) (ih : Memory.rising (Memory.set m a b) = true) :
    Memory.rising ((k, v) :: Memory.set m a b) = true := by
  cases m with
  | nil => simp [Memory.set, Memory.rising, h]
  | cons c m =>
    obtain ⟨k', v'⟩ := c
    simp only [Memory.rising, Bool.and_eq_true, decide_eq_true_eq] at hm
    have split_cons : ∀ (x : Nat) (y : Byte) (l : List Host.Cell), k < x → Memory.rising ((x, y) :: l) = true →
        Memory.rising ((k, v) :: (x, y) :: l) = true := by
      intro x y l hx hl
      simp only [Memory.rising, Bool.and_eq_true, decide_eq_true_eq]
      exact ⟨hx, hl⟩
    by_cases h1 : a < k'
    · simp only [Memory.set, if_pos h1] at ih ⊢
      exact split_cons _ _ _ h ih
    · by_cases h2 : a = k'
      · simp only [Memory.set, if_neg h1, if_pos h2] at ih ⊢
        exact split_cons _ _ _ h ih
      · simp only [Memory.set, if_neg h1, if_neg h2] at ih ⊢
        exact split_cons _ _ _ hm.1 ih

theorem Memory.rising_set (m : List Host.Cell) (a : Nat) (b : Byte) (h : Memory.rising m = true) :
    Memory.rising (Memory.set m a b) = true := by
  induction m with
  | nil => rfl
  | cons c m ih =>
    obtain ⟨k, v⟩ := c
    have hm : Memory.rising m = true := by
      cases m with
      | nil => rfl
      | cons c m => obtain ⟨k', v'⟩ := c; simp only [Memory.rising, Bool.and_eq_true] at h; exact h.2
    simp only [Memory.set]
    split
    · next h1 => simp only [Memory.rising, Bool.and_eq_true, decide_eq_true_eq]; exact ⟨h1, h⟩
    · split
      · next h1 h2 =>
        subst h2
        cases m with
        | nil => rfl
        | cons c m => obtain ⟨k', v'⟩ := c; simpa [Memory.rising] using h
      · next h1 h2 => exact Memory.rising_cons_set (by omega) h (ih hm)

theorem Memory.all_set (m : List Host.Cell) (a : Nat) (b : Byte) (h : (m.all fun c => inWindow c.1) = true)
    (ha : inWindow a = true) : ((Memory.set m a b).all fun c => inWindow c.1) = true := by
  induction m with
  | nil => simpa [Memory.set] using ha
  | cons c m ih =>
    obtain ⟨k, v⟩ := c
    simp only [List.all_cons, Bool.and_eq_true] at h
    simp only [Memory.set]
    split
    · simp [ha, h.1, h.2]
    · split
      · simp [ha, h.2]
      · simp [h.1, ih h.2]

/-- One byte written inside a window keeps the canonical form. -/
theorem Memory.wf_set {m : List Host.Cell} {a : Nat} (b : Byte) (h : Memory.wf m = true) (ha : inWindow a = true) :
    Memory.wf (Memory.set m a b) = true := by
  simp only [Memory.wf, Bool.and_eq_true] at h ⊢
  exact ⟨Memory.rising_set m a b h.1, Memory.all_set m a b h.2 ha⟩

/-- A byte string written inside the windows keeps the canonical form. -/
theorem Memory.wf_setMany (bs : List Byte) {m : List Host.Cell} {a : Nat} (h : Memory.wf m = true)
    (ha : ∀ i, i < bs.length → inWindow (a + i) = true) : Memory.wf (Memory.setMany m a bs) = true := by
  induction bs generalizing m a with
  | nil => exact h
  | cons b bs ih =>
    refine ih (Memory.wf_set b h (by simpa using ha 0 (by simp))) fun i hi => ?_
    have := ha (i + 1) (by simpa using hi)
    rwa [show a + 1 + i = a + (i + 1) by omega]

/-- Reset's memory has the canonical form. -/
theorem Memory.wf_reset : Memory.wf State.reset.mem = true := rfl

/-- What a write of a byte string does to every byte of the buffers. -/
theorem bufByte_writeBytes (s : State) (a x : Nat) (bs : List Byte) :
    bufByte (writeBytes s a bs) x =
      if h : a ≤ x ∧ x < a + bs.length then bs[x - a]'(by omega) else bufByte s x := by
  simp only [bufByte, writeBytes_mem, writeBytes_env, Memory.get?_setMany]
  split <;> rfl

theorem bufByte_writeBytes_outside (s : State) (a x : Nat) (bs : List Byte) (h : x < a ∨ a + bs.length ≤ x) :
    bufByte (writeBytes s a bs) x = bufByte s x := by
  rw [bufByte_writeBytes, dif_neg (by omega)]

/-- A byte of the buffers depends on the memory and on the epoch only. -/
theorem bufByte_congr {s t : State} (hm : t.mem = s.mem) (he : t.env.epoch = s.env.epoch) (a : Nat) :
    bufByte t a = bufByte s a := by
  simp only [bufByte, hm, he]

end Sys2Proof.Machine
end

