-- ==== Sys2Proof/Laws/Ops.lean ====
section
/-! SUPPORT. One lemma for each shared operation, saying everything it can do; proofs cite these instead of unfolding. -/

namespace Sys2Proof.Machine

theorem busy_eq_false {s : State} : busy s = false ↔ s.phase = .idle := by
  cases h : s.phase <;> simp [busy, h]

theorem busy_eq_true {s : State} : busy s = true ↔ s.phase ≠ .idle := by
  cases h : s.phase <;> simp [busy, h]

/-- A job write stores while IDLE, and changes nothing otherwise (10_state.md rule R31). -/
theorem jobWrite_cases (f : State → State) (s : State) :
    (s.phase = .idle ∧ jobWrite f s = f s) ∨ (s.phase ≠ .idle ∧ jobWrite f s = s) := by
  by_cases h : s.phase = .idle
  · exact .inl ⟨h, by simp [jobWrite, busy_eq_false.2 h]⟩
  · exact .inr ⟨h, by simp [jobWrite, busy_eq_true.2 h]⟩

theorem jobWrite_idle {s : State} (f : State → State) (h : s.phase = .idle) : jobWrite f s = f s := by
  simp [jobWrite, busy_eq_false.2 h]

theorem jobWrite_busy {s : State} (f : State → State) (h : s.phase ≠ .idle) : jobWrite f s = s := by
  simp [jobWrite, busy_eq_true.2 h]

/-- A command write launches, from IDLE and for START only, or changes nothing (45_launch_control.md rule R230). -/
theorem commandWrite_cases (v : Word) (s : State) :
    (v = 1 ∧ s.phase = .idle ∧ commandWrite v s = launch s) ∨
    ((v ≠ 1 ∨ s.phase ≠ .idle) ∧ commandWrite v s = s) := by
  by_cases h1 : v = 1
  · subst h1
    by_cases h : s.phase = .idle
    · exact .inl ⟨rfl, h, by simp [commandWrite, decodeCommand, startCommand, busy_eq_false.2 h]⟩
    · exact .inr ⟨.inr h, by simp [commandWrite, decodeCommand, startCommand, busy_eq_true.2 h]⟩
  · refine .inr ⟨.inl h1, ?_⟩
    unfold commandWrite decodeCommand
    by_cases h0 : v = 0x00000000
    · rw [if_pos h0]
    · rw [if_neg h0, if_neg h1]

theorem commandWrite_busy {s : State} (v : Word) (h : s.phase ≠ .idle) : commandWrite v s = s := by
  rcases commandWrite_cases v s with ⟨-, h', -⟩ | ⟨-, e⟩
  · exact absurd h' h
  · exact e

/-- `BusWrite` does one of four things (20_memory.md rule R62). -/
theorem busWrite_cases (off : BitVec 14) (v : Word) (s : State) :
    busWrite off v s = s ∨ busWrite off v s = commandWrite v s ∨ (∃ r, busWrite off v s = writeReg r v s) ∨
    ∃ a, (0x100 ≤ a ∧ a < 0x140 ∨ 0x2000 ≤ a) ∧ a = alignedOff off ∧ busWrite off v s = writeWindow a v s := by
  unfold busWrite
  simp only []
  split
  · exact .inr (.inl rfl)
  · split
    · next r _ => exact .inr (.inr (.inl ⟨r, rfl⟩))
    · split
      · next h => exact .inr (.inr (.inr ⟨_, h, rfl, rfl⟩))
      · exact .inl rfl

/-- No bus write changes anything during a launch (10_state.md rule R31, 45_launch_control.md rule R232). -/
theorem busWrite_busy {s : State} (off : BitVec 14) (v : Word) (h : s.phase ≠ .idle) : busWrite off v s = s := by
  rcases busWrite_cases off v s with e | e | ⟨r, e⟩ | ⟨a, -, -, e⟩ <;> rw [e]
  · exact commandWrite_busy v h
  · exact jobWrite_busy _ h
  · exact jobWrite_busy _ h

/-- An aligned offset is a multiple of 4 below 0x4000. -/
theorem alignedOff_spec (off : BitVec 14) : alignedOff off % 4 = 0 ∧ alignedOff off < 0x4000 ∧
    alignedOff off = off.toNat / 4 * 4 := by
  have key : alignedOff off = off.toNat / 4 * 4 := by
    have h : off &&& (0x3FFC : BitVec 14) = (off >>> 2) <<< 2 := by
      apply BitVec.eq_of_getLsbD_eq
      intro i hi
      have : i < 14 := hi
      interval_cases i <;> simp
    have hlt := off.isLt
    unfold alignedOff
    rw [h, BitVec.toNat_shiftLeft, BitVec.toNat_ushiftRight, Nat.shiftRight_eq_div_pow, Nat.shiftLeft_eq]
    omega
  have := off.isLt
  omega

/-- A worker's step acts on a worker that exists and is in the step's phase, and otherwise changes nothing. -/
theorem workerStep_cases (g : Word) (p : WPhase) (f : Worker → State) (s : State) :
    (∃ w, worker? s g = some w ∧ w.phase = p ∧ workerStep g p f s = f w) ∨
    ((∀ w, worker? s g = some w → w.phase ≠ p) ∧ workerStep g p f s = s) := by
  unfold workerStep
  cases h : worker? s g with
  | none => exact .inr ⟨by simp, rfl⟩
  | some w =>
    by_cases hp : w.phase = p
    · exact .inl ⟨w, rfl, hp, by simp [hp]⟩
    · exact .inr ⟨by simpa using hp, by simp [hp]⟩

theorem workerStep_enabled {g : Word} {p : WPhase} {s : State} {w : Worker} (f : Worker → State)
    (hw : worker? s g = some w) (hp : w.phase = p) : workerStep g p f s = f w := by
  simp [workerStep, hw, hp]

theorem worker?_setWorker_same {s : State} {g : Word} {w : Worker} (w' : Worker) (h : worker? s g = some w) :
    worker? (setWorker g w' s) g = some w' := by
  have hlt : g.toNat < s.workers.length := by
    simp only [worker?] at h
    exact (List.getElem?_eq_some_iff.1 h).1
  simp [worker?, hlt]

theorem worker?_setWorker_ne {g g' : Word} (w' : Worker) (s : State) (h : g' ≠ g) :
    worker? (setWorker g w' s) g' = worker? s g' := by
  have : g.toNat ≠ g'.toNat := fun e => h (BitVec.eq_of_toNat_eq e.symm)
  simp [worker?, List.getElem?_set_ne this]

/-- WORKER[g] of a launch just started (45_launch_control.md rule R231). -/
theorem worker?_launch (s : State) (g : Word) :
    worker? (launch s) g = if g.toNat < s.job.numWorkers.toNat then some (freshWorker s.env.draws g.toNat) else none := by
  simp only [worker?, launch_workers, List.getElem?_map]
  split
  · next h => simp [List.getElem?_range h]
  · next h => simp [List.getElem?_eq_none (by simpa using h : (List.range s.job.numWorkers.toNat).length ≤ g.toNat)]

/-- Everything one step can do: run an operation, hold, or reset. -/
theorem step_cases {s t : State} (h : step s = .next t) :
    (∃ i u, fetch s = .run i u ∧ i.wf = true ∧ exec i u = .next t) ∨ fetch s = .hold t ∨
    ∃ u, fetch s = .reset u ∧ t = resetBlock u := by
  unfold step at h
  split at h
  · next i u hf =>
    split at h
    · next hw => exact .inl ⟨i, u, hf, hw, h⟩
    · cases h
  · next u hf => cases h; exact .inr (.inl hf)
  · next u hf => cases h; exact .inr (.inr ⟨u, hf, rfl⟩)
  · cases h

/-- What an agent does when it is its turn, agent by agent. -/
theorem fetchMover_cases (m : Mover) (s : State) :
    (∃ it rest, m = .host ∧ s.env.hostProg = it :: rest ∧
      fetchMover m s = .run it.instr { s with env.hostProg := rest }) ∨
    (∃ i, m = .setup ∧ setupInstr s.phase = some i ∧ fetchMover m s = .run i s) ∨
    (∃ g w i, m = .worker g ∧ worker? s g = some w ∧ workerInstr g w.phase = some i ∧ fetchMover m s = .run i s) ∨
    (m = .reset ∧ fetchMover m s = .reset s) ∨ fetchMover m s = .hold s := by
  cases m with
  | host =>
    cases h : s.env.hostProg with
    | nil => simp [fetchMover, h]
    | cons it rest => exact .inl ⟨it, rest, rfl, rfl, by simp [fetchMover, h]⟩
  | setup =>
    cases h : setupInstr s.phase with
    | none => simp [fetchMover, h]
    | some i => exact .inr (.inl ⟨i, rfl, rfl, by simp [fetchMover, h]⟩)
  | worker g =>
    cases hw : worker? s g with
    | none => simp [fetchMover, hw]
    | some w =>
      cases h : workerInstr g w.phase with
      | none => simp [fetchMover, hw, h]
      | some i => exact .inr (.inr (.inl ⟨g, w, i, rfl, hw, h, by simp [fetchMover, hw, h]⟩))
  | reset => simp [fetchMover]

/-- "64 words per block", so there are 64 round constants (40_hash_primitive.md rule R121). -/
@[simp] theorem roundConstants_length : roundConstants.length = 64 := rfl

end Sys2Proof.Machine
end

