-- ==== Sys2Proof/Laws/Launch.lean ====
section
/-! SUPPORT. What the terms of the claims depend on: the setup state, a candidate's digest and its match read the job
registers and the two job buffers only, and the result windows are read by nothing in the block; and the parts of the
launch invariant. -/

namespace Sys2Proof.Machine

/-- Two states hold the same job: the same job registers, and the same bytes outside the result windows. -/
structure SameJob (s t : State) : Prop where
  job : t.job = s.job
  bytes : ∀ a, a < 0x200 ∨ 0x260 ≤ a → bufByte t a = bufByte s a

theorem SameJob.refl (s : State) : SameJob s s := ⟨rfl, fun _ _ => rfl⟩

theorem SameJob.trans {s t u : State} (h : SameJob s t) (k : SameJob t u) : SameJob s u :=
  ⟨k.job.trans h.job, fun a ha => (k.bytes a ha).trans (h.bytes a ha)⟩

/-- The job is the same where the memory is. -/
theorem SameJob.of_mem {s t : State} (hj : t.job = s.job) (hm : t.mem = s.mem) (he : t.env.epoch = s.env.epoch) :
    SameJob s t := ⟨hj, fun a _ => bufByte_congr hm he a⟩

theorem prefixByte_congr {s t : State} (h : SameJob s t) : prefixByte t = prefixByte s := by
  funext i
  exact h.bytes _ (.inr (by simp only [prefixBase]; omega))

theorem targetChar_congr {s t : State} (h : SameJob s t) {i : Nat} (hi : i < 64) : targetChar t i = targetChar s i :=
  h.bytes _ (.inl (by simp only [targetHexBase]; omega))

theorem decodeTarget_congr {s t : State} (h : SameJob s t) : decodeTarget t = decodeTarget s := by
  apply Subtype.ext
  simp only [decodeTarget, tabulate]
  apply List.map_congr_left
  intro k hk
  have := List.mem_range.1 hk
  rw [targetChar_congr h (by omega), targetChar_congr h (by omega)]

theorem prefixBytes_congr {s t : State} (h : SameJob s t) (n : Nat) : prefixBytes t n = prefixBytes s n := by
  simp only [prefixBytes, prefixByte_congr h]

/-- The setup state is a function of the job. -/
theorem setupOf_congr {s t : State} (h : SameJob s t) : setupOf t = setupOf s := by
  simp only [setupOf, absorb, prefixBlock, captureTail, prefixByte_congr h, h.job, decodeTarget_congr h]

theorem candidateDigest_congr {s t : State} (h : SameJob s t) (g it : Word) :
    candidateDigest t g it = candidateDigest s g it := by
  simp only [candidateDigest, setupOf_congr h, h.job]

theorem candidateMatches_congr {s t : State} (h : SameJob s t) (g it : Word) :
    candidateMatches t g it = candidateMatches s g it := by
  simp only [candidateMatches, candidateDigest_congr h, decodeTarget_congr h]

theorem firstMatch_congr {s t : State} (h : SameJob s t) (g it : Word) : FirstMatch t g it ↔ FirstMatch s g it := by
  simp only [FirstMatch, h.job, candidateMatches_congr h]

/-- The result windows hold the same bytes. -/
theorem resultHolds_congr {s t : State} (h : SameJob s t) (hr : ∀ a, bufByte t a = bufByte s a) (g it : Word) :
    ResultHolds t g it ↔ ResultHolds s g it := by
  simp only [ResultHolds, resultNonce, resultDigest, hr, h.job, candidateDigest_congr h]

/-- What WRITE_RESULT stores is what the result windows then hold, and the job is untouched. -/
theorem results_written (s : State) (hex : Bytes 64) (dig : Bytes 32) :
    let t := writeBytes (writeBytes s resultNonceBase hex.val) resultDigestBase dig.val
    resultNonce t = hex.val ∧ resultDigest t = dig.val ∧ SameJob s t := by
  obtain ⟨hex, hh⟩ := hex
  obtain ⟨dig, hd⟩ := dig
  refine ⟨?_, ?_, rfl, fun a ha => ?_⟩
  · apply List.ext_getElem (by simp [resultNonce, hh])
    intro i h1 h2
    have hi : i < 64 := h2.trans_eq hh
    simp only [resultNonce, resultNonceBase, resultDigestBase, List.getElem_map, List.getElem_range]
    rw [bufByte_writeBytes_outside _ _ _ _ (.inl (by omega)), bufByte_writeBytes, dif_pos (by omega)]
    simp
  · apply List.ext_getElem (by simp [resultDigest, hd])
    intro i h1 h2
    have hi : i < 32 := h2.trans_eq hd
    simp only [resultDigest, resultDigestBase, List.getElem_map, List.getElem_range]
    rw [bufByte_writeBytes, dif_pos (by omega)]
    simp
  · simp only [resultNonceBase, resultDigestBase]
    rw [bufByte_writeBytes_outside _ _ _ _ (by omega), bufByte_writeBytes_outside _ _ _ _ (by omega)]

/-- SETUP computes the setup state of the job, whatever it was before. -/
theorem setupCompute_eq (s : State) : setupCompute s = { s with setup := setupOf s } := rfl

/-- What is true of a worker carries over to a state with the same job, bytes and found-flag. -/
theorem workerOk_congr {s t : State} {g : Word} {w : Worker} (h : SameJob s t) (hb : ∀ a, bufByte t a = bufByte s a)
    (hf : t.found = s.found) (k : WorkerOk s g w) : WorkerOk t g w where
  it_le := by rw [h.job]; exact k.it_le
  wait_it := k.wait_it
  eval_it := by rw [h.job]; exact k.eval_it
  latches hp := by
    have := k.latches hp
    rw [h.job, candidateDigest_congr h, firstMatch_congr h]; exact this
  written hp := (resultHolds_congr h hb g w.it).2 (k.written hp)
  earlier := by
    rcases k.earlier with e | e
    · exact .inl fun i hi => by rw [candidateMatches_congr h]; exact e i hi
    · exact .inr (by rw [hf]; exact e)
  exited hp := by rw [h.job, hf]; exact k.exited hp

/-- The invariant carries over to a state that differs in the model's own part only, or in the setup state outside SEARCH. -/
theorem inv_congr {s t : State} (h : LaunchInv s) (hj : t.job = s.job) (hm : t.mem = s.mem) (he : t.env.epoch = s.env.epoch)
    (hf : t.found = s.found) (hp : t.phase = s.phase) (hd : t.done = s.done) (hw : t.workers = s.workers)
    (hu : s.phase = .search → t.setup = s.setup) : LaunchInv t := by
  have hS : SameJob s t := SameJob.of_mem hj hm he
  have hb : ∀ a, bufByte t a = bufByte s a := bufByte_congr hm he
  constructor
  · rw [hm]; exact h.memory
  · rw [hp, hw]; exact h.idle_pool
  · rw [hp, hw, hj]; exact h.pool
  · rw [hp, hd]; exact h.not_done
  · rw [hp, hw, hf]; exact h.barrier
  · intro h1; rw [hp] at h1; rw [hu h1, setupOf_congr hS]; exact h.setup_state h1
  · rw [hw, hf]; exact h.claim
  · intro h1 g w hg
    rw [hp] at h1
    exact workerOk_congr hS hb hf (h.workers h1 g w (by simpa [worker?, hw] using hg))
  · intro h1 h2
    rw [hp] at h1; rw [hf] at h2
    obtain ⟨g, it, a, b, c⟩ := h.winner h1 h2
    exact ⟨g, it, by rw [hj]; exact a, (firstMatch_congr hS g it).2 b, (resultHolds_congr hS hb g it).2 c⟩

/-- Outside a launch the invariant is the canonical memory, no worker, and no claim. -/
theorem inv_idle {s : State} (hp : s.phase = .idle) (hw : s.workers = []) (hf : s.found ≠ .claimed)
    (hm : Memory.wf s.mem = true) : LaunchInv s := by
  constructor <;> simp_all

theorem LaunchInv.found_idle {s : State} (h : LaunchInv s) (hp : s.phase = .idle) : s.found ≠ .claimed := by
  intro hf
  have := h.claim
  rw [h.idle_pool hp, hf] at this
  simp at this

theorem worker?_lt {s : State} {g : Word} {w : Worker} (h : worker? s g = some w) : g.toNat < s.workers.length := by
  simp only [worker?] at h; exact (List.getElem?_eq_some_iff.1 h).1

theorem countP_set_add {α} (p : α → Bool) (l : List α) (i : Nat) (a b : α) (h : l[i]? = some b) :
    (l.set i a).countP p + (if p b then 1 else 0) = l.countP p + (if p a then 1 else 0) := by
  induction l generalizing i with
  | nil => simp at h
  | cons x l ih =>
    cases i with
    | zero => simp at h; subst h; simp [List.countP_cons]; omega
    | succ i =>
      have := ih i (by simpa using h)
      simp only [List.set_cons_succ, List.countP_cons]; omega

/-- BUDGET is below 2^31 (45_launch_control.md rule R236). -/
theorem budget_lt (j : Job) : budget j < 2 ^ 31 := by
  unfold budget
  split
  · next h =>
    rw [BitVec.toInt_eq_toNat_cond] at h
    split at h <;> omega
  · decide

theorem it_succ {w : Worker} {b : Nat} (h : w.it.toNat < b) (hb : b < 2 ^ 31) : (w.it + 1).toNat = w.it.toNat + 1 := by
  rw [BitVec.toNat_add]
  have : (1 : Word).toNat = 1 := rfl
  rw [this]
  omega

section
variable {s : State} {g : Word} {w : Worker}

/-- A worker past the barrier exists in SEARCH only. -/
theorem search_of_worker (h : LaunchInv s) (hw : worker? s g = some w) (hne : w.phase ≠ .wait) : s.phase = .search := by
  have hmem : w ∈ s.workers := List.mem_of_getElem? hw
  cases hp : s.phase with
  | idle => rw [h.idle_pool hp] at hmem; cases hmem
  | setup => exact absurd ((h.barrier hp).2 w hmem).1 hne
  | search => rfl

/-- Only one worker holds the claim. -/
theorem others_not_claim (h : LaunchInv s) (hw : worker? s g = some w) (hc : holdsClaim w = true) {g' : Word} {v : Worker}
    (hg : g' ≠ g) (hv : worker? s g' = some v) : holdsClaim v = false := by
  by_contra hcv
  have hcv : holdsClaim v = true := by simpa using hcv
  let wn : Worker := ⟨.exited, 0, w.candHex, w.candDig⟩
  have hn : holdsClaim wn = false := rfl
  have h1 := countP_set_add holdsClaim s.workers g.toNat wn w hw
  have hv' : (s.workers.set g.toNat wn)[g'.toNat]? = some v := by
    rw [List.getElem?_set_ne (fun e => hg (BitVec.eq_of_toNat_eq e.symm))]; exact hv
  have h2 : 0 < (s.workers.set g.toNat wn).countP holdsClaim :=
    List.countP_pos_iff.2 ⟨v, List.mem_of_getElem? hv', hcv⟩
  have h3 := h.claim
  rw [hc, hn] at h1
  simp only [if_true] at h1
  split at h3 <;> simp at h1 <;> omega

/-- A worker that holds the claim has set FOUND to 1. -/
theorem claimed_of_holds (h : LaunchInv s) (hw : worker? s g = some w) (hc : holdsClaim w = true) : s.found = .claimed := by
  have h2 : 0 < s.workers.countP holdsClaim := List.countP_pos_iff.2 ⟨w, List.mem_of_getElem? hw, hc⟩
  have h3 := h.claim
  by_contra hne
  rw [if_neg hne] at h3
  omega

end

end Sys2Proof.Machine
end

