-- ==== Sys2Proof/Laws/PerInstr.lean ====
section
/-! SUPPORT. A law of every operation as syntax: its words lie in the encoding space that the "format" column of
spec/opcode_table.json gives its row (30_encoding.md rule R90); a pseudo-operation's are bus transactions. -/

namespace Sys2Proof.Laws.SpaceOfTable

/-- The "format" column of the table. -/
inductive Format where
  | bus
  | command
  | internal
  | pseudo
  deriving DecidableEq, Repr

/-- The format of an operation's row. -/
def format : Instr → Format
  | .rdCmd | .wrCmd _ | .rdStatus | .wrStatus _ | .rdFound | .wrFound _ | .rdPrefixLen | .wrPrefixLen _
  | .rdStartNonceLo | .wrStartNonceLo _ | .rdStartNonceHi | .wrStartNonceHi _ | .rdNonceOffset
  | .wrNonceOffset _ | .rdNonceStride | .wrNonceStride _ | .rdItersPerWorker | .wrItersPerWorker _ | .rdMode
  | .wrMode _ | .rdNumWorkers | .wrNumWorkers _ | .rdTargetHex _ | .wrTargetHex _ _ | .rdResultNonce _
  | .wrResultNonce _ _ | .rdResultDigest _ | .wrResultDigest _ _ | .rdPrefix _ | .wrPrefix _ _ | .unmapped _ _ => .bus
  | .nop | .start | .reservedCommand _ => .command
  | .compress _ _ | .prefixClamp | .midstateAbsorb | .tailCapture | .bitlenCompute | .setup | .nonceDerive _ _
  | .nonceBytes _ _ | .nonceHex _ | .finalBlocks _ | .finalize _ _ _ | .hexNibble _ | .targetDecode
  | .compare _ | .poll _ | .claim _ | .writeResult _ | .publish _ | .wait _ | .eval _ | .complete => .internal
  | .wr64 _ _ | .wrbuf _ _ | .rdbuf _ _ | .waitdone => .pseudo

/-- The space of an encoded word is the one of a format. -/
def fits : Format → Encoded → Bool
  | .bus, .bus _ _ | .pseudo, .bus _ _ | .command, .command _ | .internal, .internal _ _ => true
  | _, _ => false

/-- Every word of an operation lies in its format's space. -/
def Statement (i : Instr) : Prop := ∀ e ∈ encode i, fits (format i) e = true

theorem expandWrbuf_fits (base : BitVec 14) (bs : List Byte) : ∀ e ∈ expandWrbuf base bs, fits .pseudo e = true := by
  induction base, bs using expandWrbuf.induct with
  | case1 base => simp [expandWrbuf]
  | case2 base b0 b1 b2 b3 r ih => simpa [expandWrbuf, fits] using ih
  | case3 base bs h1 h2 =>
    rw [expandWrbuf.eq_3 base bs h1 h2]
    simp [fits]

theorem expandRdbuf_fits (k : Nat) (base : BitVec 14) : ∀ e ∈ expandRdbuf base k, fits .pseudo e = true := by
  induction k generalizing base with
  | zero => simp [expandRdbuf]
  | succ k ih => simpa [expandRdbuf, fits] using ih (base + 4)

theorem rdCmd : Statement .rdCmd := by simp [Statement, encode, encRd, format, fits]
theorem wrCmd (data : Word) : Statement (.wrCmd data) := by simp [Statement, encode, encWr, format, fits]
theorem rdStatus : Statement .rdStatus := by simp [Statement, encode, encRd, format, fits]
theorem wrStatus (data : Word) : Statement (.wrStatus data) := by simp [Statement, encode, encWr, format, fits]
theorem rdFound : Statement .rdFound := by simp [Statement, encode, encRd, format, fits]
theorem wrFound (data : Word) : Statement (.wrFound data) := by simp [Statement, encode, encWr, format, fits]
theorem rdPrefixLen : Statement .rdPrefixLen := by simp [Statement, encode, encRd, format, fits]
theorem wrPrefixLen (data : Word) : Statement (.wrPrefixLen data) := by simp [Statement, encode, encWr, format, fits]
theorem rdStartNonceLo : Statement .rdStartNonceLo := by simp [Statement, encode, encRd, format, fits]
theorem wrStartNonceLo (data : Word) : Statement (.wrStartNonceLo data) := by simp [Statement, encode, encWr, format, fits]
theorem rdStartNonceHi : Statement .rdStartNonceHi := by simp [Statement, encode, encRd, format, fits]
theorem wrStartNonceHi (data : Word) : Statement (.wrStartNonceHi data) := by simp [Statement, encode, encWr, format, fits]
theorem rdNonceOffset : Statement .rdNonceOffset := by simp [Statement, encode, encRd, format, fits]
theorem wrNonceOffset (data : Word) : Statement (.wrNonceOffset data) := by simp [Statement, encode, encWr, format, fits]
theorem rdNonceStride : Statement .rdNonceStride := by simp [Statement, encode, encRd, format, fits]
theorem wrNonceStride (data : Word) : Statement (.wrNonceStride data) := by simp [Statement, encode, encWr, format, fits]
theorem rdItersPerWorker : Statement .rdItersPerWorker := by simp [Statement, encode, encRd, format, fits]
theorem wrItersPerWorker (data : Word) : Statement (.wrItersPerWorker data) := by simp [Statement, encode, encWr, format, fits]
theorem rdMode : Statement .rdMode := by simp [Statement, encode, encRd, format, fits]
theorem wrMode (data : Word) : Statement (.wrMode data) := by simp [Statement, encode, encWr, format, fits]
theorem rdNumWorkers : Statement .rdNumWorkers := by simp [Statement, encode, encRd, format, fits]
theorem wrNumWorkers (data : Word) : Statement (.wrNumWorkers data) := by simp [Statement, encode, encWr, format, fits]
theorem rdTargetHex (word : BitVec 4) : Statement (.rdTargetHex word) := by simp [Statement, encode, encRd, format, fits]
theorem wrTargetHex (word : BitVec 4) (data : Word) : Statement (.wrTargetHex word data) := by simp [Statement, encode, encWr, format, fits]
theorem rdResultNonce (word : BitVec 4) : Statement (.rdResultNonce word) := by simp [Statement, encode, encRd, format, fits]
theorem wrResultNonce (word : BitVec 4) (data : Word) : Statement (.wrResultNonce word data) := by simp [Statement, encode, encWr, format, fits]
theorem rdResultDigest (word : BitVec 3) : Statement (.rdResultDigest word) := by simp [Statement, encode, encRd, format, fits]
theorem wrResultDigest (word : BitVec 3) (data : Word) : Statement (.wrResultDigest word data) := by simp [Statement, encode, encWr, format, fits]
theorem rdPrefix (word : BitVec 11) : Statement (.rdPrefix word) := by simp [Statement, encode, encRd, format, fits]
theorem wrPrefix (word : BitVec 11) (data : Word) : Statement (.wrPrefix word data) := by simp [Statement, encode, encWr, format, fits]
theorem unmapped (off : BitVec 14) (dir : BusDir) : Statement (.unmapped off dir) := by cases dir <;> simp [Statement, encode, encRd, encWr, format, fits]
theorem nop : Statement .nop := by simp [Statement, encode, format, fits]
theorem start : Statement .start := by simp [Statement, encode, format, fits]
theorem reservedCommand (v : Word) : Statement (.reservedCommand v) := by simp [Statement, encode, format, fits]
theorem compress (state : HashWords) (block : Bytes 64) : Statement (.compress state block) := by simp [Statement, encode, format, fits]
theorem prefixClamp : Statement .prefixClamp := by simp [Statement, encode, format, fits]
theorem midstateAbsorb : Statement .midstateAbsorb := by simp [Statement, encode, format, fits]
theorem tailCapture : Statement .tailCapture := by simp [Statement, encode, format, fits]
theorem bitlenCompute : Statement .bitlenCompute := by simp [Statement, encode, format, fits]
theorem setup : Statement .setup := by simp [Statement, encode, format, fits]
theorem nonceDerive (g : Word) (it : Word) : Statement (.nonceDerive g it) := by simp [Statement, encode, format, fits]
theorem nonceBytes (high32 : Word) (low64 : Long) : Statement (.nonceBytes high32 low64) := by simp [Statement, encode, format, fits]
theorem nonceHex (nb : Bytes 32) : Statement (.nonceHex nb) := by simp [Statement, encode, format, fits]
theorem finalBlocks (hex : Bytes 64) : Statement (.finalBlocks hex) := by simp [Statement, encode, format, fits]
theorem finalize (a : Bytes 64) (b : Bytes 64) (c : Option (Bytes 64)) : Statement (.finalize a b c) := by cases c <;> simp [Statement, encode, format, fits]
theorem hexNibble (c : Byte) : Statement (.hexNibble c) := by simp [Statement, encode, format, fits]
theorem targetDecode : Statement .targetDecode := by simp [Statement, encode, format, fits]
theorem compare (dig : Bytes 32) : Statement (.compare dig) := by simp [Statement, encode, format, fits]
theorem poll (g : Word) : Statement (.poll g) := by simp [Statement, encode, format, fits]
theorem claim (g : Word) : Statement (.claim g) := by simp [Statement, encode, format, fits]
theorem writeResult (g : Word) : Statement (.writeResult g) := by simp [Statement, encode, format, fits]
theorem publish (g : Word) : Statement (.publish g) := by simp [Statement, encode, format, fits]
theorem wait (g : Word) : Statement (.wait g) := by simp [Statement, encode, format, fits]
theorem eval (g : Word) : Statement (.eval g) := by simp [Statement, encode, format, fits]
theorem complete : Statement .complete := by simp [Statement, encode, format, fits]
theorem wr64 (off : BitVec 14) (v : Long) : Statement (.wr64 off v) := by simp [Statement, encode, encWr, format, fits]
theorem wrbuf (base : BitVec 14) (s : List Byte) : Statement (.wrbuf base s) := expandWrbuf_fits base s
theorem rdbuf (base : BitVec 14) (n : Nat) : Statement (.rdbuf base n) := expandRdbuf_fits _ base
theorem waitdone : Statement .waitdone := by simp [Statement, encode, encRd, format, fits]

end Sys2Proof.Laws.SpaceOfTable
end

