-- ==== Sys2Proof/Laws/Run.lean ====
section
/-! SUPPORT. Steps by the agent that takes them: what a step of an agent runs, what the host can do during a launch, and
a schedule that is fair whatever the block does. -/

namespace Sys2Proof.Machine

/-- A step of an agent runs what the agent fetches; the schedule stands as it was. -/
theorem stepAs_eq (m : Mover) (s : State) :
    stepAs m s = match fetchMover m s with
      | .run i t => if i.wf then exec i t else .refused .illFormed
      | .hold t => .next t
      | .reset t => .next (resetBlock t)
      | .bad e => .refused (.undecodable e) := rfl

theorem SameBlock.refl (s : State) : SameBlock s s := ⟨rfl, rfl, rfl, rfl, rfl, rfl, rfl, rfl⟩

theorem SameBlock.trans {s t u : State} (h : SameBlock s t) (k : SameBlock t u) : SameBlock s u :=
  ⟨k.job.trans h.job, k.mem.trans h.mem, k.epoch.trans h.epoch, k.found.trans h.found, k.phase.trans h.phase,
   k.done.trans h.done, k.setup.trans h.setup, k.workers.trans h.workers⟩

theorem sameBlock_hostRead (v : Word) (s : State) : SameBlock s (hostRead v s) :=
  ⟨rfl, rfl, rfl, rfl, rfl, rfl, rfl, rfl⟩

theorem sameBlock_pushHost (it : HostItem) (s : State) : SameBlock s (pushHost it s) :=
  ⟨rfl, rfl, rfl, rfl, rfl, rfl, rfl, rfl⟩

/-- A row of the host's: a transaction, a command or a pseudo-operation. -/
def isHostRow (i : Instr) : Bool := Laws.SpaceOfTable.format i != .internal

/-- Every line of a host program is a host row. -/
theorem hostItem_isHostRow (it : HostItem) : isHostRow it.instr = true := by
  cases it with
  | txn t d =>
    simp only [HostItem.instr, decodeBus]
    split
    · next r _ => unfold busInstr; cases r.target <;> cases r.isWrite <;> rfl
    · rfl
  | command v => simp only [HostItem.instr, decodeCommand]; split <;> [rfl; split <;> rfl]
  | wr64 | wrbuf | rdbuf | waitdone => rfl

/-- During a launch a host row changes nothing of the block (10_state.md rule R31, 45_launch_control.md rule R232). -/
theorem host_row_busy {i : Instr} {s t : State} (hi : isHostRow i = true) (h : s.phase ≠ .idle)
    (e : exec i s = .next t) : SameBlock s t := by
  cases i
  case unmapped off d => cases d <;> cases e <;> first | exact .refl s | exact sameBlock_hostRead _ s
  case wr64 off v => cases e; rw [busWrite_busy _ _ h]; exact sameBlock_pushHost _ s
  case wrbuf b l =>
    simp only [exec, execWrbuf, busWrite_busy _ _ h] at e
    (repeat' split at e) <;> cases e <;> first | exact .refl s | exact sameBlock_pushHost _ s
  case rdbuf b n =>
    simp only [exec, execRdbuf] at e
    (repeat' split at e) <;> cases e <;>
      first | exact .refl s | exact sameBlock_hostRead _ s | exact (sameBlock_hostRead _ s).trans (sameBlock_pushHost _ _)
  case waitdone =>
    simp only [exec, execWaitdone] at e
    split at e <;> cases e <;>
      first | exact sameBlock_hostRead _ s | exact (sameBlock_hostRead _ s).trans (sameBlock_pushHost _ _)
  case wrCmd v => cases e; rw [commandWrite_busy _ h]; exact .refl s
  case start => cases e; rw [startCommand, busy_eq_true.2 h]; exact .refl s
  all_goals first
    | (cases e; first | exact .refl s | exact sameBlock_hostRead _ s)
    | (cases e; simp only [writeReg, writeWindow, jobWrite_busy _ h]; exact .refl s)
    | exact absurd hi Bool.false_ne_true

/-- A worker's bound does not rise while the found-flag is not cleared. -/
theorem stepsLeft_le {j : Job} {f f' : FoundState} (w : Worker) (h : f ≠ .unset → f' ≠ .unset) :
    stepsLeft j f' w ≤ stepsLeft j f w := by
  unfold stepsLeft
  by_cases h1 : f = .unset
  · subst h1; cases w.phase <;> simp only [] <;> (try split) <;> simp
  · cases w.phase <;> simp [h1, h h1]

/-- Take turns: the host, SETUP and the workers one after the other, again and again. -/
def roundRobin (n : Nat) : Mover :=
  if n % 3 = 0 then .host else if n % 3 = 1 then .setup else .worker (BitVec.ofNat 32 (n / 3))

theorem roundRobin_ne_reset (n : Nat) : roundRobin n ≠ .reset := by
  unfold roundRobin
  split <;> [simp; split <;> simp]

/-- Every agent has its turn again. -/
theorem roundRobin_again (m : Mover) (hm : m ≠ .reset) (n : Nat) : ∃ k, n ≤ k ∧ roundRobin k = m := by
  cases m with
  | reset => exact absurd rfl hm
  | host => exact ⟨3 * n, by omega, by rw [roundRobin, if_pos (by omega)]⟩
  | setup => exact ⟨3 * n + 1, by omega, by rw [roundRobin, if_neg (by omega), if_pos (by omega)]⟩
  | worker g =>
    refine ⟨3 * (g.toNat + 2 ^ 32 * n) + 2, by omega, ?_⟩
    rw [roundRobin, if_neg (by omega), if_neg (by omega)]
    congr 1
    apply BitVec.eq_of_toNat_eq
    have := g.isLt
    rw [BitVec.toNat_ofNat]
    omega

theorem fairRun_roundRobin {ρ : Nat → State} (h : IsRun roundRobin ρ) : FairRun roundRobin ρ :=
  ⟨h, fun m hm n _ => roundRobin_again m hm n, roundRobin_ne_reset⟩

end Sys2Proof.Machine
end

