-- ==== Sys2Proof/Tests/Slice0.lean ====
section
/-! SUPPORT. Tests of the model. The expected values come from the spec: the words of 30_encoding.md rules R91 to R96, the
worked examples of the rules, and the vectors of 95_test_vectors.md. Then, for every statement that has hypotheses, a
witness that meets them. -/

namespace Sys2Proof.Tests

open Sys2Proof.Machine

/-! ## Well-formedness: an ill-formed term for each check -/

/-- 0x028 is NUM_WORKERS and 0x13C a TARGET_HEX word, so neither is an unmapped offset (rule R93). -/
theorem test_unmapped_refuses_mapped_offsets :
    (Instr.unmapped 0x028 .read).wf = false ∧ (Instr.unmapped 0x13C (.write 0)).wf = false ∧
    (Instr.unmapped 0x25F .read).wf = false ∧ (Instr.unmapped 0x2000 .read).wf = false ∧
    (Instr.unmapped 0x02C .read).wf = true ∧ (Instr.unmapped 0x1FFC .read).wf = true := by decide

/-- 0 and 1 are NOP and START (rule R94). -/
theorem test_reserved_command_refuses_nop_and_start :
    (Instr.reservedCommand 0).wf = false ∧ (Instr.reservedCommand 1).wf = false ∧
    (Instr.reservedCommand 2).wf = true := by decide

/-- The last offset of a WR64, WRBUF or RDBUF has 14 bits (rules R91 and R99). -/
theorem test_pseudo_operations_refuse_offsets_beyond_the_bus :
    (Instr.wr64 0x3FFC 0).wf = false ∧ (Instr.wr64 0x3FF8 0).wf = true ∧
    (Instr.wrbuf 0x3FFC [1, 2, 3, 4, 5]).wf = false ∧ (Instr.wrbuf 0x3FFC [1, 2, 3, 4]).wf = true ∧
    (Instr.rdbuf 0x3FFC 5).wf = false ∧ (Instr.rdbuf 0x3FFC 4).wf = true := by decide

/-! ## Decoding: words written out from the spec -/

/-- The read rows of the registers (the "read row" column of rule R92). -/
theorem test_decode_register_reads :
    [0x0000, 0x0004, 0x0008, 0x000C, 0x0010, 0x0014, 0x0018, 0x001C, 0x0020, 0x0024, 0x0028].map (decodeTableWord 16) =
    [some .rdCmd, some .rdStatus, some .rdFound, some .rdPrefixLen, some .rdStartNonceLo, some .rdStartNonceHi,
     some .rdNonceOffset, some .rdNonceStride, some .rdItersPerWorker, some .rdMode, some .rdNumWorkers] := by decide

/-- The write rows of the registers (the "write row" column of rule R92), each with the data word 0x00002328. -/
theorem test_decode_register_writes :
    [0x000023284000, 0x000023284004, 0x000023284008, 0x00002328400C, 0x000023284010, 0x000023284014, 0x000023284018,
     0x00002328401C, 0x000023284020, 0x000023284024, 0x000023284028].map (decodeTableWord 48) =
    [some (.wrCmd 9000), some (.wrStatus 9000), some (.wrFound 9000), some (.wrPrefixLen 9000),
     some (.wrStartNonceLo 9000), some (.wrStartNonceHi 9000), some (.wrNonceOffset 9000), some (.wrNonceStride 9000),
     some (.wrItersPerWorker 9000), some (.wrMode 9000), some (.wrNumWorkers 9000)] := by decide

/-- The window rows (rule R92, section 2.9 of 95_test_vectors.md), their last words, and what lies just outside. -/
theorem test_decode_windows :
    [0x013C, 0x0104, 0x0238, 0x025C, 0x0240, 0x3FFC, 0x2004].map (decodeTableWord 16) =
    [some (.rdTargetHex 15), some (.rdTargetHex 1), some (.rdResultNonce 14), some (.rdResultDigest 7),
     some (.rdResultDigest 0), some (.rdPrefix 2047), some (.rdPrefix 1)] ∧
    [0x64636261413C, 0x646362614238, 0x64636261425C, 0x646362617FFC].map (decodeTableWord 48) =
    [some (.wrTargetHex 15 0x64636261), some (.wrResultNonce 14 0x64636261), some (.wrResultDigest 7 0x64636261),
     some (.wrPrefix 2047 0x64636261)] := by decide

/-- Unmapped offsets in both directions, at both ends of a range (rule R93); bit 15 is no bit of a transaction word. -/
theorem test_decode_unmapped :
    [0x002C, 0x00FF, 0x0140, 0x01FF, 0x0260, 0x1FFC, 0x8000].map (decodeTableWord 16) =
    [some (.unmapped 0x2C .read), some (.unmapped 0xFF .read), some (.unmapped 0x140 .read),
     some (.unmapped 0x1FF .read), some (.unmapped 0x260 .read), some (.unmapped 0x1FFC .read), none] ∧
    decodeTableWord 48 0x000000055FFC = some (.unmapped 0x1FFC (.write 5)) := by decide

/-- Offset bits [1:0] are ignored (rule R63, section 2.9). -/
theorem test_decode_ignores_low_offset_bits :
    decodeBus 0x0007 0 = .rdStatus ∧ decodeBus 0x4102 0x64636261 = .wrTargetHex 0 0x64636261 := by decide

/-- Command words (rule R94). -/
theorem test_decode_commands :
    [0x00000000, 0x00000001, 0x00000002, 0xFFFFFFFF].map (decodeTableWord 32) =
    [some .nop, some .start, some (.reservedCommand 2), some (.reservedCommand 0xFFFFFFFF)] := by decide

/-- Internal operation numbers without operands (rule R96). -/
theorem test_decode_internal_numbers :
    [0x02, 0x03, 0x04, 0x05, 0x06, 0x0D, 0x15, 0x00, 0x16].map (decodeTableWord 8) =
    [some .prefixClamp, some .midstateAbsorb, some .tailCapture, some .bitlenCompute, some .setup, some .targetDecode,
     some .complete, none, none] := by decide

/-- Internal operation numbers with a worker index (rule R96); the index is big-endian (log entry 5). -/
theorem test_decode_worker_operations :
    [0x0F, 0x10, 0x11, 0x12, 0x13, 0x14].map (fun n => decode (.internal n [0, 0, 1, 2])) =
    [.ok (.poll 258), .ok (.claim 258), .ok (.writeResult 258), .ok (.publish 258), .ok (.wait 258),
     .ok (.eval 258)] := by decide

/-- Internal operation numbers with other operands (rule R96, log entry 5). -/
theorem test_decode_internal_operands :
    decode (.internal 0x07 [0, 0, 0, 2, 0, 0, 0, 3]) = .ok (.nonceDerive 2 3) ∧
    decode (.internal 0x08 [0, 0, 0, 1, 1, 0x23, 0x45, 0x67, 0x89, 0xAB, 0xCD, 0xEF]) =
      .ok (.nonceBytes 1 0x0123456789ABCDEF) ∧
    decode (.internal 0x0C [0x66]) = .ok (.hexNibble 0x66) ∧
    decode (.internal 0x09 (List.replicate 32 7)) = .ok (.nonceHex ⟨List.replicate 32 7, by decide⟩) ∧
    decode (.internal 0x0A (List.replicate 64 7)) = .ok (.finalBlocks ⟨List.replicate 64 7, by decide⟩) ∧
    decode (.internal 0x0E (List.replicate 32 7)) = .ok (.compare ⟨List.replicate 32 7, by decide⟩) ∧
    decode (.internal 0x0E (List.replicate 31 7)) = .error .truncated := by decide

/-- COMPRESS and FINALIZE with two blocks and with three (rules R125 and R184, log entry 5). -/
theorem test_decode_blocks :
    decode (.internal 0x01 ([0, 0, 0, 1] ++ List.replicate 28 0 ++ List.replicate 64 7)) =
      .ok (.compress ⟨1, 0, 0, 0, 0, 0, 0, 0⟩ ⟨List.replicate 64 7, by decide⟩) ∧
    decode (.internal 0x0B (List.replicate 64 7 ++ List.replicate 64 8 ++ [0])) =
      .ok (.finalize ⟨List.replicate 64 7, by decide⟩ ⟨List.replicate 64 8, by decide⟩ none) ∧
    decode (.internal 0x0B (List.replicate 64 7 ++ List.replicate 64 8 ++ [1] ++ List.replicate 64 9)) =
      .ok (.finalize ⟨List.replicate 64 7, by decide⟩ ⟨List.replicate 64 8, by decide⟩
        (some ⟨List.replicate 64 9, by decide⟩)) ∧
    decode (.internal 0x0B (List.replicate 64 7 ++ List.replicate 64 8 ++ [2])) = .error (.badFlag 2) := by
  decide +kernel

/-- The pseudo-operations' expansions (rule R99). -/
theorem test_encode_pseudo_operations :
    encode (.wr64 0x010 0x0123456789ABCDEF) = [.bus 0x4010 0x89ABCDEF, .bus 0x4014 0x01234567] ∧
    encode (.wrbuf 0x2000 [0x61, 0x62, 0x63, 0x64, 0x65]) = [.bus 0x6000 0x64636261, .bus 0x6004 0x00000065] ∧
    encode (.rdbuf 0x240 8) = [.bus 0x0240 0, .bus 0x0244 0] ∧ encode .waitdone = [.bus 0x0004 0] := by decide

/-! ## The states the tests step from -/

/-- 64 characters 'f' at TARGET_HEX. -/
def targetAllF : List Host.Cell := Memory.setMany [] targetHexBase (List.replicate 64 0x66)

/-- An IDLE block whose job is `w` workers of `n` iterations and whose target is all 'f'. -/
def idleJob (w n : Word) : State :=
  { State.reset with job.numWorkers := w, job.itersPerWorker := n, job.nonceStride := 1, mem := targetAllF }

/-- A worker in a phase at an iteration. -/
def workerAt (p : WPhase) (it : Word) : Worker := ⟨p, it, tabulate 64 (fun _ => 0x30), tabulate 32 (fun _ => 7)⟩

/-- A block in SEARCH with one worker and a budget of 3. -/
def searching (f : FoundState) (w : Worker) : State :=
  { State.reset with job.numWorkers := 1, job.itersPerWorker := 3, found := f, phase := .search, workers := [w] }

/-- The state an operation leads to, for reading off a field. -/
def after (i : Instr) (s : State) : State :=
  match exec i s with
  | .next t => t
  | _ => s

/-- The worker of a one-worker block: its phase and iteration. -/
def firstWorker (s : State) : Option (WPhase × Word) := s.workers.head?.map (fun w => (w.phase, w.it))

/-! ## Host bus transactions -/

/-- STATUS in the four situations of 45_launch_control.md (rules R22, R231, R234 and R240). -/
theorem test_status_word :
    statusWord State.reset = 0x00000000 ∧ statusWord { State.reset with phase := .setup } = 0x00000005 ∧
    statusWord { State.reset with phase := .search } = 0x00000009 ∧
    statusWord { State.reset with done := true } = 0x00000002 := by decide

/-- FOUND (rule R23). -/
theorem test_found_word :
    (after .rdFound { State.reset with found := .claimed }).env.hostRx = [1] ∧
    (after .rdFound { State.reset with found := .published }).env.hostRx = [2] := by decide

/-- Program P6: MODE is stored and read back. -/
theorem test_mode_reads_back :
    (after .rdMode (after (.wrMode 0xDEADBEEF) State.reset)).env.hostRx = [0xDEADBEEF] := by decide

/-- Section 2.8: `WR NUM_WORKERS, 5` during SEARCH is ignored. -/
theorem test_job_write_while_busy_is_ignored :
    (after (.wrNumWorkers 5) (searching .unset (workerAt .poll 0))).job.numWorkers = 1 := by decide

/-- Section 2.9: `WR 0x0100, 0x64636261` stores 'a' 'b' 'c' 'd', and the word reads back. -/
theorem test_lanes_of_target_hex :
    (after (.wrTargetHex 0 0x64636261) State.reset).mem = [(0x100, 0x61), (0x101, 0x62), (0x102, 0x63), (0x103, 0x64)] ∧
    (after (.rdTargetHex 0) (after (.wrTargetHex 0 0x64636261) State.reset)).env.hostRx = [0x64636261] := by decide

/-- Section 2.9: the last word of PREFIX is bytes 8188 to 8191, at 0x3FFC. -/
theorem test_last_prefix_word :
    (after (.wrPrefix 2047 0xFFFEFDFC) State.reset).mem =
      [(0x3FFC, 0xFC), (0x3FFD, 0xFD), (0x3FFE, 0xFE), (0x3FFF, 0xFF)] := by decide

/-- Section 2.9: RESULT_DIGEST bytes 60 e0 5b d1 read as 0xD15BE060, once FOUND is 2; a write leaves them alone. -/
theorem test_result_digest_lanes :
    (after (.rdResultDigest 0) (after (.wrResultDigest 0 5)
      { State.reset with found := .published, mem := Memory.setMany [] 0x240 [0x60, 0xE0, 0x5B, 0xD1] })).env.hostRx =
      [0xD15BE060] := by decide

/-- Rule R62 by offset: a write to CMD is decoded, one to STATUS is ignored, one at 0x0102 lands in the word at 0x100. -/
theorem test_bus_write_by_offset :
    (busWrite 0x000 1 State.reset).phase = .setup ∧ busWrite 0x004 5 State.reset = State.reset ∧
    (busWrite 0x102 0x64636261 State.reset).mem = [(0x100, 0x61), (0x101, 0x62), (0x102, 0x63), (0x103, 0x64)] := by
  decide

/-! ## Commands, setup and completion -/

/-- The example of rule R231: STATUS 5, FOUND 0, four workers in WAIT. -/
theorem test_start_example :
    let s := after .start { (idleJob 4 1) with done := true, found := .published }
    statusWord s = 0x00000005 ∧ foundWord s = 0 ∧ s.workers.map (·.phase) = [.wait, .wait, .wait, .wait] := by decide

/-- The example of rule R234 and of rule R143: PREFIX = "abc", PREFIX_LEN = 3. -/
theorem test_setup_of_abc :
    let s := after .setup { (idleJob 1 1) with
      phase := .setup, job.prefixLen := 3, mem := targetAllF ++ [(0x2000, 0x61), (0x2001, 0x62), (0x2002, 0x63)] }
    s.phase = .search ∧ s.setup.tailLen = 3 ∧ s.setup.bitlen = 536 ∧ s.setup.midH = hInit ∧
    s.setup.tail.val = [0x61, 0x62, 0x63] ++ zeros 61 ∧ s.setup.tgt.val = List.replicate 32 0xFF := by decide

/-- The clamp table of section 2.2. -/
theorem test_prefix_clamp :
    [0, 63, 8191, 8192, 8193, 9000, 0xFFFFFFFF].map (fun n : Word => (clampLen n).val) =
    [0, 63, 8191, 8192, 8192, 8192, 8192] ∧
    [0, 55, 8192].map (fun n : Word => bitlenOf (clampLen n)) = [0x200, 0x3B8, 0x10200] := by decide

/-- The example of rule R142: PREFIX = 'a' × 64. -/
theorem test_midstate_of_64_a :
    (after .midstateAbsorb { State.reset with setup.plen := 64, mem := Memory.setMany [] prefixBase (List.replicate 64 0x61) }).setup.midH =
    ⟨0xdf5bb81c, 0xe81e0626, 0xfb45a894, 0x4fd40f31, 0xb25e6816, 0xd6d499c1, 0xab904929, 0x00635e66⟩ := by decide +kernel

/-- The last row of section 2.4: each malformed character zeroes its own nibble only. -/
theorem test_target_decode_malformed :
    ((after .targetDecode (writeBytes State.reset targetHexBase
      ([0x67, 0x35, 0x35, 0x67, 0x7A, 0x7A, 0x41, 0x62, 0x43, 0x64, 0x45, 0x66, 0x20, 0x00] ++ List.replicate 50 0x30))).setup.tgt).val =
    [0x05, 0x50, 0x00, 0xAB, 0xCD, 0xEF] ++ zeros 26 := by decide

/-- The example of rule R240. -/
theorem test_complete_example :
    let s := after .complete { (searching .published (workerAt .exited 0)) with
      workers := [workerAt .exited 0, workerAt .exited 2] }
    statusWord s = 0x00000002 ∧ foundWord s = 2 ∧ s.workers = [] := by decide

/-- COMPLETE waits for the last worker (rule R240). -/
theorem test_complete_waits :
    (after .complete { (searching .unset (workerAt .exited 0)) with
      workers := [workerAt .exited 0, workerAt .poll 2] }).phase = .search := by decide

/-! ## Worker steps: the rows of section 2.7 -/

theorem test_poll_rows :
    [(FoundState.unset, 0), (.claimed, 0), (.published, 0), (.unset, 3)].map
      (fun r => firstWorker (after (.poll 0) (searching r.1 (workerAt .poll r.2)))) =
    [some (.eval, 0), some (.exited, 0), some (.exited, 0), some (.exited, 3)] := by decide

/-- A budget of -1 or of -2^31 is 0 (section 2.8). -/
theorem test_poll_negative_budget :
    [0xFFFFFFFF, 0x80000000].map (fun n : Word => firstWorker (after (.poll 0)
      { (searching .unset (workerAt .poll 0)) with job.itersPerWorker := n })) = [some (.exited, 0), some (.exited, 0)] := by
  decide

theorem test_claim_rows :
    [FoundState.unset, .claimed, .published].map (fun f => ((after (.claim 0) (searching f (workerAt .claim 1))).found,
      firstWorker (after (.claim 0) (searching f (workerAt .claim 1))))) =
    [(.claimed, some (.write, 1)), (.claimed, some (.poll, 2)), (.published, some (.poll, 2))] := by decide

theorem test_write_result_row :
    let s := after (.writeResult 0) (searching .claimed (workerAt .write 1))
    firstWorker s = some (.publish, 1) ∧ s.found = .claimed ∧ resultNonce s = List.replicate 64 0x30 ∧
    resultDigest s = List.replicate 32 7 := by decide

theorem test_publish_row :
    let s := after (.publish 0) (searching .claimed (workerAt .publish 1))
    firstWorker s = some (.poll, 2) ∧ s.found = .published := by decide

/-- The example of rule R235, and the hold of section 2.8 while PHASE = SETUP. -/
theorem test_wait_rows :
    firstWorker (after (.wait 0) (searching .unset (workerAt .wait 0))) = some (.poll, 0) ∧
    firstWorker (after (.wait 0) { (searching .unset (workerAt .wait 0)) with phase := .setup }) = some (.wait, 0) := by decide

/-- The setup state of scenario 1.1: an empty prefix and the target all 'f'. -/
def emptyPrefixSetup : Setup :=
  ⟨0, hInit, tabulate 64 (fun _ => 0), 0, 0x200, tabulate 32 (fun _ => 0xFF)⟩

/-- The example of rule R237 (scenario 1.1): the nonce hex is '0' × 64, and the worker goes to CLAIM. -/
theorem test_eval_example :
    let s := after (.eval 0) { (searching .unset (workerAt .eval 0)) with setup := emptyPrefixSetup }
    firstWorker s = some (.claim, 0) ∧ s.workers.map (·.candHex.val) = [List.replicate 64 0x30] ∧
    s.workers.map (·.candDig.val) =
      [[0x60, 0xe0, 0x5b, 0xd1, 0xb1, 0x95, 0xaf, 0x2f, 0x94, 0x11, 0x2f, 0xa7, 0x19, 0x7a, 0x5c, 0x88,
        0x28, 0x90, 0x58, 0x84, 0x0c, 0xe7, 0xc6, 0xdf, 0x96, 0x93, 0x75, 0x6b, 0xc6, 0x25, 0x0f, 0x55]] := by
  decide +kernel

/-- A no-match EVAL (section 2.7): the target is zero. -/
theorem test_eval_no_match :
    firstWorker (after (.eval 0) { (searching .unset (workerAt .eval 1)) with
      setup := { emptyPrefixSetup with tgt := tabulate 32 (fun _ => 0) } }) = some (.poll, 2) := by decide +kernel

/-! ## Pure operations -/

/-- Vector C4 of section 2.1: the zero state and the zero block. -/
theorem test_compress_zero :
    (after (.compress ⟨0, 0, 0, 0, 0, 0, 0, 0⟩ (tabulate 64 (fun _ => 0))) State.reset).env.opOut =
    .state ⟨0x7ca51614, 0x425c3ba8, 0xce54dd2f, 0xc2020ae7, 0xb6e574d1, 0x98136d0f, 0xae7e26cc, 0xbf0be7a6⟩ := by
  decide +kernel

/-- Vector C3 of section 2.1: the all-ones block. -/
theorem test_compress_ones :
    compress hInit (tabulate 64 (fun _ => 0xFF)) =
    ⟨0xef0c748d, 0xf4da50a8, 0xd6c43c01, 0x3edc3ce7, 0x6c9d9fa9, 0xa1458ade, 0x56eb86c0, 0xa64492d2⟩ := by decide +kernel

/-- Rows of section 2.3: the example of rule R160 and every operand at its maximum. -/
theorem test_nonce_derive :
    low64 ⟨0, 0x1000, 0, 5, 2, 10, 0, 0⟩ 2 3 = 0x1033 ∧
    low64 ⟨0, 0x76543210, 0xFEDCBA98, 0xFFFFFFFF, 0xFFFFFFFF, 0x7FFFFFFF, 0, 0⟩ 0xFFFFFFFF 0x7FFFFFFE =
      0x7EDCBA9976543210 := by decide

/-- Section 2.3: nonce (1, 0x0123456789ABCDEF) as bytes and as characters. -/
theorem test_nonce_bytes_and_hex :
    (nonceBytes 1 0x0123456789ABCDEF).val = zeros 23 ++ [1, 0x01, 0x23, 0x45, 0x67, 0x89, 0xAB, 0xCD, 0xEF] ∧
    (nonceHex (nonceBytes 1 0x0123456789ABCDEF)).val = List.replicate 47 0x30 ++
      [0x31, 0x30, 0x31, 0x32, 0x33, 0x34, 0x35, 0x36, 0x37, 0x38, 0x39, 0x61, 0x62, 0x63, 0x64, 0x65, 0x66] := by decide

/-- Section 2.4: the boundaries of the three ranges. -/
theorem test_hex_nibble :
    [0x30, 0x39, 0x61, 0x66, 0x41, 0x46, 0x67, 0x47, 0x2F, 0x3A, 0x60, 0x40, 0x20, 0x00, 0x80, 0xFF].map hexNibble =
    [0, 9, 10, 15, 10, 15, 0, 0, 0, 0, 0, 0, 0, 0, 0, 0] := by decide

/-- Section 2.5: the blocks at r = 55, 56 and 63, by what tells the cases apart (HEX[i] = i, TAIL[i] = 200 + i). -/
theorem test_final_blocks :
    let hex : Bytes 64 := tabulate 64 (fun i => BitVec.ofNat 8 i)
    let tail : Bytes 64 := tabulate 64 (fun i => BitVec.ofNat 8 (200 + i))
    ((finalBlocks tail 55 0x3B8 hex).map (fun b => (b.val.getD 54 0, b.val.getD 55 0, b.val.getD 56 0, b.val.getD 63 0))) =
      [(254, 0, 1, 8), (63, 0x80, 0, 0xB8)] ∧
    ((finalBlocks tail 56 0x3C0 hex).map (fun b => (b.val.getD 55 0, b.val.getD 56 0, b.val.getD 57 0, b.val.getD 63 0))) =
      [(255, 0, 1, 7), (63, 0x80, 0, 0), (0, 0, 0, 0xC0)] ∧
    ((finalBlocks tail 63 0x3F8 hex).map (fun b => (b.val.getD 0 0, b.val.getD 62 0, b.val.getD 63 0))) =
      [(200, 6, 0), (1, 63, 0x80), (0, 3, 0xF8)] := by decide

/-- Vectors C5 and C6 of section 2.1: FINALIZE over the two blocks of scenario 1.1. -/
theorem test_finalize_two_blocks :
    (finalize hInit [tabulate 64 (fun _ => 0x30), ⟨[0x80] ++ zeros 61 ++ [2, 0], by decide⟩]).val =
    [0x60, 0xe0, 0x5b, 0xd1, 0xb1, 0x95, 0xaf, 0x2f, 0x94, 0x11, 0x2f, 0xa7, 0x19, 0x7a, 0x5c, 0x88,
     0x28, 0x90, 0x58, 0x84, 0x0c, 0xe7, 0xc6, 0xdf, 0x96, 0x93, 0x75, 0x6b, 0xc6, 0x25, 0x0f, 0x55] := by decide +kernel

/-- Rows of section 2.6 in their deciding bytes: equal, one greater at the bottom, one less at the bottom, greater at the
top with 0xff below, less at the top with 0x00 below. -/
theorem test_compare_rows :
    digestLe [0x60, 0x55] [0x60, 0x55] = true ∧ digestLe [0x60, 0x55] [0x60, 0x54] = false ∧
    digestLe [0x60, 0x55] [0x60, 0x56] = true ∧ digestLe [0x60, 0x55] [0x5F, 0xFF] = false ∧
    digestLe [0x60, 0x55] [0x61, 0x00] = true := by decide

/-! ## Pseudo-operations -/

/-- WRBUF issues one word and leaves the rest; the last word is filled with zero (rule R99). -/
theorem test_wrbuf_steps :
    let s := after (.wrbuf 0x2000 [0x61, 0x62, 0x63, 0x64, 0x65]) State.reset
    s.env.hostProg = [.wrbuf 0x2004 [0x65]] ∧ s.mem.map Prod.snd = [0x61, 0x62, 0x63, 0x64] ∧
    (after (.wrbuf 0x2004 [0x65]) s).mem.map Prod.snd = [0x61, 0x62, 0x63, 0x64, 0x65, 0, 0, 0] := by decide

/-- WR64 writes the low word and leaves the high one (rule R99). -/
theorem test_wr64_steps :
    let s := after (.wr64 0x010 0x0123456789ABCDEF) State.reset
    s.job.startNonceLo = 0x89ABCDEF ∧ s.env.hostProg = [.txn 0x4014 0x01234567] := by decide

/-- RDBUF and WAITDONE repeat until they are through (rule R99). -/
theorem test_rdbuf_and_waitdone_steps :
    (after (.rdbuf 0x004 8) State.reset).env.hostProg = [.rdbuf 0x008 4] ∧
    (after (.rdbuf 0x008 4) State.reset).env.hostProg = [] ∧
    (after .waitdone State.reset).env.hostProg = [.waitdone] ∧
    (after .waitdone { State.reset with done := true }).env.hostRx = [2] ∧
    (after .waitdone { State.reset with done := true }).env.hostProg = [] := by decide

/-! ## A step -/

/-- The words of the table run as the first step after reset. -/
theorem test_first_step_runs_the_word :
    (match step (State.reset.withFetchWord 48 0x000000014000) with | .next t => t.phase | _ => .idle) = .setup ∧
    (match step (State.reset.withFetchWord 32 1) with | .next t => t.phase | _ => .idle) = .setup ∧
    (match step (State.reset.withFetchWord 48 0xDEADBEEF4024) with | .next t => t.job.mode | _ => 0) = 0xDEADBEEF ∧
    (match step (State.reset.withFetchWord 8 0x05) with | .next t => t.setup.bitlen | _ => 0) = 512 := by decide

/-- A number that is no operation, and a line beyond the bus, are refused by name. -/
theorem test_refusals_by_name :
    (match step { State.reset with env.sched := [.issue 0x16 []] } with | .refused r => some r | _ => none) =
      some (.undecodable (.noSuchOperation 0x16)) ∧
    (match step { State.reset with env.sched := [.mover .host], env.hostProg := [.wr64 0x3FFE 0] } with
      | .refused r => some r | _ => none) = some .illFormed := by decide

/-! ## Witnesses: for every statement with hypotheses, a state and operands that meet them -/

/-- The all-ones target is met by every digest. -/
theorem digestLe_allOnes (d : List Byte) (n : Nat) : digestLe d (List.replicate n 0xFF) = true := by
  induction d generalizing n with
  | nil => cases n <;> rfl
  | cons b d ih =>
    cases n with
    | zero => rfl
    | succ n =>
      have h : ¬ (0xFF : Byte) < b := by
        have := b.isLt
        change ¬ 255 < b.toNat
        omega
      simp only [List.replicate_succ, digestLe, if_neg h, ih]
      split <;> rfl

/-- The target all 'f', and zeros in both result windows. -/
@[irreducible] def searchMem : List Host.Cell := Memory.setMany targetAllF resultNonceBase (zeros 96)

theorem searchMem_wf : Memory.wf searchMem = true := by decide +kernel

/-- A state with the setup state of its job. -/
def withSetup (s : State) : State := { s with setup := setupOf s }

theorem withSetup_setup (s : State) : (withSetup s).setup = setupOf (withSetup s) := rfl

/-- A block in SEARCH with the target all 'f', worker 0 as given, and the setup state of its job. -/
def launchedJob (n : Word) (f : FoundState) (w : Worker) : State :=
  withSetup { (idleJob 1 n) with phase := .search, found := f, mem := searchMem, workers := [w] }

theorem launchedJob_mem (n : Word) (f : FoundState) (w : Worker) : (launchedJob n f w).mem = searchMem := rfl

/-- The winner's store. -/
def storeCandidate (w : Worker) (s : State) : State :=
  writeBytes (writeBytes s resultNonceBase w.candHex.val) resultDigestBase w.candDig.val

/-- Worker 0 with candidate 0 in its latches. -/
def matched (p : WPhase) (it : Word) : Worker :=
  ⟨p, it, candidateHex (idleJob 1 3).job 0 0, candidateDigest (launchedJob 3 .unset (workerAt .wait 0)) 0 0⟩

/-- The four states in SEARCH that the witnesses use: before the search, about to write, published, and with no
iterations to do. -/
def waiting : State := launchedJob 3 .unset (workerAt .wait 0)
def writing : State := launchedJob 3 .claimed (matched .write 0)
def published : State := storeCandidate (matched .exited 1) (launchedJob 3 .published (matched .exited 1))
def spent : State := launchedJob 0 .unset (workerAt .exited 0)

/-- In a block with one worker, WORKER[g] is that worker and g is 0. -/
theorem worker?_one {s : State} {w v : Worker} {g : Word} (hs : s.workers = [w]) (h : worker? s g = some v) :
    g = 0 ∧ v = w := by
  simp only [worker?, hs] at h
  have h0 : g.toNat = 0 := by
    have := (List.getElem?_eq_some_iff.1 h).1
    simpa using this
  rw [h0] at h
  exact ⟨BitVec.eq_of_toNat_eq h0, by simpa using h.symm⟩

/-- The invariant of a one-worker block in SEARCH from its parts. -/
theorem inv_one {s : State} {w : Worker} (hw : s.workers = [w]) (hn : s.job.numWorkers = 1) (hp : s.phase = .search)
    (hd : s.done = false) (hm : Memory.wf s.mem = true) (hu : s.setup = setupOf s)
    (hc : [w].countP holdsClaim = if s.found = .claimed then 1 else 0) (hok : WorkerOk s 0 w)
    (hwin : s.found = .published → FirstMatch s 0 0 ∧ ResultHolds s 0 0) : LaunchInv s where
  memory := hm
  idle_pool h := by rw [hp] at h; cases h
  pool _ := by rw [hw, hn]; rfl
  not_done _ := hd
  barrier h := by rw [hp] at h; cases h
  setup_state _ := hu
  claim := by rw [hw]; exact hc
  workers _ g v h := by obtain ⟨rfl, rfl⟩ := worker?_one hw h; exact hok
  winner _ h := ⟨0, 0, by rw [hn]; decide, (hwin h).1, (hwin h).2⟩

/-- Candidate (0, 0) is the first match of worker 0 when the target is all 'f' and there are iterations. -/
theorem firstMatch_allOnes {s : State} (hb : 0 < budget s.job) (ht : (decodeTarget s).val = List.replicate 32 0xFF) :
    FirstMatch s 0 0 :=
  ⟨hb, by rw [candidateMatches, ht]; exact digestLe_allOnes _ _, fun i h => absurd h (by simp)⟩

theorem waiting_firstMatch : FirstMatch waiting 0 0 := firstMatch_allOnes (by decide) (by decide +kernel)

theorem waiting_inv : LaunchInv waiting :=
  inv_one (w := workerAt .wait 0) rfl rfl rfl rfl searchMem_wf (withSetup_setup _) (by decide)
    ⟨by decide, by decide, by decide, by simp [workerAt], by simp [workerAt],
      .inl fun i h => absurd h (by simp [workerAt]), by decide⟩ (fun h => nomatch h)

theorem spent_inv : LaunchInv spent :=
  inv_one (w := workerAt .exited 0) rfl rfl rfl rfl searchMem_wf (withSetup_setup _) (by decide)
    ⟨by decide, by decide, by decide, by simp [workerAt], by simp [workerAt],
      .inl fun i h => absurd h (by simp [workerAt]), by decide⟩ (fun h => nomatch h)

theorem waiting_sameJob (n : Word) (f : FoundState) (w : Worker) (hn : n = 3) : SameJob waiting (launchedJob n f w) := by
  subst hn
  exact ⟨rfl, fun _ _ => rfl⟩

theorem writing_inv : LaunchInv writing :=
  inv_one (w := matched .write 0) rfl rfl rfl rfl searchMem_wf (withSetup_setup _) (by decide)
    { it_le := by decide
      wait_it := fun h => nomatch h
      eval_it := fun h => nomatch h
      latches := fun _ => ⟨rfl, (candidateDigest_congr (waiting_sameJob 3 _ _ rfl) 0 0).symm,
        (firstMatch_congr (waiting_sameJob 3 _ _ rfl) 0 0).2 waiting_firstMatch⟩
      written := fun h => nomatch h
      earlier := .inl fun i h => absurd h (by simp [matched])
      exited := by decide }
    (fun h => nomatch h)

theorem published_result : FirstMatch published 0 0 ∧ ResultHolds published 0 0 := by
  let w := matched .exited 1
  have h := results_written (launchedJob 3 .published w) w.candHex w.candDig
  have hj : SameJob waiting published := (waiting_sameJob 3 .published w rfl).trans h.2.2
  exact ⟨(firstMatch_congr hj 0 0).2 waiting_firstMatch, h.1, h.2.1.trans (congrArg Subtype.val (candidateDigest_congr hj 0 0).symm)⟩

theorem published_setup : published.setup = setupOf published := by
  have h := results_written (launchedJob 3 .published (matched .exited 1)) (matched .exited 1).candHex (matched .exited 1).candDig
  unfold published storeCandidate
  rw [setupOf_congr h.2.2, writeBytes_setup, writeBytes_setup]
  exact withSetup_setup _

theorem published_memory : Memory.wf published.mem = true := by
  simp only [published, storeCandidate, writeBytes_mem, launchedJob_mem]
  refine Memory.wf_setMany _ (Memory.wf_setMany _ ?_ ?_) ?_
  · exact searchMem_wf
  · rw [(matched .exited 1).candHex.property]
    decide
  · rw [(matched .exited 1).candDig.property]
    decide

theorem published_inv : LaunchInv published :=
  inv_one (w := matched .exited 1) rfl rfl rfl rfl published_memory published_setup (by decide)
    { it_le := by decide
      wait_it := fun h => nomatch h
      eval_it := fun h => nomatch h
      latches := fun h => by simp [matched] at h
      written := fun h => nomatch h
      earlier := .inr (by decide)
      exited := by decide }
    (fun _ => published_result)

/-- A block with the host's next line and the next choices given. -/
def feeding (p : List HostItem) (q : List Pick) (s : State) : State := { s with env.hostProg := p, env.sched := q }

/-- The worker of a block in SEARCH that is next to move. -/
def moving (f : FoundState) (w : Worker) : State := feeding [] [.mover (.worker 0)] (searching f w)

/-! ### Encoding -/

theorem witness_DecodeOfEncodeIsTheOperation :
    ∀ i ∈ [Instr.wrPrefix 2047 5, .unmapped 0x02C .read, .unmapped 0x1FFC (.write 0), .reservedCommand 2,
      .reservedCommand 0xFFFFFFFF, .hexNibble 0xFF, .poll 0xFFFFFFFF], i.wf = true ∧ i.isPseudo = false := by decide

theorem witness_NoTwoBusRowsMatchOneTransaction :
    (⟨.status, false, 0x0004, 0x7FFC⟩ : BusRow) ∈ busTable ∧
    BusRow.selects ⟨.status, false, 0x0004, 0x7FFC⟩ 0x0007 = true := by decide

/-- Both ends of the three ranges of rule R93, in both directions; the rows around them match. -/
theorem witness_UnmappedTransactionsReadZeroAndIgnoreWrites :
    [(0x002C : BitVec 15), 0x00FF, 0x0140, 0x01FF, 0x0260, 0x1FFF, 0x402C, 0x40FF, 0x4140, 0x41FF, 0x4260, 0x5FFF].map
      (fun t => busTable.any (·.selects t)) = List.replicate 12 false ∧
    [(0x002B : BitVec 15), 0x0100, 0x013F, 0x0200, 0x025F, 0x2000].map (fun t => busTable.any (·.selects t)) =
      List.replicate 6 true := by decide

theorem witness_CommandWordsNopStartAndReserved : 2 ≤ (2 : Word).toNat ∧ 2 ≤ (0xFFFFFFFF : Word).toNat := by decide

theorem witness_PseudoOperationsExpandToTransactions :
    0 < ([1] : List Byte).length + 3 ∧ 1 < (([1, 2, 3, 4, 5] : List Byte).length + 3) / 4 ∧ 0 < (1 + 3) / 4 := by decide

/-! ### Steps -/

theorem witness_StepRunsTheHostsNextLine :
    let s := feeding [.txn 0x4000 1] [.mover .host] State.reset
    s.env.sched = .mover .host :: [] ∧ s.env.hostProg = .txn 0x4000 1 :: [] ∧ (HostItem.txn 0x4000 1).instr.wf = true := by
  decide

theorem witness_StepRunsTheAgentsOperation :
    (∀ p ∈ [Phase.setup, .search, .idle],
      (feeding [] [.mover .setup] { State.reset with phase := p }).env.sched = .mover .setup :: []) ∧
    (∀ p ∈ [WPhase.wait, .poll, .eval, .claim, .write, .publish, .exited],
      (moving .unset (workerAt p 0)).env.sched = .mover (.worker 0) :: [] ∧
      worker? (moving .unset (workerAt p 0)) 0 = some (workerAt p 0)) ∧
    worker? (moving .unset (workerAt .wait 0)) 1 = none ∧
    decodeInternal 0x0C [0x66] = .ok (.hexNibble 0x66, []) ∧ (Instr.hexNibble 0x66).wf = true ∧
    State.reset.env.sched = [] := by decide

theorem witness_LoadedWordIsRunNext : decodeTableWord 48 0x000000014000 = some (.wrCmd 1) := by decide

theorem witness_NoStepEverStops :
    feedOk (feeding [.wrbuf 0x3FFC [1, 2, 3, 4], .command 2] [.mover .reset, .issue 0x15 []] State.reset) = true := by decide

/-! ### Bus transactions -/

theorem witness_JobRegistersResetReadAndWrite : State.reset.phase = .idle ∧ JobReg.mode ≠ JobReg.numWorkers := by decide

theorem witness_JobWritesObeyTheBusyRule :
    waiting.phase ≠ .idle ∧ { waiting with phase := .setup }.phase ≠ .idle ∧ State.reset.phase = .idle := by decide

/-- The bytes just outside the first and the last word of the two windows. -/
theorem witness_JobBufferWindowsMoveFourLanes :
    State.reset.phase = .idle ∧ 0xFF < windowOff targetHexBase (0 : BitVec 4).toNat ∧
    windowOff targetHexBase (15 : BitVec 4).toNat + 4 ≤ 0x140 ∧ 0x1FFF < windowOff prefixBase (0 : BitVec 11).toNat ∧
    windowOff prefixBase (2047 : BitVec 11).toNat + 4 ≤ 0x4000 := by decide

theorem witness_ResultWindowReads :
    writing.found = .claimed ∧ waiting.found ≠ .claimed ∧ published.found ≠ .claimed := by decide

theorem witness_PseudoOperationsIssueTheirNextTransaction : ([0] : List Byte) ≠ [] ∧ 0 < 1 := by decide

/-- The first and the last word of both windows, and the empty string. -/
theorem witness_WrbufStoresTheWholeString :
    State.reset.phase = .idle ∧
    ∀ p ∈ [((0x100 : BitVec 14), 64), (0x13C, 1), (0x13C, 4), (0x2000, 8192), (0x3FFC, 3), (0x3FFC, 4), (0x2000, 0)],
      p.1.toNat % 4 = 0 ∧ (0x100 ≤ p.1.toNat ∧ p.1.toNat + 4 * ((p.2 + 3) / 4) ≤ 0x140 ∨
        0x2000 ≤ p.1.toNat ∧ p.1.toNat + 4 * ((p.2 + 3) / 4) ≤ 0x4000) := by decide

theorem witness_RdbufReturnsTheBytes :
    waiting.found ≠ .claimed ∧ published.found ≠ .claimed ∧
    ∀ p ∈ [((0x100 : BitVec 14), 64), (0x13C, 1), (0x200, 64), (0x23C, 4), (0x240, 32), (0x25C, 4), (0x2000, 8192),
        (0x3FFC, 4)],
      p.1.toNat % 4 = 0 ∧ 0 < p.2 ∧ (0x100 ≤ p.1.toNat ∧ p.1.toNat + p.2 ≤ 0x140 ∨
        0x200 ≤ p.1.toNat ∧ p.1.toNat + p.2 ≤ 0x240 ∨ 0x240 ≤ p.1.toNat ∧ p.1.toNat + p.2 ≤ 0x260 ∨
        0x2000 ≤ p.1.toNat ∧ p.1.toNat + p.2 ≤ 0x4000) := by decide

/-! ### Commands, setup and completion -/

theorem witness_StartBeginsALaunch : (idleJob 4 1).phase = .idle := rfl

theorem witness_StartWhileBusyIsIgnored :
    waiting.phase ≠ .idle ∧ { State.reset with phase := .setup }.phase ≠ .idle := by decide

theorem witness_SetupStepComputesAndReleases : { (idleJob 1 1) with phase := .setup }.phase = .setup := rfl

theorem witness_SetupOperationsWriteTheirOwnPiece : ({ State.reset with setup.plen := 63 }).setup.plen.val < 64 := by decide

theorem witness_SetupOperationsCommuteAfterTheClamp :
    [targetDecode, writeBitlen, writeTail, absorbMidstate].Perm [absorbMidstate, writeTail, writeBitlen, targetDecode] :=
  List.reverse_perm [absorbMidstate, writeTail, writeBitlen, targetDecode]

/-- With no worker, and with one that has exited. -/
theorem witness_CompleteEndsTheLaunch :
    (∀ w ∈ { State.reset with phase := .search }.workers, w.phase = .exited) ∧ published.phase = .search ∧
    (∀ w ∈ published.workers, w.phase = .exited) :=
  ⟨by decide, rfl, by intro w hw; rw [show published.workers = [matched .exited 1] from rfl] at hw; simp_all [matched]⟩

theorem witness_DisabledOperationsChangeNothing :
    State.reset.phase ≠ .setup ∧ State.reset.phase ≠ .search ∧
    (∃ w ∈ (searching .unset (workerAt .poll 2)).workers, w.phase ≠ .exited) ∧
    (∀ w, worker? (searching .unset (workerAt .exited 2)) 0 = some w →
      w.phase ≠ .wait ∧ w.phase ≠ .poll ∧ w.phase ≠ .eval ∧ w.phase ≠ .claim ∧ w.phase ≠ .write ∧ w.phase ≠ .publish) ∧
    ∀ w, worker? (searching .unset (workerAt .poll 2)) 1 = some w → w.phase ≠ .poll := by
  refine ⟨by decide, by decide, by decide, fun w h => ?_, fun w h => ?_⟩
  · obtain ⟨-, rfl⟩ := worker?_one rfl h
    decide
  · obtain ⟨h, -⟩ := worker?_one rfl h
    cases h

/-! ### Worker steps -/

theorem witness_WaitPassesTheBarrier :
    worker? waiting 0 = some (workerAt .wait 0) ∧ (workerAt .wait 0).phase = .wait ∧ waiting.phase = .search ∧
    { waiting with phase := .setup }.phase ≠ .search := ⟨rfl, rfl, rfl, by decide⟩

/-- The last iteration, the spent budget and a negative one; FOUND unset, claimed and published. -/
theorem witness_PollTestsTheBudgetThenTheFlag :
    let s (f : FoundState) (n it : Word) : State := { (searching f (workerAt .poll it)) with job.itersPerWorker := n }
    worker? (s .unset 3 2) 0 = some (workerAt .poll 2) ∧ (workerAt .poll 2).phase = .poll ∧
    ((workerAt .poll 3).it.toNat : Int) ≥ max 0 (s .unset 3 3).job.itersPerWorker.toInt ∧
    ((workerAt .poll 0).it.toNat : Int) ≥ max 0 (s .unset 0x80000000 0).job.itersPerWorker.toInt ∧
    ((workerAt .poll 2).it.toNat : Int) < max 0 (s .unset 3 2).job.itersPerWorker.toInt ∧ (s .unset 3 2).found = .unset ∧
    (s .claimed 3 2).found ≠ .unset ∧ (s .published 3 2).found ≠ .unset := by decide

/-- A target that every digest meets, and one that no digest but zero meets. -/
theorem witness_EvalHashesOneCandidate :
    let s (t : Byte) : State :=
      { (searching .unset (workerAt .eval 1)) with setup := { emptyPrefixSetup with tgt := tabulate 32 (fun _ => t) } }
    let dig (t : Byte) := finalize (s t).setup.midH (finalBlocks (s t).setup.tail (s t).setup.tailLen (s t).setup.bitlen
      (nonceHex (nonceBytes 0 (low64 (s t).job 0 1))))
    worker? (s 0) 0 = some (workerAt .eval 1) ∧ (workerAt .eval 1).phase = .eval ∧
    beNat (dig 0xFF).val ≤ beNat (s 0xFF).setup.tgt.val ∧ beNat (s 0).setup.tgt.val < beNat (dig 0).val := by decide +kernel

theorem witness_ClaimIsACompareAndSwap :
    worker? (searching .unset (workerAt .claim 1)) 0 = some (workerAt .claim 1) ∧ (workerAt .claim 1).phase = .claim ∧
    (searching .unset (workerAt .claim 1)).found = .unset ∧ (searching .claimed (workerAt .claim 1)).found ≠ .unset ∧
    (searching .published (workerAt .claim 1)).found ≠ .unset := by decide

theorem witness_WriteResultStoresTheCandidate :
    worker? (searching .claimed (workerAt .write 1)) 0 = some (workerAt .write 1) ∧ (workerAt .write 1).phase = .write := by
  decide

theorem witness_PublishSetsFoundToTwo :
    worker? (searching .claimed (workerAt .publish 1)) 0 = some (workerAt .publish 1) ∧
    (workerAt .publish 1).phase = .publish := by decide

theorem witness_WorkersTouchOnlyTheirOwnState :
    Instr.writeResult 0 ∈ [Instr.wait 0, .poll 0, .eval 0, .claim 0, .writeResult 0, .publish 0] ∧
    exec (.writeResult 0) (searching .claimed (workerAt .write 1)) =
      .next (writeResultStep 0 (searching .claimed (workerAt .write 1))) ∧ (1 : Word) ≠ 0 := ⟨by decide, rfl, by decide⟩

/-! ### Pure operations -/

theorem witness_CompressOfTheAbcBlock :
    ∃ blk : Bytes 64, blk.val = [0x61, 0x62, 0x63, 0x80] ++ zeros 52 ++ be64bytes 24 := ⟨⟨_, by decide⟩, rfl⟩

/-- Two workers, two iterations, the last of a budget, with a stride and without. -/
theorem witness_PartitionIsDisjoint :
    let j (n stride : Word) : Job := { Job.reset with itersPerWorker := n, nonceStride := stride }
    (0 : Word).toNat < budget (j 2 0) ∧ (1 : Word).toNat < budget (j 2 0) ∧
    (0x7FFFFFFE : Word).toNat < budget (j 0x7FFFFFFF 0xFFFFFFFF) ∧ (0 : Word) ≠ 1 ∧ (j 2 0).nonceStride = 0 ∧
    (j 2 0xFFFFFFFF).nonceStride ≠ 0 := by decide

theorem witness_FinalBlocksByTailLength :
    let r (n : Fin 64) : Nat := { State.reset with setup.tailLen := n }.setup.tailLen.val
    r 0 = 0 ∧ 1 ≤ r 1 ∧ r 1 ≤ 55 ∧ 1 ≤ r 55 ∧ r 55 ≤ 55 ∧ 56 ≤ r 56 ∧ 56 ≤ r 63 := by decide

/-- The first and the last character of each range, and the characters beside them. -/
theorem witness_HexNibbleDecodesOneCharacter :
    let digit (c : Byte) : Bool := decide (0x30 ≤ c.toNat ∧ c.toNat ≤ 0x39)
    let lower (c : Byte) : Bool := decide (0x61 ≤ c.toNat ∧ c.toNat ≤ 0x66)
    let upper (c : Byte) : Bool := decide (0x41 ≤ c.toNat ∧ c.toNat ≤ 0x46)
    [(0x30 : Byte), 0x39].all digit ∧ [(0x61 : Byte), 0x66].all lower ∧ [(0x41 : Byte), 0x46].all upper ∧
    [(0x2F : Byte), 0x3A, 0x40, 0x47, 0x60, 0x67, 0x00, 0xFF].all (fun c => !digit c && !lower c && !upper c) := by decide

theorem witness_ModeIsReadByNoOperation :
    isInternal .bitlenCompute = true ∧ exec .bitlenCompute State.reset = .next (writeBitlen State.reset) := ⟨by decide, rfl⟩

/-! ### Reset and the whole machine -/

theorem witness_ResetOverridesEveryPhase :
    ∀ p ∈ [Phase.idle, .setup, .search],
      (feeding [.command 1] [.mover .reset, .mover .host] { waiting with phase := p }).env.sched =
        .mover .reset :: [.mover .host] := by
  intro p _
  rfl

/-- The invariant does not depend on the model's own part, but for the epoch. -/
theorem feeding_inv {s : State} (h : LaunchInv s) (p : List HostItem) (q : List Pick) : LaunchInv (feeding p q s) where
  memory := h.memory
  idle_pool := h.idle_pool
  pool := h.pool
  not_done := h.not_done
  barrier := h.barrier
  setup_state := h.setup_state
  claim := h.claim
  workers hp g w hw :=
    have k := h.workers hp g w hw
    ⟨k.it_le, k.wait_it, k.eval_it, k.latches, k.written, k.earlier, k.exited⟩
  winner := h.winner

/-- Worker 0 moves. -/
theorem step_moving {s : State} {w : Worker} {i : Instr} (hw : worker? s 0 = some w)
    (hi : workerInstr 0 w.phase = some i) (hf : i.wf = true) :
    step (feeding [] [.mover (.worker 0)] s) = exec i (feeding [] [] s) := by
  have h : fetch (feeding [] [.mover (.worker 0)] s) = .run i (feeding [] [] s) := by
    change fetchMover (.worker 0) (feeding [] [] s) = _
    have hw' : worker? (feeding [] [] s) 0 = some w := hw
    simp only [fetchMover, hw', hi]
  simp only [step, h, hf, if_true]

theorem witness_EveryStepKeepsTheInvariant :
    let s := feeding [] [.mover (.worker 0)] waiting
    LaunchInv s ∧ step s = .next (waitStep 0 (feeding [] [] waiting)) :=
  ⟨feeding_inv waiting_inv _ _, step_moving (w := workerAt .wait 0) (i := .wait 0) rfl rfl rfl⟩

/-- With a winner, and with no candidate at all. -/
theorem witness_CompletedLaunchOutcome :
    (LaunchInv published ∧ published.phase = .search ∧ (∀ w ∈ published.workers, w.phase = .exited) ∧
      exec .complete published = .next (completeStep published)) ∧
    (LaunchInv spent ∧ spent.phase = .search ∧ (∀ w ∈ spent.workers, w.phase = .exited) ∧
      exec .complete spent = .next (completeStep spent)) := by
  refine ⟨⟨published_inv, rfl, witness_CompleteEndsTheLaunch.2.2, rfl⟩, spent_inv, rfl, ?_, rfl⟩
  intro w hw
  rw [show spent.workers = [workerAt .exited 0] from rfl] at hw
  simp_all [workerAt]

theorem witness_PublishedResultIsASolution :
    LaunchInv published ∧ published.phase = .search ∧ published.found = .published := ⟨published_inv, rfl, rfl⟩

theorem witness_EveryFirstMatchCanWin :
    LaunchInv waiting ∧ waiting.phase = .search ∧ waiting.found = .unset ∧ (∀ w ∈ waiting.workers, w.phase = .wait) ∧
    (0 : Word).toNat < waiting.job.numWorkers.toNat ∧ FirstMatch waiting 0 0 := by
  refine ⟨waiting_inv, rfl, rfl, ?_, by decide, waiting_firstMatch⟩
  intro w hw
  rw [show waiting.workers = [workerAt .wait 0] from rfl] at hw
  simp_all [workerAt]

/-- The SETUP step, a step that raises the flag, and the COMPLETE step. -/
theorem witness_FoundOnlyRisesWithinALaunch :
    (let s := feeding [] [.mover .setup] (launch (idleJob 1 3))
     s.phase = .setup ∧ s.phase ≠ .idle ∧ ∃ t, step s = .next t ∧ t.env.epoch = s.env.epoch ∧ t.phase = .search) ∧
    (let s := moving .claimed (workerAt .publish 1)
     s.phase ≠ .idle ∧ ∃ t, step s = .next t ∧ t.env.epoch = s.env.epoch ∧ t.found = .published) ∧
    (let s := feeding [] [.mover .setup] (searching .published (workerAt .exited 1))
     s.phase ≠ .idle ∧ ∃ t, step s = .next t ∧ t.env.epoch = s.env.epoch ∧ t.phase = .idle) :=
  ⟨⟨rfl, by decide, _, rfl, rfl, rfl⟩, ⟨by decide, _, rfl, rfl, rfl⟩, by decide, _, rfl, rfl, rfl⟩

/-- A launch of no worker, before its SETUP step. -/
theorem setup_inv : LaunchInv (launch (idleJob 0 3)) where
  memory := (by decide +kernel : Memory.wf targetAllF = true)
  idle_pool h := nomatch h
  pool _ := rfl
  not_done _ := rfl
  barrier _ := ⟨rfl, fun _ h => nomatch h⟩
  setup_state h := nomatch h
  claim := rfl
  workers h := nomatch h
  winner h := nomatch h

/-- During SEARCH and during SETUP. -/
theorem witness_JobIsFrozenDuringALaunch :
    (let s := feeding [.txn 0x4024 5] [.mover .host] writing
     LaunchInv s ∧ s.phase ≠ .idle ∧ s.phase = .search ∧ ∃ t, step s = .next t ∧ t.env.epoch = s.env.epoch) ∧
    (let s := feeding [] [.mover .setup] (launch (idleJob 0 3))
     LaunchInv s ∧ s.phase ≠ .idle ∧ ∃ t, step s = .next t ∧ t.env.epoch = s.env.epoch) :=
  ⟨⟨feeding_inv writing_inv _ _, by decide, rfl, _, rfl, rfl⟩, feeding_inv setup_inv _ _, by decide, _, rfl, rfl⟩

/-- The winner's store changes byte 0 of RESULT_NONCE from 0 to '0'. -/
theorem witness_ResultIsWrittenByTheWinnerOnly :
    let s := feeding [] [.mover (.worker 0)] writing
    let t := writeResultStep 0 (feeding [] [] writing)
    LaunchInv s ∧ step s = .next t ∧ t.env.epoch = s.env.epoch ∧ bufByte t 0x200 ≠ bufByte s 0x200 := by
  refine ⟨feeding_inv writing_inv _ _, step_moving (w := matched .write 0) (i := .writeResult 0) rfl rfl rfl, rfl, ?_⟩
  have h1 : bufByte (writeResultStep 0 (feeding [] [] writing)) 0x200 = 0x30 := by decide +kernel
  have h2 : bufByte (feeding [] [.mover (.worker 0)] writing) 0x200 = 0 := by decide +kernel
  rw [h1, h2]
  decide

/-- A worker in EVAL stays there while the host moves. -/
theorem witness_NoEvaluationStartsAfterAClaim :
    let s := feeding [] [.mover .host] (searching .claimed (workerAt .eval 1))
    s.phase = .search ∧ s.found ≠ .unset ∧ ∃ t, step s = .next t ∧ worker? t 0 = some (workerAt .eval 1) ∧
      (workerAt .eval 1).phase = .eval := ⟨rfl, by decide, _, rfl, rfl, rfl⟩

theorem witness_WorkerStepsAreBounded :
    ((idleJob 1 3).phase = .idle ∧ exec .start (idleJob 1 3) = .next (launch (idleJob 1 3)) ∧
      freshWorker 0 0 ∈ (launch (idleJob 1 3)).workers) ∧
    (let s := feeding [] [.mover (.worker 0)] waiting
     LaunchInv s ∧ s.phase = .search ∧ worker? s 0 = some (workerAt .wait 0) ∧ (workerAt .wait 0).phase ≠ .exited ∧
     ∃ t, step s = .next t ∧ t.phase = .search ∧ worker? t 0 = some (workerAt .poll 0)) := by
  refine ⟨⟨rfl, rfl, ?_⟩, feeding_inv waiting_inv _ _, rfl, rfl, by decide, _, rfl, rfl, rfl⟩
  rw [show (launch (idleJob 1 3)).workers = [freshWorker 0 0] from rfl]
  simp

/-- While the host has nothing to say, every agent's step answers a next state. -/
theorem stepAs_quiet (m : Mover) {s : State} (h : s.env.hostProg = []) :
    ∃ t, stepAs m s = .next t ∧ t.env.hostProg = [] := by
  have key : ∀ g p (f : Worker → State), (∀ w, (f w).env.hostProg = []) → (workerStep g p f s).env.hostProg = [] := by
    intro g p f hf
    rcases workerStep_cases g p f s with ⟨w, -, -, e⟩ | ⟨-, e⟩ <;> rw [e]
    · exact hf w
    · exact h
  rw [stepAs_eq]
  cases m with
  | host => exact ⟨s, by simp [fetchMover, h], h⟩
  | reset => exact ⟨_, rfl, h⟩
  | setup =>
    cases hp : s.phase <;> simp only [fetchMover, setupInstr, hp]
    · exact ⟨_, rfl, h⟩
    · exact ⟨setupStep s, by simp [exec, execSetup, hp, Instr.wf], h⟩
    · refine ⟨completeStep s, rfl, ?_⟩
      unfold completeStep
      split <;> exact h
  | worker g =>
    cases hw : worker? s g with
    | none => exact ⟨s, by simp [fetchMover, hw], h⟩
    | some w =>
      cases hp : w.phase <;> simp only [fetchMover, workerInstr, hw, hp]
      · refine ⟨waitStep g s, rfl, ?_⟩
        unfold waitStep
        split <;> [exact key _ _ _ (fun _ => h); exact h]
      · exact ⟨pollStep g s, rfl, key _ _ _ (fun _ => by (repeat' split) <;> exact h)⟩
      · exact ⟨evalStep g s, rfl, key _ _ _ (fun _ => by simp only []; split <;> exact h)⟩
      · exact ⟨claimStep g s, rfl, key _ _ _ (fun _ => by split <;> exact h)⟩
      · exact ⟨writeResultStep g s, rfl, key _ _ _ (fun _ => h)⟩
      · exact ⟨publishStep g s, rfl, key _ _ _ (fun _ => h)⟩
      · exact ⟨s, rfl, h⟩

/-- The states of the run in which the agents take turns. -/
def turns (s : State) : Nat → State
  | 0 => s
  | n + 1 =>
    match stepAs (roundRobin n) (turns s n) with
    | .next t => t
    | _ => turns s n

theorem turns_fair {s : State} (h : s.env.hostProg = []) : FairRun roundRobin (turns s) := by
  have quiet : ∀ n, (turns s n).env.hostProg = [] := by
    intro n
    induction n with
    | zero => exact h
    | succ n ih =>
      obtain ⟨t, e, ht⟩ := stepAs_quiet (roundRobin n) ih
      rw [turns, e]
      exact ht
  refine fairRun_roundRobin fun n => ?_
  obtain ⟨t, e, -⟩ := stepAs_quiet (roundRobin n) (quiet n)
  rw [turns, e]

/-- In SEARCH, and the block's enabled agents in each phase of a launch; a fair run of the launch; and inputs that all
name operations. -/
theorem witness_EveryLaunchCanComplete :
    (LaunchInv waiting ∧ waiting.phase ≠ .idle ∧ enabled (.worker 0) waiting = true ∧ enabled .setup published = true ∧
      enabled .setup { State.reset with phase := .setup } = true ∧ blockMover (.worker 0) = true ∧
      blockMover .setup = true) ∧
    (FairRun roundRobin (turns waiting) ∧ LaunchInv (turns waiting 0) ∧ (turns waiting 0).phase ≠ .idle) ∧
    feedOk (feeding [.command 1, .waitdone] [.mover .host, .issue 0x06 []] waiting) = true :=
  ⟨⟨waiting_inv, by decide, by decide, by decide, by decide, by decide, by decide⟩,
   ⟨turns_fair rfl, waiting_inv, by decide⟩, by decide⟩

theorem witness_EmptyLaunchCompletes : State.reset.phase = .idle ∧ State.reset.job.numWorkers = 0 := ⟨rfl, rfl⟩

end Sys2Proof.Tests
end

