-- ==== Sys2Proof/Proofs/DigestAndTarget.lean ====
section
/-! PROOFS. The two facts that make a published result a solution: the digest from the cached midstate is SHA-256 of the
whole message (rule R187), and COMPARE orders byte strings as the numbers they are (rule R202). -/

namespace Sys2Proof.Machine

/-! SHA-256 chains COMPRESS over any cutting of the padded message into blocks. -/

theorem blockAt_zero_append (b : Bytes 64) (l : List Byte) : blockAt (b.val ++ l) 0 = b := by
  apply Subtype.ext
  apply List.ext_getElem (by rw [(blockAt _ 0).property, b.property])
  intro i _ hi
  simp only [blockAt, tabulate, List.getElem_map, List.getElem_range, Nat.mul_zero, Nat.zero_add]
  rw [List.getD_append _ _ _ _ hi, List.getD_eq_getElem _ _ hi]

theorem blockAt_succ_append (b : Bytes 64) (l : List Byte) (k : Nat) :
    blockAt (b.val ++ l) (k + 1) = blockAt l k := by
  have byte (i : Nat) : (b.val ++ l).getD (64 * (k + 1) + i) 0 = l.getD (64 * k + i) 0 := by
    rw [List.getD_append_right _ _ _ _ (by rw [b.property]; omega), b.property]
    congr 1; omega
  simp only [blockAt, byte]

theorem flatMap_val_length (bs : List (Bytes 64)) : (bs.flatMap Subtype.val).length = 64 * bs.length := by
  induction bs with
  | nil => rfl
  | cons b bs ih => simp only [List.flatMap_cons, List.length_append, b.property, ih, List.length_cons]; omega

/-- Cutting the concatenation of blocks into blocks gives them back. -/
theorem map_blockAt_flatMap_val (bs : List (Bytes 64)) :
    (List.range bs.length).map (blockAt (bs.flatMap Subtype.val)) = bs := by
  induction bs with
  | nil => rfl
  | cons b bs ih =>
    have later : blockAt (b.val ++ bs.flatMap Subtype.val) ∘ Nat.succ = blockAt (bs.flatMap Subtype.val) :=
      funext (blockAt_succ_append b _)
    rw [List.length_cons, List.range_succ_eq_map, List.map_cons, List.map_map, List.flatMap_cons, blockAt_zero_append,
      later, ih]

/-- Rule R130: SHA-256 of a message whose padding is the concatenation of some blocks. -/
theorem sha256_of_blocks {msg : List Byte} {bs : List (Bytes 64)} (h : padMessage msg = bs.flatMap Subtype.val) :
    sha256 msg = digestBytes (bs.foldl compress hInit) := by
  have count : (padMessage msg).length / 64 = bs.length := by rw [h, flatMap_val_length]; omega
  rw [sha256, count, h, ← List.foldl_map, map_blockAt_flatMap_val]

/-! The clamped PREFIX is the absorbed blocks followed by the captured tail (rules R141 to R143). -/

theorem prefixBytes_length (s : State) (n : Nat) : (prefixBytes s n).length = n := by simp [prefixBytes]

theorem prefixBytes_add (s : State) (m n : Nat) :
    prefixBytes s (m + n) = prefixBytes s m ++ (List.range n).map (fun i => prefixByte s (m + i)) := by
  simp [prefixBytes, List.range_add, Function.comp_def]

theorem flatMap_prefixBlock (s : State) (n : Nat) :
    ((List.range n).map (prefixBlock s)).flatMap Subtype.val = prefixBytes s (64 * n) := by
  induction n with
  | zero => rfl
  | succ n ih =>
    rw [List.range_succ, List.map_append, List.flatMap_append, ih, Nat.mul_succ, prefixBytes_add]
    simp [prefixBlock, tabulate]

theorem take_captureTail (s : State) (p : Fin 8193) :
    (captureTail s p).val.take (tailLenOf p).val =
      (List.range (tailLenOf p).val).map (fun i => prefixByte s (64 * nblk p + i)) := by
  rw [captureTail, tabulate, ← List.map_take, List.take_range, Nat.min_eq_left (by omega)]
  apply List.map_congr_left
  intro i hi
  rw [if_pos (List.mem_range.1 hi)]

theorem prefixBytes_eq_blocks_append_tail (s : State) (p : Fin 8193) :
    prefixBytes s p.val = prefixBytes s (64 * nblk p) ++ (captureTail s p).val.take (tailLenOf p).val := by
  have hp : p.val = 64 * nblk p + (tailLenOf p).val := (Nat.div_add_mod p.val 64).symm
  rw [take_captureTail, ← prefixBytes_add, ← hp]

/-! The final blocks are the tail, the nonce hex and the padding, in either layout (rules R181 to R184). -/

theorem zeros_append (m n : Nat) : zeros m ++ zeros n = zeros (m + n) := List.replicate_append_replicate

theorem finalBlocks_flatMap_val (tail : Bytes 64) (r : Fin 64) (bitlen : Long) (hex : Bytes 64) :
    (finalBlocks tail r bitlen hex).flatMap Subtype.val =
      tail.val.take r.val ++ hex.val ++ [0x80] ++ zeros ((119 - r.val) % 64) ++ be64bytes bitlen := by
  have hexEnd : (hex.val.drop (64 - r.val)).take (64 - (64 - r.val)) = hex.val.drop (64 - r.val) :=
    List.take_of_length_le (by rw [List.length_drop, hex.property])
  have hexWhole (l : List Byte) : hex.val.take (64 - r.val) ++ (hex.val.drop (64 - r.val) ++ l) = hex.val ++ l := by
    rw [← List.append_assoc, List.take_append_drop]
  unfold finalBlocks
  split
  · have hz : (119 - r.val) % 64 = 55 - r.val := by omega
    simp [blockA, blockBShort, slice, hexEnd, hexWhole, hz]
  · have hz : (119 - r.val) % 64 = 63 - r.val + 56 := by omega
    simp [blockA, blockBLong, blockC, slice, hexEnd, hexWhole, hz, ← zeros_append]

theorem padMessage_prefix_append_hex (s : State) (p : Fin 8193) (hex : Bytes 64) :
    padMessage (prefixBytes s p.val ++ hex.val) =
      ((List.range (nblk p)).map (prefixBlock s) ++
        finalBlocks (captureTail s p) (tailLenOf p) (bitlenOf p) hex).flatMap Subtype.val := by
  have len : (prefixBytes s p.val ++ hex.val).length = p.val + 64 := by
    rw [List.length_append, prefixBytes_length, hex.property]
  have bits : BitVec.ofNat 64 (8 * (p.val + 64)) = bitlenOf p := by rw [bitlenOf, Config.nonceHexLen, Nat.mul_comm]
  have rest : (p.val + 64) % 64 = (tailLenOf p).val := Nat.add_mod_right ..
  rw [padMessage, len, bits, rest, List.flatMap_append, flatMap_prefixBlock, finalBlocks_flatMap_val,
    prefixBytes_eq_blocks_append_tail]
  simp only [List.append_assoc]

/-- Rule R187: the cached midstate gives a candidate the SHA-256 digest of the clamped PREFIX and the nonce hex. -/
theorem candidateDig_setupOf_eq_sha256 (s : State) (hex : Bytes 64) :
    candidateDig (setupOf s) hex = sha256 (prefixBytes s (clampLen s.job.prefixLen).val ++ hex.val) := by
  rw [sha256_of_blocks (padMessage_prefix_append_hex s _ hex), List.foldl_append, List.foldl_map]
  rfl

/-! Lexicographic order of byte strings of one length is the order of the numbers (rules R202 and R203). -/

theorem foldl_beNat (l : List Byte) (a : Nat) :
    l.foldl (fun n b => 256 * n + b.toNat) a = a * 256 ^ l.length + beNat l := by
  induction l generalizing a with
  | nil => simp [beNat]
  | cons b l ih =>
    simp only [beNat, List.foldl_cons, List.length_cons] at ih ⊢
    rw [ih (256 * a + b.toNat), ih (256 * 0 + b.toNat)]
    ring

theorem beNat_cons (b : Byte) (l : List Byte) : beNat (b :: l) = b.toNat * 256 ^ l.length + beNat l := by
  rw [← foldl_beNat]; simp [beNat]

theorem beNat_lt (l : List Byte) : beNat l < 256 ^ l.length := by
  induction l with
  | nil => decide
  | cons b l ih =>
    have hb : b.toNat + 1 ≤ 256 := b.isLt
    calc beNat (b :: l) = b.toNat * 256 ^ l.length + beNat l := beNat_cons b l
      _ < (b.toNat + 1) * 256 ^ l.length := by rw [Nat.succ_mul]; omega
      _ ≤ 256 * 256 ^ l.length := Nat.mul_le_mul_right _ hb
      _ = 256 ^ (b :: l).length := by rw [List.length_cons, pow_succ']

/-- A smaller first byte decides: what follows it is below one unit of the first byte. -/
theorem beNat_cons_lt_of_lt {b c : Byte} {l m : List Byte} (h : b < c) (hl : l.length = m.length) :
    beNat (b :: l) < beNat (c :: m) := by
  have hbc : b.toNat + 1 ≤ c.toNat := h
  calc beNat (b :: l) = b.toNat * 256 ^ l.length + beNat l := beNat_cons b l
    _ < (b.toNat + 1) * 256 ^ l.length := by have := beNat_lt l; rw [Nat.succ_mul]; omega
    _ ≤ c.toNat * 256 ^ m.length := hl ▸ Nat.mul_le_mul_right _ hbc
    _ ≤ beNat (c :: m) := by rw [beNat_cons]; omega

theorem digestLe_iff_beNat_le {d t : List Byte} (h : d.length = t.length) :
    digestLe d t = true ↔ beNat d ≤ beNat t := by
  induction d generalizing t with
  | nil => simp [digestLe, beNat]
  | cons b d ih =>
    cases t with
    | nil => simp at h
    | cons c t =>
      have hl : d.length = t.length := by simpa using h
      rcases Nat.lt_trichotomy b.toNat c.toNat with hlt | heq | hgt
      · have hbc : b < c := hlt
        simp [digestLe, hbc, (beNat_cons_lt_of_lt hbc hl).le]
      · obtain rfl := BitVec.eq_of_toNat_eq heq
        simp [digestLe, beNat_cons, hl, ih hl]
      · have hcb : c < b := hgt
        have hbc : ¬ b < c := Nat.lt_asymm hgt
        simp [digestLe, hcb, hbc, beNat_cons_lt_of_lt hcb hl.symm]

/-! The decoded target is the number of its characters (rule R201). -/

theorem toNat_nibbles (hi lo : BitVec 4) : (hi ++ lo : Byte).toNat = 16 * hi.toNat + lo.toNat := by
  rw [BitVec.toNat_append, ← Nat.shiftLeft_add_eq_or_of_lt lo.isLt, Nat.shiftLeft_eq, Nat.mul_comm]

/-- A byte string of nibble pairs is, as a number, the nibbles in order. -/
theorem beNat_nibblePairs (f : Nat → BitVec 4) (n : Nat) :
    beNat ((List.range n).map (fun k => f (2 * k) ++ f (2 * k + 1))) =
      (List.range (2 * n)).foldl (fun a i => 16 * a + (f i).toNat) 0 := by
  induction n with
  | zero => rfl
  | succ n ih =>
    rw [Nat.mul_succ, List.range_succ, List.range_succ, List.range_succ]
    simp only [beNat, List.map_append, List.foldl_append, List.map_cons, List.map_nil, List.foldl_cons,
      List.foldl_nil, toNat_nibbles] at ih ⊢
    rw [ih]; ring

theorem beNat_decodeTarget (s : State) :
    beNat (decodeTarget s).val = (List.range 64).foldl (fun n i => 16 * n + (hexNibble (targetChar s i)).toNat) 0 :=
  beNat_nibblePairs (fun i => hexNibble (targetChar s i)) 32

/-- Rule R202 for a candidate of the job: a match is a digest not above the target. -/
theorem candidateMatches_iff (s : State) (g it : Word) :
    candidateMatches s g it = true ↔ beNat (candidateDigest s g it).val ≤ beNat (decodeTarget s).val :=
  digestLe_iff_beNat_le ((candidateDigest s g it).property.trans (decodeTarget s).property.symm)

/-- Settles O52: the invariant's winner is a matching candidate that the result windows hold; its digest is SHA-256 by
rule R187, and its match is the numeric comparison by rules R201 and R202. -/
theorem publishedResultIsASolution : Obligations.PublishedResultIsASolution := by
  intro s hinv hsearch hfound
  obtain ⟨g, it, -, ⟨-, hmatch, -⟩, hnonce, hdigest⟩ := hinv.winner hsearch hfound
  constructor
  · rw [hdigest, hnonce, candidateDigest, candidateDig_setupOf_eq_sha256]
    rfl
  · rw [hdigest]
    exact ((candidateMatches_iff s g it).1 hmatch).trans_eq (beNat_decodeTarget s)

end Sys2Proof.Machine
end

section
/-! PROOFS. One inversion lemma says what any step does to the block; the invariant of a launch (rules R42 to R46, R72
to R74 and R212 to R214) and the facts of rules R23, R31, R34 and R212 follow from its cases. -/

namespace Sys2Proof.Machine

/-! ## What a step does to the block -/

theorem SameBlock.worker? {s t : State} (h : SameBlock s t) (g : Word) : worker? t g = worker? s g := by
  simp only [Machine.worker?, h.workers]

theorem SameBlock.bufByte {s t : State} (h : SameBlock s t) (a : Nat) : bufByte t a = bufByte s a :=
  bufByte_congr h.mem h.epoch a

theorem SameBlock.launchInv {s t : State} (h : SameBlock s t) (k : LaunchInv s) : LaunchInv t :=
  inv_congr k h.job h.mem h.epoch h.found h.phase h.done h.workers fun _ => h.setup

/-- The aligned offsets of TARGET_HEX and PREFIX, the words a job buffer write may name (10_state.md rules R32, R33). -/
def JobWord (a : Nat) : Prop := a % 4 = 0 ∧ (0x100 ≤ a ∧ a < 0x140 ∨ 0x2000 ≤ a ∧ a < 0x4000)

/-- What WRITE_RESULT makes of the buffers: the candidate latches in the result windows (rule R213). -/
def storeLatches (w : Worker) (s : State) : State :=
  writeBytes (writeBytes s resultNonceBase w.candHex.val) resultDigestBase w.candDig.val

@[simp] theorem storeLatches_found (w : Worker) (s : State) : (storeLatches w s).found = s.found := rfl

/-- What the enabled step of WORKER[g], in state `w`, leads to: each way its phase can move on. -/
inductive WorkerMove (s : State) (g : Word) (w : Worker) : State → Prop
  | released (hp : w.phase = .wait) (hs : s.phase = .search) :
    WorkerMove s g w (setWorker g { w with phase := .poll } s)
  | spent (hp : w.phase = .poll) (hb : budget s.job ≤ w.it.toNat) :
    WorkerMove s g w (setWorker g { w with phase := .exited } s)
  | stopped (hp : w.phase = .poll) (hf : s.found ≠ .unset) :
    WorkerMove s g w (setWorker g { w with phase := .exited } s)
  | admitted (hp : w.phase = .poll) (hb : w.it.toNat < budget s.job) (hf : s.found = .unset) :
    WorkerMove s g w (setWorker g { w with phase := .eval } s)
  | matched (hp : w.phase = .eval) (hex : Bytes 64) (dig : Bytes 32) (hh : hex = candidateHex s.job g w.it)
    (hd : dig = candidateDig s.setup hex) (hm : digestLe dig.val s.setup.tgt.val = true) :
    WorkerMove s g w (setWorker g { w with candHex := hex, candDig := dig, phase := .claim } s)
  | missed (hp : w.phase = .eval) (hex : Bytes 64) (dig : Bytes 32) (hh : hex = candidateHex s.job g w.it)
    (hd : dig = candidateDig s.setup hex) (hm : digestLe dig.val s.setup.tgt.val = false) :
    WorkerMove s g w (setWorker g { w with candHex := hex, candDig := dig, it := w.it + 1, phase := .poll } s)
  | won (hp : w.phase = .claim) (hf : s.found = .unset) :
    WorkerMove s g w { setWorker g { w with phase := .write } s with found := .claimed }
  | lost (hp : w.phase = .claim) (hf : s.found ≠ .unset) :
    WorkerMove s g w (setWorker g { w with it := w.it + 1, phase := .poll } s)
  | stored (hp : w.phase = .write) :
    WorkerMove s g w (setWorker g { w with phase := .publish } (storeLatches w s))
  | published (hp : w.phase = .publish) :
    WorkerMove s g w { setWorker g { w with it := w.it + 1, phase := .poll } s with found := .published }

/-- What an operation does to the block, whichever operation it is. -/
inductive BlockEffect (s : State) : State → Prop
  | none : BlockEffect s s
  | jobReg (hp : s.phase = .idle) (r : JobReg) (v : Word) : BlockEffect s (setReg r v s)
  | jobBuffer (hp : s.phase = .idle) (a : Nat) (ha : JobWord a) (v : Word) :
    BlockEffect s (writeBytes s a (laneBytes v))
  | started (hp : s.phase = .idle) : BlockEffect s (launch s)
  /-- A setup operation run alone (log entry 11) gives the setup state of the job back where it holds already. -/
  | setupPiece (u : Setup) (hu : s.setup = setupOf s → u = s.setup) : BlockEffect s { s with setup := u }
  | setupDone (hp : s.phase = .setup) : BlockEffect s { s with phase := .search, setup := setupOf s }
  | completed (hp : s.phase = .search) (hx : allExited s = true) :
    BlockEffect s { s with phase := .idle, done := true, workers := [] }
  | worker (g : Word) (w : Worker) (hw : worker? s g = some w) (t : State) (hm : WorkerMove s g w t) : BlockEffect s t

/-- `t` is what one of the block's effects makes of `s`, with the model's own record moved on. -/
def Affects (s t : State) : Prop := ∃ v, BlockEffect s v ∧ SameBlock v t

theorem BlockEffect.affects {s t : State} (h : BlockEffect s t) : Affects s t := ⟨t, h, .refl t⟩

theorem SameBlock.affects {s t : State} (h : SameBlock s t) : Affects s t := ⟨s, .none, h⟩

theorem Affects.trans {s t u : State} (h : Affects s t) (k : SameBlock t u) : Affects s u :=
  let ⟨v, hv, hs⟩ := h
  ⟨v, hv, hs.trans k⟩

/-! Each shared operation has one of the effects. -/

theorem writeReg_effect (r : JobReg) (v : Word) (s : State) : BlockEffect s (writeReg r v s) := by
  rcases jobWrite_cases (setReg r v) s with ⟨hp, e⟩ | ⟨-, e⟩ <;> rw [writeReg, e]
  · exact .jobReg hp r v
  · exact .none

theorem writeWindow_effect {a : Nat} (ha : JobWord a) (v : Word) (s : State) : BlockEffect s (writeWindow a v s) := by
  rcases jobWrite_cases (fun s => writeBytes s a (laneBytes v)) s with ⟨hp, e⟩ | ⟨-, e⟩ <;> rw [writeWindow, e]
  · exact .jobBuffer hp a ha v
  · exact .none

theorem commandWrite_effect (v : Word) (s : State) : BlockEffect s (commandWrite v s) := by
  rcases commandWrite_cases v s with ⟨-, hp, e⟩ | ⟨-, e⟩ <;> rw [e]
  · exact .started hp
  · exact .none

theorem busWrite_effect (off : BitVec 14) (v : Word) (s : State) : BlockEffect s (busWrite off v s) := by
  rcases busWrite_cases off v s with e | e | ⟨r, e⟩ | ⟨a, ha, rfl, e⟩ <;> rw [e]
  · exact .none
  · exact commandWrite_effect v s
  · exact writeReg_effect r v s
  · obtain ⟨haligned, hlt, -⟩ := alignedOff_spec off
    exact writeWindow_effect ⟨haligned, ha.imp_right fun h => ⟨h, hlt⟩⟩ v s

theorem startCommand_effect (s : State) : BlockEffect s (startCommand s) := commandWrite_effect 1 s

theorem jobWord_targetHex (k : BitVec 4) : JobWord (windowOff targetHexBase k.toNat) := by
  have := k.isLt
  simp only [JobWord, windowOff, targetHexBase]
  omega

theorem jobWord_prefix (k : BitVec 11) : JobWord (windowOff prefixBase k.toNat) := by
  have := k.isLt
  simp only [JobWord, windowOff, prefixBase]
  omega

/-- The SETUP step writes the setup state of the job and releases the barrier (45_launch_control.md rule R234). -/
theorem setupStep_eq (s : State) : setupStep s = { s with phase := .search, setup := setupOf s } := by
  rw [setupStep, setupCompute_eq]

theorem execSetup_effect (s : State) : BlockEffect s (if s.phase = .setup then setupStep s else s) := by
  split
  · next hp => exact setupStep_eq s ▸ .setupDone hp
  · exact .none

theorem completeStep_effect (s : State) : BlockEffect s (completeStep s) := by
  unfold completeStep
  split
  · next h => exact .completed h.1 h.2
  · exact .none

/-- A worker's step has an effect once every move of an enabled worker is one. -/
theorem workerStep_effect {g : Word} {p : WPhase} {f : Worker → State} {s : State}
    (h : ∀ w, w.phase = p → WorkerMove s g w (f w)) : BlockEffect s (workerStep g p f s) := by
  rcases workerStep_cases g p f s with ⟨w, hw, hp, e⟩ | ⟨-, e⟩ <;> rw [e]
  · exact .worker g w hw _ (h w hp)
  · exact .none

theorem waitStep_effect (g : Word) (s : State) : BlockEffect s (waitStep g s) := by
  unfold waitStep
  split
  · next hs => exact workerStep_effect fun w hp => .released hp hs
  · exact .none

theorem pollStep_effect (g : Word) (s : State) : BlockEffect s (pollStep g s) := by
  refine workerStep_effect fun w hp => ?_
  split
  · next hb => exact .spent hp hb
  · next hb =>
    split
    · next hf => exact .stopped hp hf
    · next hf => exact .admitted hp (Nat.not_le.1 hb) (not_not.1 hf)

theorem evalStep_effect (g : Word) (s : State) : BlockEffect s (evalStep g s) := by
  refine workerStep_effect fun w hp => ?_
  simp only []
  split
  · next hm => exact .matched hp _ _ rfl rfl hm
  · next hm => exact .missed hp _ _ rfl rfl (Bool.eq_false_of_not_eq_true hm)

theorem claimStep_effect (g : Word) (s : State) : BlockEffect s (claimStep g s) := by
  refine workerStep_effect fun w hp => ?_
  split
  · next hf => exact .won hp hf
  · next hf => exact .lost hp hf

theorem writeResultStep_effect (g : Word) (s : State) : BlockEffect s (writeResultStep g s) :=
  workerStep_effect fun _ hp => .stored hp

theorem publishStep_effect (g : Word) (s : State) : BlockEffect s (publishStep g s) :=
  workerStep_effect fun _ hp => .published hp

/-! The setup operations run alone (log entry 11): each recomputes its piece from the job. -/

theorem clampPrefix_effect (s : State) : BlockEffect s (clampPrefix s) :=
  .setupPiece { s.setup with plen := clampLen s.job.prefixLen } fun h => by rw [h]; rfl

theorem absorbMidstate_effect (s : State) : BlockEffect s (absorbMidstate s) :=
  .setupPiece { s.setup with midH := absorb s s.setup.plen } fun h => by rw [h]; rfl

theorem writeTail_effect (s : State) : BlockEffect s (writeTail s) :=
  .setupPiece { s.setup with tail := captureTail s s.setup.plen, tailLen := tailLenOf s.setup.plen } fun h => by
    rw [h]; rfl

theorem writeBitlen_effect (s : State) : BlockEffect s (writeBitlen s) :=
  .setupPiece { s.setup with bitlen := bitlenOf s.setup.plen } fun h => by rw [h]; rfl

theorem targetDecode_effect (s : State) : BlockEffect s (targetDecode s) :=
  .setupPiece { s.setup with tgt := decodeTarget s } fun h => by rw [h]; rfl

theorem sameBlock_putResult (r : OpResult) (s : State) : SameBlock s (putResult r s) :=
  ⟨rfl, rfl, rfl, rfl, rfl, rfl, rfl, rfl⟩

/-- A pseudo-operation has the effect of the one transaction it issues (30_encoding.md rule R99). -/
theorem pseudo_affects {i : Instr} {s t : State} (hi : i.isPseudo = true) (e : exec i s = .next t) : Affects s t := by
  cases i with
  | wr64 off v => cases e; exact (busWrite_effect _ _ s).affects.trans (sameBlock_pushHost _ _)
  | wrbuf base bs =>
    simp only [exec, execWrbuf] at e
    split at e <;> [skip; split at e] <;> cases e
    · exact (SameBlock.refl s).affects
    · exact (busWrite_effect _ _ s).affects
    · exact (busWrite_effect _ _ s).affects.trans (sameBlock_pushHost _ _)
  | rdbuf base n =>
    simp only [exec, execRdbuf] at e
    split at e <;> [skip; split at e] <;> cases e
    · exact (SameBlock.refl s).affects
    · exact (sameBlock_hostRead _ s).affects
    · exact ((sameBlock_hostRead _ s).trans (sameBlock_pushHost _ _)).affects
  | waitdone =>
    simp only [exec, execWaitdone] at e
    split at e <;> cases e
    · exact (sameBlock_hostRead _ s).affects
    · exact ((sameBlock_hostRead _ s).trans (sameBlock_pushHost _ _)).affects
  | _ => cases hi

/-- Every operation has one of the block's effects. -/
theorem exec_affects {i : Instr} {s t : State} (e : exec i s = .next t) : Affects s t := by
  cases i with
  | rdCmd | rdStatus | rdFound | rdPrefixLen | rdStartNonceLo | rdStartNonceHi | rdNonceOffset | rdNonceStride
  | rdItersPerWorker | rdMode | rdNumWorkers | rdTargetHex | rdResultNonce | rdResultDigest | rdPrefix =>
    cases e; exact (sameBlock_hostRead _ s).affects
  | wrStatus | wrFound | wrResultNonce | wrResultDigest | nop | reservedCommand =>
    cases e; exact (SameBlock.refl s).affects
  | unmapped off dir =>
    cases dir <;> cases e
    · exact (sameBlock_hostRead _ s).affects
    · exact (SameBlock.refl s).affects
  | wrPrefixLen | wrStartNonceLo | wrStartNonceHi | wrNonceOffset | wrNonceStride | wrItersPerWorker | wrMode
  | wrNumWorkers =>
    cases e; exact (writeReg_effect _ _ s).affects
  | wrTargetHex k v => cases e; exact (writeWindow_effect (jobWord_targetHex k) v s).affects
  | wrPrefix k v => cases e; exact (writeWindow_effect (jobWord_prefix k) v s).affects
  | wrCmd v => cases e; exact (commandWrite_effect v s).affects
  | start => cases e; exact (startCommand_effect s).affects
  | compress | nonceDerive | nonceBytes | nonceHex | finalBlocks | finalize | hexNibble | compare =>
    cases e; exact (sameBlock_putResult _ s).affects
  | prefixClamp => cases e; exact (clampPrefix_effect s).affects
  | midstateAbsorb => cases e; exact (absorbMidstate_effect s).affects
  | tailCapture => cases e; exact (writeTail_effect s).affects
  | bitlenCompute => cases e; exact (writeBitlen_effect s).affects
  | targetDecode => cases e; exact (targetDecode_effect s).affects
  | setup => cases e; exact (execSetup_effect s).affects
  | complete => cases e; exact (completeStep_effect s).affects
  | wait g => cases e; exact (waitStep_effect g s).affects
  | poll g => cases e; exact (pollStep_effect g s).affects
  | eval g => cases e; exact (evalStep_effect g s).affects
  | claim g => cases e; exact (claimStep_effect g s).affects
  | writeResult g => cases e; exact (writeResultStep_effect g s).affects
  | publish g => cases e; exact (publishStep_effect g s).affects
  | wr64 | wrbuf | rdbuf | waitdone => exact pseudo_affects rfl e

/-- The state that what was fetched is done from. -/
def Fetched.state? : Fetched → Option State
  | .run _ u | .hold u | .reset u => some u
  | .bad _ => none

theorem sameBlock_env (s : State) {e : Env} (h : e.epoch = s.env.epoch) : SameBlock s { s with env := e } :=
  ⟨rfl, rfl, h, rfl, rfl, rfl, rfl, rfl⟩

theorem fetchMover_sameBlock {m : Mover} {s u : State} (h : (fetchMover m s).state? = some u) : SameBlock s u := by
  rcases fetchMover_cases m s with ⟨it, rest, -, -, e⟩ | ⟨i, -, -, e⟩ | ⟨g, w, i, -, -, -, e⟩ | ⟨-, e⟩ | e <;>
    rw [e] at h <;> cases h
  · exact sameBlock_env s rfl
  all_goals exact .refl s

/-- Fetching moves the model's own part on and leaves the block as it is. -/
theorem fetch_sameBlock {s u : State} (h : (fetch s).state? = some u) : SameBlock s u := by
  unfold fetch at h
  split at h
  · next p ps _ =>
    cases p with
    | mover m => exact (sameBlock_env s (e := { s.env with sched := ps }) rfl).trans (fetchMover_sameBlock h)
    | issue id l =>
      simp only [fetchPick] at h
      split at h <;> cases h
      exact sameBlock_env s rfl
  · exact (sameBlock_env s (e := { s.env with draws := s.env.draws + 1 }) rfl).trans (fetchMover_sameBlock h)

/-- Everything one step can do to the block: one of the effects, or a reset. -/
theorem step_affects {s t : State} (h : step s = .next t) :
    (∃ u, SameBlock s u ∧ Affects u t) ∨ ∃ u, SameBlock s u ∧ t = resetBlock u := by
  rcases step_cases h with ⟨i, u, hf, -, e⟩ | hf | ⟨u, hf, rfl⟩
  · exact .inl ⟨u, fetch_sameBlock (by rw [hf]; rfl), exec_affects e⟩
  · exact .inl ⟨t, fetch_sameBlock (by rw [hf]; rfl), (SameBlock.refl t).affects⟩
  · exact .inr ⟨u, fetch_sameBlock (by rw [hf]; rfl), rfl⟩

/-- A step that does not count a reset has one of the block's effects. -/
theorem step_effect {s t : State} (h : step s = .next t) (he : t.env.epoch = s.env.epoch) :
    ∃ u v, SameBlock s u ∧ BlockEffect u v ∧ SameBlock v t := by
  rcases step_affects h with ⟨u, hu, v, hv, ht⟩ | ⟨u, hu, rfl⟩
  · exact ⟨u, v, hu, hv, ht⟩
  · rw [resetBlock_epoch, hu.epoch] at he
    omega

/-! ## The invariant, effect by effect -/

/-- A job buffer word lies inside the windows of TARGET_HEX and PREFIX. -/
theorem JobWord.inWindow {a : Nat} (h : JobWord a) {i : Nat} (hi : i < 4) : inWindow (a + i) = true := by
  rw [inWindow_iff]
  unfold JobWord at h
  omega

theorem inv_jobReg {s : State} (h : LaunchInv s) (hp : s.phase = .idle) (r : JobReg) (v : Word) :
    LaunchInv (setReg r v s) :=
  inv_idle (by simpa) (by simpa using h.idle_pool hp) (by simpa using h.found_idle hp) (by simpa using h.memory)

theorem inv_jobBuffer {s : State} (h : LaunchInv s) (hp : s.phase = .idle) {a : Nat} (ha : JobWord a) (v : Word) :
    LaunchInv (writeBytes s a (laneBytes v)) :=
  inv_idle hp (h.idle_pool hp) (h.found_idle hp) (Memory.wf_setMany _ h.memory fun _ hi => ha.inWindow hi)

/-- START creates every worker in WAIT (45_launch_control.md rule R231), so none holds the claim. -/
theorem inv_launch {s : State} (h : LaunchInv s) : LaunchInv (launch s) where
  memory := h.memory
  idle_pool hp := nomatch hp
  pool _ := by simp
  not_done _ := rfl
  barrier _ := by simp [freshWorker]
  setup_state hp := nomatch hp
  claim := by simp [freshWorker, holdsClaim]
  workers hp := nomatch hp
  winner hp := nomatch hp

theorem inv_setupPiece {s : State} (h : LaunchInv s) {u : Setup} (hu : s.setup = setupOf s → u = s.setup) :
    LaunchInv { s with setup := u } :=
  inv_congr h rfl rfl rfl rfl rfl rfl rfl fun hp => hu (h.setup_state hp)

/-- A worker that has done nothing yet is consistent with every job. -/
theorem workerOk_of_waiting {s : State} {g : Word} {w : Worker} (hp : w.phase = .wait) (hi : w.it = 0) :
    WorkerOk s g w where
  it_le := by simp [hi]
  wait_it _ := hi
  eval_it := by simp [hp]
  latches := by simp [hp]
  written := by simp [hp]
  earlier := by simp [hi]
  exited := by simp [hp]

/-- The SETUP step computes the setup state that SEARCH requires, and the workers it releases are still in WAIT. -/
theorem inv_setupDone {s : State} (h : LaunchInv s) (hp : s.phase = .setup) :
    LaunchInv { s with phase := .search, setup := setupOf s } := by
  have hbusy : s.phase ≠ .idle := by simp [hp]
  have hfound : s.found = .unset := (h.barrier hp).1
  exact {
    memory := h.memory
    idle_pool := fun hi => nomatch hi
    pool := fun _ => h.pool hbusy
    not_done := fun _ => h.not_done hbusy
    barrier := fun hb => nomatch hb
    setup_state := fun _ => setupOf_congr (.of_mem rfl rfl rfl)
    claim := h.claim
    workers := fun _ g w hw =>
      have ⟨hwait, hit⟩ := (h.barrier hp).2 w (List.mem_of_getElem? hw)
      workerOk_of_waiting hwait hit
    winner := fun _ hf => nomatch hfound.symm.trans hf }

/-- Once every worker has exited nobody holds the claim. -/
theorem found_ne_claimed_of_allExited {s : State} (h : LaunchInv s) (hx : allExited s = true) : s.found ≠ .claimed := by
  intro hf
  have hcount : s.workers.countP holdsClaim = 1 := by rw [h.claim, if_pos hf]
  obtain ⟨w, hw, hc⟩ := List.countP_pos_iff.1 (hcount ▸ Nat.one_pos)
  have hexited : w.phase = .exited := by simpa using List.all_eq_true.1 hx w hw
  simp [holdsClaim, hexited] at hc

theorem inv_completed {s : State} (h : LaunchInv s) (hx : allExited s = true) :
    LaunchInv { s with phase := .idle, done := true, workers := [] } :=
  have hf : s.found ≠ .claimed := found_ne_claimed_of_allExited h hx
  inv_idle rfl rfl hf h.memory

theorem inv_resetBlock (s : State) : LaunchInv (resetBlock s) :=
  inv_idle rfl rfl (by simp) Memory.wf_reset

/-! A worker's move: the state it leads to, the worker it leaves, and the others. -/

/-- What is true of a worker carries over to a state with the same job whose found-flag was not cleared, if the result
windows are as they were where the worker has written them. -/
theorem WorkerOk.mono {s t : State} {g : Word} {w : Worker} (k : WorkerOk s g w) (hj : SameJob s t)
    (hf : s.found ≠ .unset → t.found ≠ .unset) (hb : w.phase = .publish → ∀ a, bufByte t a = bufByte s a) :
    WorkerOk t g w where
  it_le := by rw [hj.job]; exact k.it_le
  wait_it := k.wait_it
  eval_it := by rw [hj.job]; exact k.eval_it
  latches hp := by rw [hj.job, candidateDigest_congr hj, firstMatch_congr hj]; exact k.latches hp
  written hp := (resultHolds_congr hj (hb hp) g w.it).2 (k.written hp)
  earlier := k.earlier.imp (fun e i hi => by rw [candidateMatches_congr hj]; exact e i hi) (.imp_left hf)
  exited hp := by rw [hj.job]; exact (k.exited hp).imp_right hf

/-- Where a worker has not left the search, every candidate before its counter failed. -/
theorem WorkerOk.earlier_failed {s : State} {g : Word} {w : Worker} (k : WorkerOk s g w)
    (hp : w.phase ≠ .poll ∧ w.phase ≠ .exited ∨ s.found = .unset) :
    ∀ i : Word, i.toNat < w.it.toNat → candidateMatches s g i = false :=
  k.earlier.resolve_right fun ⟨hf, hpe⟩ =>
    hp.elim (fun ⟨hpoll, hexited⟩ => hpe.elim hpoll hexited) hf

/-- A worker that moves to POLL, EVAL or EXITED within its iteration. -/
theorem WorkerOk.withPhase {s : State} {g : Word} {w : Worker} (k : WorkerOk s g w) {p : WPhase}
    (hp : p = .poll ∨ p = .eval ∨ p = .exited) (heval : p = .eval → w.it.toNat < budget s.job)
    (hearlier : (∀ i : Word, i.toNat < w.it.toNat → candidateMatches s g i = false) ∨
      (s.found ≠ .unset ∧ (p = .poll ∨ p = .exited)))
    (hexited : p = .exited → w.it.toNat = budget s.job ∨ s.found ≠ .unset) : WorkerOk s g { w with phase := p } where
  it_le := k.it_le
  wait_it hx := by rcases hp with rfl | rfl | rfl <;> cases hx
  eval_it := heval
  latches hx := by rcases hp with rfl | rfl | rfl <;> simp at hx
  written hx := by rcases hp with rfl | rfl | rfl <;> cases hx
  earlier := hearlier
  exited := hexited

/-- One worker replaced in SEARCH, and perhaps the found-flag and the result windows written. -/
theorem inv_setWorker {s t : State} {g : Word} {w w' : Worker} (h : LaunchInv s) (hs : s.phase = .search)
    (ht : t = { s with mem := t.mem, found := t.found, workers := s.workers.set g.toNat w' })
    (hmem : Memory.wf t.mem = true) (hj : SameJob s t) (hf : s.found ≠ .unset → t.found ≠ .unset)
    (hb : ∀ g' v, g' ≠ g → worker? s g' = some v → v.phase = .publish → ∀ a, bufByte t a = bufByte s a)
    (hw : worker? s g = some w) (hok : WorkerOk t g w')
    (hc : (s.workers.set g.toNat w').countP holdsClaim = if t.found = .claimed then 1 else 0)
    (hwin : t.found = .published →
      ∃ g it : Word, g.toNat < s.job.numWorkers.toNat ∧ FirstMatch t g it ∧ ResultHolds t g it) : LaunchInv t := by
  have hphase : t.phase = .search := by rw [ht]; exact hs
  have hworkers : t.workers = s.workers.set g.toNat w' := by rw [ht]
  have hbusy : s.phase ≠ .idle := by simp [hs]
  constructor
  case memory => exact hmem
  case idle_pool => simp [hphase]
  case pool => intro _; rw [hworkers, List.length_set, hj.job]; exact h.pool hbusy
  case not_done => intro _; rw [ht]; exact h.not_done hbusy
  case barrier => simp [hphase]
  case setup_state => intro _; rw [setupOf_congr hj, ← h.setup_state hs, ht]
  case claim => rw [hworkers, hc]
  case workers =>
    intro _ g' v hv
    have hv' : worker? (setWorker g w' s) g' = some v := by simpa [worker?, hworkers] using hv
    by_cases hg : g' = g
    · subst hg
      rw [worker?_setWorker_same w' hw] at hv'
      cases hv'
      exact hok
    · rw [worker?_setWorker_ne w' s hg] at hv'
      exact (h.workers hs g' v hv').mono hj hf (hb g' v hg hv')
  case winner => intro _ hp; rw [hj.job]; exact hwin hp

/-- The count of claim holders after one worker is replaced. -/
theorem countP_holdsClaim_set {s : State} {g : Word} {w : Worker} (h : LaunchInv s) (hw : worker? s g = some w)
    (w' : Worker) : (s.workers.set g.toNat w').countP holdsClaim + (if holdsClaim w then 1 else 0) =
      (if s.found = .claimed then 1 else 0) + (if holdsClaim w' then 1 else 0) :=
  h.claim ▸ countP_set_add holdsClaim s.workers g.toNat w' w hw

/-- A worker's own registers moved on, with the found-flag and the buffers left alone. -/
theorem inv_setWorker_only {s : State} {g : Word} {w w' : Worker} (h : LaunchInv s) (hs : s.phase = .search)
    (hw : worker? s g = some w) (hc : holdsClaim w' = holdsClaim w) (hok : WorkerOk s g w') :
    LaunchInv (setWorker g w' s) := by
  have hj : SameJob s (setWorker g w' s) := .of_mem rfl rfl rfl
  refine inv_setWorker h hs rfl h.memory hj id (fun _ _ _ _ _ _ => rfl) hw (hok.mono hj id fun _ _ => rfl) ?_ ?_
  · have hcount := countP_holdsClaim_set h hw w'
    rw [hc] at hcount
    exact Nat.add_right_cancel hcount
  · intro hf
    obtain ⟨g0, it, hg0, hfirst, hholds⟩ := h.winner hs hf
    exact ⟨g0, it, hg0, (firstMatch_congr hj g0 it).2 hfirst, (resultHolds_congr hj (fun _ => rfl) g0 it).2 hholds⟩

/-- A worker back in POLL for its next iteration. -/
theorem workerOk_nextIteration {s : State} {g : Word} {w w' : Worker} (hit : w'.it = w.it + 1) (hp : w'.phase = .poll)
    (hlt : w.it.toNat < budget s.job)
    (hfail : (∀ i : Word, i.toNat ≤ w.it.toNat → candidateMatches s g i = false) ∨ s.found ≠ .unset) :
    WorkerOk s g w' := by
  have hsucc : w'.it.toNat = w.it.toNat + 1 := by rw [hit]; exact it_succ hlt (budget_lt s.job)
  exact {
    it_le := by omega
    wait_it := by simp [hp]
    eval_it := by simp [hp]
    latches := by simp [hp]
    written := by simp [hp]
    earlier := hfail.imp (fun e i hi => e i (by omega)) fun hf => ⟨hf, .inl hp⟩
    exited := by simp [hp] }

section
variable {s : State} {g : Word} {w : Worker}

/-- EVAL compares the candidate's digest with the job's target, since the setup state is the job's. -/
theorem LaunchInv.candidateDig_eq (h : LaunchInv s) (hs : s.phase = .search) (it : Word) :
    candidateDig s.setup (candidateHex s.job g it) = candidateDigest s g it ∧
    s.setup.tgt = decodeTarget s := by
  rw [h.setup_state hs]
  exact ⟨rfl, rfl⟩

theorem inv_matched (h : LaunchInv s) (hs : s.phase = .search) (hw : worker? s g = some w) (hp : w.phase = .eval)
    (hm : candidateMatches s g w.it = true) :
    LaunchInv (setWorker g
      { w with candHex := candidateHex s.job g w.it, candDig := candidateDigest s g w.it, phase := .claim } s) := by
  have k := h.workers hs g w hw
  have hfail := k.earlier_failed (.inl (by simp [hp]))
  refine inv_setWorker_only h hs hw (by simp [holdsClaim, hp]) ?_
  exact {
    it_le := k.it_le
    wait_it := fun hx => nomatch hx
    eval_it := fun hx => nomatch hx
    latches := fun _ => ⟨rfl, rfl, k.eval_it hp, hm, hfail⟩
    written := fun hx => nomatch hx
    earlier := .inl hfail
    exited := fun hx => nomatch hx }

theorem inv_missed (h : LaunchInv s) (hs : s.phase = .search) (hw : worker? s g = some w) (hp : w.phase = .eval)
    (hm : candidateMatches s g w.it = false) (hex : Bytes 64) (dig : Bytes 32) :
    LaunchInv (setWorker g { w with candHex := hex, candDig := dig, it := w.it + 1, phase := .poll } s) := by
  have k := h.workers hs g w hw
  refine inv_setWorker_only h hs hw (by simp [holdsClaim, hp]) (workerOk_nextIteration rfl rfl (k.eval_it hp) (.inl ?_))
  intro i hi
  rcases Nat.lt_or_eq_of_le hi with hlt | heq
  · exact k.earlier_failed (.inl (by simp [hp])) i hlt
  · rwa [BitVec.eq_of_toNat_eq heq]

/-- CLAIM that finds FOUND = 0 makes its worker the one holder of the claim. -/
theorem inv_won (h : LaunchInv s) (hs : s.phase = .search) (hw : worker? s g = some w) (hp : w.phase = .claim)
    (hf : s.found = .unset) :
    LaunchInv { setWorker g { w with phase := .write } s with found := .claimed } := by
  have k := h.workers hs g w hw
  have hj : SameJob s { setWorker g { w with phase := .write } s with found := .claimed } := .of_mem rfl rfl rfl
  have hlatch := k.latches (.inl hp)
  refine inv_setWorker (w' := { w with phase := .write }) h hs rfl h.memory hj (fun _ => by simp)
    (fun _ _ _ _ _ _ => rfl) hw (WorkerOk.mono ?_ hj (fun _ => by simp) (fun hx => nomatch hx)) ?_
    (fun hx => nomatch hx)
  · exact {
      it_le := k.it_le
      wait_it := fun hx => nomatch hx
      eval_it := fun hx => nomatch hx
      latches := fun _ => hlatch
      written := fun hx => nomatch hx
      earlier := .inl (k.earlier_failed (.inl (by simp [hp])))
      exited := fun hx => nomatch hx }
  · simpa [holdsClaim, hp, hf] using countP_holdsClaim_set h hw { w with phase := .write }

theorem wf_storeLatches (h : Memory.wf s.mem = true) : Memory.wf (storeLatches w s).mem = true := by
  refine Memory.wf_setMany _ (Memory.wf_setMany _ h fun i hi => ?_) fun i hi => ?_
  · rw [w.candHex.property] at hi
    simp only [inWindow_iff, resultNonceBase]
    omega
  · rw [w.candDig.property] at hi
    simp only [inWindow_iff, resultDigestBase]
    omega

/-- WRITE_RESULT writes the result windows; no other worker has a claim on them (rule R212). -/
theorem inv_stored (h : LaunchInv s) (hs : s.phase = .search) (hw : worker? s g = some w) (hp : w.phase = .write) :
    LaunchInv (setWorker g { w with phase := .publish } (storeLatches w s)) := by
  have k := h.workers hs g w hw
  have hholds : holdsClaim w = true := by simp [holdsClaim, hp]
  have hclaimed : s.found = .claimed := claimed_of_holds h hw hholds
  obtain ⟨hhex, hdig, hfirst⟩ := k.latches (.inr (.inl hp))
  obtain ⟨hnonce, hdigest, hjob, hbytes⟩ := results_written s w.candHex w.candDig
  have hj : SameJob s (setWorker g { w with phase := .publish } (storeLatches w s)) := ⟨hjob, hbytes⟩
  have hdig' := hdig.trans (candidateDigest_congr hj g w.it).symm
  refine inv_setWorker (w' := { w with phase := .publish }) h hs rfl (wf_storeLatches h.memory) hj id ?_ hw ?_ ?_ ?_
  · intro g' v hg hv hpub
    simpa [holdsClaim, hpub] using others_not_claim h hw hholds hg hv
  · exact {
      it_le := k.it_le
      wait_it := fun hx => nomatch hx
      eval_it := fun hx => nomatch hx
      latches := fun _ => ⟨hhex, hdig', (firstMatch_congr hj g w.it).2 hfirst⟩
      written := fun _ => ⟨hnonce.trans (congrArg Subtype.val hhex), hdigest.trans (congrArg Subtype.val hdig')⟩
      earlier := .inl fun i hi => by
        rw [candidateMatches_congr hj]
        exact k.earlier_failed (.inl (by simp [hp])) i hi
      exited := fun hx => nomatch hx }
  · simpa [holdsClaim, hp, hclaimed] using countP_holdsClaim_set h hw { w with phase := .publish }
  · intro hx
    exact nomatch hclaimed.symm.trans hx

/-- PUBLISH releases the claim; its worker's first match is what the result windows hold. -/
theorem inv_published (h : LaunchInv s) (hs : s.phase = .search) (hw : worker? s g = some w) (hp : w.phase = .publish) :
    LaunchInv { setWorker g { w with it := w.it + 1, phase := .poll } s with found := .published } := by
  have k := h.workers hs g w hw
  have hclaimed : s.found = .claimed := claimed_of_holds h hw (by simp [holdsClaim, hp])
  obtain ⟨-, -, hfirst⟩ := k.latches (.inr (.inr hp))
  have hj : SameJob s { setWorker g { w with it := w.it + 1, phase := .poll } s with found := .published } :=
    .of_mem rfl rfl rfl
  refine inv_setWorker (w' := { w with it := w.it + 1, phase := .poll }) h hs rfl h.memory hj (fun _ => by simp)
    (fun _ _ _ _ _ _ => rfl) hw (workerOk_nextIteration rfl rfl hfirst.1 (.inr (by simp))) ?_ fun _ => ?_
  · simpa [holdsClaim, hp, hclaimed] using countP_holdsClaim_set h hw { w with it := w.it + 1, phase := .poll }
  · have hg : g.toNat < s.job.numWorkers.toNat := h.pool (by simp [hs]) ▸ worker?_lt hw
    exact ⟨g, w.it, hg, (firstMatch_congr hj g w.it).2 hfirst,
      (resultHolds_congr hj (fun _ => rfl) g w.it).2 (k.written hp)⟩

end

/-- Every move of a worker keeps the invariant. -/
theorem WorkerMove.launchInv {s t : State} {g : Word} {w : Worker} (hmove : WorkerMove s g w t) (h : LaunchInv s)
    (hw : worker? s g = some w) : LaunchInv t := by
  have search (hne : w.phase ≠ .wait) : s.phase = .search := search_of_worker h hw hne
  cases hmove with
  | released hp hs =>
    have k := h.workers hs g w hw
    exact inv_setWorker_only h hs hw (by simp [holdsClaim, hp]) (k.withPhase (.inl rfl) (fun hx => nomatch hx)
      (.inl (k.earlier_failed (.inl (by simp [hp])))) (fun hx => nomatch hx))
  | spent hp hb =>
    have hs := search (by simp [hp])
    have k := h.workers hs g w hw
    exact inv_setWorker_only h hs hw (by simp [holdsClaim, hp]) (k.withPhase (.inr (.inr rfl)) (fun hx => nomatch hx)
      (k.earlier.imp_right fun e => ⟨e.1, .inr rfl⟩) fun _ => .inl (Nat.le_antisymm k.it_le hb))
  | stopped hp hf =>
    have hs := search (by simp [hp])
    exact inv_setWorker_only h hs hw (by simp [holdsClaim, hp]) ((h.workers hs g w hw).withPhase (.inr (.inr rfl))
      (fun hx => nomatch hx) (.inr ⟨hf, .inr rfl⟩) fun _ => .inr hf)
  | admitted hp hb hf =>
    have hs := search (by simp [hp])
    have k := h.workers hs g w hw
    exact inv_setWorker_only h hs hw (by simp [holdsClaim, hp]) (k.withPhase (.inr (.inl rfl)) (fun _ => hb)
      (.inl (k.earlier_failed (.inr hf))) fun hx => nomatch hx)
  | matched hp hex dig hh hd hm =>
    have hs := search (by simp [hp])
    subst hh
    rw [(h.candidateDig_eq hs w.it).1] at hd
    rw [hd, (h.candidateDig_eq (g := g) hs w.it).2] at hm
    subst hd
    exact inv_matched h hs hw hp hm
  | missed hp hex dig hh hd hm =>
    have hs := search (by simp [hp])
    rw [hh, (h.candidateDig_eq hs w.it).1] at hd
    rw [hd, (h.candidateDig_eq (g := g) hs w.it).2] at hm
    exact inv_missed h hs hw hp hm hex dig
  | won hp hf => exact inv_won h (search (by simp [hp])) hw hp hf
  | lost hp hf =>
    have hs := search (by simp [hp])
    obtain ⟨-, -, hfirst⟩ := (h.workers hs g w hw).latches (.inl hp)
    exact inv_setWorker_only h hs hw (by simp [holdsClaim, hp]) (workerOk_nextIteration rfl rfl hfirst.1 (.inr hf))
  | stored hp => exact inv_stored h (search (by simp [hp])) hw hp
  | published hp => exact inv_published h (search (by simp [hp])) hw hp

/-- Every effect on the block keeps the invariant. -/
theorem BlockEffect.launchInv {s t : State} (he : BlockEffect s t) (h : LaunchInv s) : LaunchInv t := by
  cases he with
  | none => exact h
  | jobReg hp r v => exact inv_jobReg h hp r v
  | jobBuffer hp a ha v => exact inv_jobBuffer h hp ha v
  | started hp => exact inv_launch h
  | setupPiece u hu => exact inv_setupPiece h hu
  | setupDone hp => exact inv_setupDone h hp
  | completed hp hx => exact inv_completed h hx
  | worker g w hw _ hm => exact hm.launchInv h hw

/-- Settles O50: a step has one of the block's effects or is a reset, and each of them keeps the invariant. -/
theorem everyStepKeepsTheInvariant : Obligations.EveryStepKeepsTheInvariant := by
  intro s t h hstep
  rcases step_affects hstep with ⟨u, hu, v, hv, ht⟩ | ⟨u, -, rfl⟩
  · exact ht.launchInv (hv.launchInv (hu.launchInv h))
  · exact inv_resetBlock u

/-! ## What the effects leave alone during a launch -/

/-- A worker's move keeps the job: it writes no job register, and of the buffers the result windows only. -/
theorem WorkerMove.sameJob {s t : State} {g : Word} {w : Worker} (h : WorkerMove s g w t) : SameJob s t := by
  cases h with
  | stored hp =>
    obtain ⟨-, -, hj⟩ := results_written s w.candHex w.candDig
    exact ⟨hj.job, hj.bytes⟩
  | _ => exact .of_mem rfl rfl rfl

theorem WorkerMove.setup {s t : State} {g : Word} {w : Worker} (h : WorkerMove s g w t) : t.setup = s.setup := by
  cases h <;> rfl

/-- Rule R31: the job is written while IDLE only. -/
theorem BlockEffect.sameJob {s t : State} (h : BlockEffect s t) (hb : s.phase ≠ .idle) : SameJob s t := by
  cases h with
  | jobReg hp | jobBuffer hp | started hp => exact absurd hp hb
  | none | setupPiece | setupDone | completed => exact .of_mem rfl rfl rfl
  | worker g w hw _ hm => exact hm.sameJob

/-- Rule R72: past the barrier the setup state stands. -/
theorem BlockEffect.setup {s t : State} (h : BlockEffect s t) (hs : s.phase = .search) (hu : s.setup = setupOf s) :
    t.setup = s.setup := by
  cases h with
  | jobReg hp | jobBuffer hp | started hp | setupDone hp => rw [hs] at hp; cases hp
  | none | completed => rfl
  | setupPiece u hpiece => exact hpiece hu
  | worker g w hw _ hm => exact hm.setup

theorem FoundState.code_le_published (f : FoundState) : f.code.toNat ≤ FoundState.published.code.toNat := by
  cases f <;> decide

theorem WorkerMove.found_le {s t : State} {g : Word} {w : Worker} (h : WorkerMove s g w t) :
    s.found.code.toNat ≤ t.found.code.toNat := by
  cases h with
  | won hp hf => simp [hf, FoundState.code]
  | published hp => exact s.found.code_le_published
  | _ => exact Nat.le_refl _

/-- Rule R23: only START clears FOUND. -/
theorem BlockEffect.found_le {s t : State} (h : BlockEffect s t) (hb : s.phase ≠ .idle) :
    s.found.code.toNat ≤ t.found.code.toNat := by
  cases h with
  | jobReg hp | jobBuffer hp | started hp => exact absurd hp hb
  | none | setupPiece | setupDone | completed => exact Nat.le_refl _
  | worker g w hw _ hm => exact hm.found_le

/-- A move that changes a byte of the buffers is WRITE_RESULT. -/
theorem WorkerMove.writes_of_bufByte_ne {s t : State} {g : Word} {w : Worker} (h : WorkerMove s g w t)
    (hw : worker? s g = some w) {a : Nat} (ha : bufByte t a ≠ bufByte s a) :
    w.phase = .write ∧ ∃ w', worker? t g = some w' ∧ w'.phase = .publish := by
  cases h with
  | stored hp => exact ⟨hp, _, worker?_setWorker_same _ hw, rfl⟩
  | _ => exact absurd rfl ha

/-- Rules R34 and R35: an effect that changes a byte of the result windows is a worker's WRITE_RESULT. -/
theorem BlockEffect.writer_of_result_ne {s t : State} (h : BlockEffect s t) {a : Nat} (hlo : 0x200 ≤ a)
    (hhi : a < 0x260) (ha : bufByte t a ≠ bufByte s a) :
    ∃ g w w', worker? s g = some w ∧ w.phase = .write ∧ worker? t g = some w' ∧ w'.phase = .publish := by
  cases h with
  | none | started | setupPiece | setupDone | completed => exact absurd rfl ha
  | jobReg hp r v => exact absurd (bufByte_congr (setReg_mem r v s) (by rw [setReg_env]) a) ha
  | jobBuffer hp b hb v =>
    unfold JobWord at hb
    exact absurd (bufByte_writeBytes_outside s b a _ (by rw [laneBytes_length]; omega)) ha
  | worker g w hw _ hm =>
    obtain ⟨hp, w', hw', hp'⟩ := hm.writes_of_bufByte_ne hw ha
    exact ⟨g, w, w', hw, hp, hw', hp'⟩

/-- Settles O54: of the effects only START lowers FOUND, and it needs IDLE. -/
theorem foundOnlyRisesWithinALaunch : Obligations.FoundOnlyRisesWithinALaunch := by
  intro s t hb hstep he
  obtain ⟨u, v, hu, hv, ht⟩ := step_effect hstep he
  rw [← hu.found, ht.found]
  exact hv.found_le (hu.phase ▸ hb)

/-- Settles O55: no effect outside IDLE writes the job, and by the invariant's setup state a setup operation run alone
in SEARCH writes what is there. -/
theorem jobIsFrozenDuringALaunch : Obligations.JobIsFrozenDuringALaunch := by
  intro s t h hb hstep he
  obtain ⟨u, v, hu, hv, ht⟩ := step_effect hstep he
  have hj : SameJob u v := hv.sameJob (hu.phase ▸ hb)
  refine ⟨ht.job.trans (hj.job.trans hu.job), fun a ha => ?_, fun hs => ?_⟩
  · rw [ht.bufByte, hj.bytes a ha, hu.bufByte]
  · have hsu : u.phase = .search := hu.phase.trans hs
    rw [ht.setup, hv.setup hsu ((hu.launchInv h).setup_state hsu), hu.setup]

/-- Settles O56: the effect that changes a result byte is the WRITE_RESULT of a worker in WRITE, who by the invariant
is the one holder of the claim. -/
theorem resultIsWrittenByTheWinnerOnly : Obligations.ResultIsWrittenByTheWinnerOnly := by
  intro s t h hstep he ⟨a, hlo, hhi, ha⟩
  obtain ⟨u, v, hu, hv, ht⟩ := step_effect hstep he
  rw [ht.bufByte, ← hu.bufByte] at ha
  obtain ⟨g, w, w', hw, hp, hw', hp'⟩ := hv.writer_of_result_ne hlo hhi ha
  rw [hu.worker?] at hw
  have hholds : holdsClaim w = true := by simp [holdsClaim, hp]
  exact ⟨claimed_of_holds h hw hholds, g, w, w', hw, hp, (ht.worker? g).trans hw', hp',
    fun g' x hg hx => others_not_claim h hw hholds hg hx⟩

/-! ## MODE is read by no internal operation (rules R29 and R95) -/

theorem encode_of_isInternal {i : Instr} (h : isInternal i = true) : ∃ id l, encode i = [.internal id l] := by
  unfold isInternal at h
  split at h
  · next id l he => exact ⟨id, l, he⟩
  · cases h

/-- Only a row of the internal format has an internal word (30_encoding.md rule R90). -/
theorem format_of_isInternal {i : Instr} (h : isInternal i = true) : Laws.SpaceOfTable.format i = .internal := by
  obtain ⟨id, l, he⟩ := encode_of_isInternal h
  have hmem : .internal id l ∈ encode i := he ▸ List.mem_singleton.2 rfl
  cases i with
  | unmapped off dir => exact nomatch Laws.SpaceOfTable.unmapped off dir _ hmem
  | wrbuf base bs => exact nomatch Laws.SpaceOfTable.wrbuf base bs _ hmem
  | rdbuf base n => exact nomatch Laws.SpaceOfTable.rdbuf base n _ hmem
  | compress | prefixClamp | midstateAbsorb | tailCapture | bitlenCompute | setup | nonceDerive | nonceBytes | nonceHex
  | finalBlocks | finalize | hexNibble | targetDecode | compare | poll | claim | writeResult | publish | wait | eval
  | complete => rfl
  | _ => cases h

section
variable (m : Word) (s : State)

theorem workerStep_setReg_mode {g : Word} {p : WPhase} {f f' : Worker → State}
    (h : ∀ w, f w = setReg .mode m (f' w)) :
    workerStep g p f (setReg .mode m s) = setReg .mode m (workerStep g p f' s) := by
  have hw : worker? (setReg .mode m s) g = worker? s g := rfl
  unfold workerStep
  rw [hw]
  split
  · split
    · exact h _
    · rfl
  · rfl

theorem waitStep_setReg_mode (g : Word) : waitStep g (setReg .mode m s) = setReg .mode m (waitStep g s) := by
  unfold waitStep
  rw [setReg_phase]
  split
  · exact workerStep_setReg_mode m s fun _ => rfl
  · rfl

theorem pollStep_setReg_mode (g : Word) : pollStep g (setReg .mode m s) = setReg .mode m (pollStep g s) := by
  have hb : budget (setReg .mode m s).job = budget s.job := rfl
  refine workerStep_setReg_mode m s fun w => ?_
  rw [hb, setReg_found]
  split <;> [rfl; split <;> rfl]

theorem evalStep_setReg_mode (g : Word) : evalStep g (setReg .mode m s) = setReg .mode m (evalStep g s) := by
  have hh (it : Word) : candidateHex (setReg .mode m s).job g it = candidateHex s.job g it := rfl
  refine workerStep_setReg_mode m s fun w => ?_
  simp only [hh, setReg_setup]
  split <;> rfl

theorem claimStep_setReg_mode (g : Word) : claimStep g (setReg .mode m s) = setReg .mode m (claimStep g s) := by
  refine workerStep_setReg_mode m s fun w => ?_
  rw [setReg_found]
  split <;> rfl

theorem writeResultStep_setReg_mode (g : Word) :
    writeResultStep g (setReg .mode m s) = setReg .mode m (writeResultStep g s) :=
  workerStep_setReg_mode m s fun _ => rfl

theorem publishStep_setReg_mode (g : Word) : publishStep g (setReg .mode m s) = setReg .mode m (publishStep g s) :=
  workerStep_setReg_mode m s fun _ => rfl

theorem completeStep_setReg_mode : completeStep (setReg .mode m s) = setReg .mode m (completeStep s) := by
  have hx : allExited (setReg .mode m s) = allExited s := rfl
  unfold completeStep
  rw [setReg_phase, hx]
  split <;> rfl

end

/-- Settles O46: every internal operation commutes with a store to MODE. -/
theorem modeIsReadByNoOperation : Obligations.ModeIsReadByNoOperation := by
  intro i s t m hi e
  have hformat := format_of_isInternal hi
  change exec i (setReg .mode m s) = .next (setReg .mode m t)
  cases i with
  | compress | nonceDerive | nonceBytes | nonceHex | finalBlocks | finalize | hexNibble | compare | prefixClamp
  | midstateAbsorb | tailCapture | bitlenCompute | targetDecode => cases e; rfl
  | setup =>
    cases e
    simp only [exec, execSetup, setReg_phase]
    split <;> rfl
  | complete => cases e; exact congrArg _ (completeStep_setReg_mode m s)
  | wait g => cases e; exact congrArg _ (waitStep_setReg_mode m s g)
  | poll g => cases e; exact congrArg _ (pollStep_setReg_mode m s g)
  | eval g => cases e; exact congrArg _ (evalStep_setReg_mode m s g)
  | claim g => cases e; exact congrArg _ (claimStep_setReg_mode m s g)
  | writeResult g => cases e; exact congrArg _ (writeResultStep_setReg_mode m s g)
  | publish g => cases e; exact congrArg _ (publishStep_setReg_mode m s g)
  | _ => cases hformat

/-! ## The host's reads and job writes -/

theorem answered_hostRead (s : State) (v : Word) : Answered s (hostRead v s) v :=
  ⟨sameBlock_hostRead v s, rfl, rfl, rfl⟩

/-- Rule R64: lane `j` of a bus word is byte `j` of its bytes. -/
theorem extractLsb'_lane (v : Word) {j : Nat} (hj : j < 4) :
    v.extractLsb' (8 * j) 8 = (laneBytes v)[j]'(by rw [laneBytes_length]; exact hj) := by
  match j, hj with
  | 0, _ | 1, _ | 2, _ | 3, _ => rfl

/-- Lane `j` of a window word is the buffer's byte there. -/
theorem windowWord_lane (s : State) (a : Nat) {j : Nat} (hj : j < 4) :
    (windowWord s a).extractLsb' (8 * j) 8 = bufByte s (a + j) := by
  simp only [extractLsb'_lane _ hj, windowWord, laneBytes_laneWord]
  match j, hj with
  | 0, _ | 1, _ | 2, _ | 3, _ => rfl

/-- A word written into a window puts its lane `j` at byte `j`. -/
theorem bufByte_writeBytes_lane (s : State) (a : Nat) (v : Word) {j : Nat} (hj : j < 4) :
    bufByte (writeBytes s a (laneBytes v)) (a + j) = v.extractLsb' (8 * j) 8 := by
  rw [bufByte_writeBytes, dif_pos ⟨by omega, by rw [laneBytes_length]; omega⟩, extractLsb'_lane v hj]
  congr 1
  omega

/-- A job buffer write while IDLE, lane by lane, with every other byte and the rest of the state left alone. -/
theorem writeWindow_idle {s : State} (hp : s.phase = .idle) (a : Nat) (v : Word) :
    writeWindow a v s = { s with mem := (writeWindow a v s).mem } ∧
    (∀ j, j < 4 → bufByte (writeWindow a v s) (a + j) = v.extractLsb' (8 * j) 8) ∧
    ∀ x, x < a ∨ a + 4 ≤ x → bufByte (writeWindow a v s) x = bufByte s x := by
  rw [writeWindow, jobWrite_idle _ hp]
  exact ⟨rfl, fun j hj => bufByte_writeBytes_lane s a v hj,
    fun x hx => bufByte_writeBytes_outside s a x _ (by rwa [laneBytes_length])⟩

/-! The rows of the job registers, by register. -/

theorem exec_jobRd (r : JobReg) (s : State) : exec (jobRd r) s = .next (hostRead (readReg r s) s) := by
  cases r <;> rfl

theorem exec_jobWr (r : JobReg) (v : Word) (s : State) : exec (jobWr r v) s = .next (writeReg r v s) := by
  cases r <;> rfl

theorem setReg_eq (r : JobReg) (v : Word) (s : State) : setReg r v s = { s with job := (setReg r v s).job } := by
  cases r <;> rfl

theorem exec_jobWr_idle (r : JobReg) (v : Word) {s : State} (hp : s.phase = .idle) :
    exec (jobWr r v) s = .next (setReg r v s) := by
  rw [exec_jobWr, writeReg, jobWrite_idle _ hp]

theorem readReg_reset (r : JobReg) : readReg r State.reset = 0 := by cases r <;> rfl

/-! STATUS and FOUND, field by field. -/

/-- The four fields of the STATUS word, for every value of them. -/
theorem status_layout : ∀ (phase : BitVec 2) (done busy : Bool),
    let v : Word := (0 : BitVec 28) ++ phase ++ BitVec.ofBool done ++ BitVec.ofBool busy
    v.getLsbD 0 = busy ∧ v.getLsbD 1 = done ∧ v.extractLsb' 2 2 = phase ∧ v.extractLsb' 4 28 = 0 := by
  decide

theorem busy_eq_decide (s : State) : busy s = decide (s.phase ≠ .idle) :=
  Bool.eq_iff_iff.2 (by rw [busy_eq_true, decide_eq_true_iff])

theorem foundWord_toNat (s : State) : (foundWord s).toNat = s.found.code.toNat := by
  unfold foundWord
  cases s.found <;> rfl

/-- A read of a result window, by whether FOUND is 1 (rules R34, R35 and R68). -/
theorem resultWord_read (s : State) (a : Nat) :
    Answered s (hostRead (resultWord s a) s) (resultWord s a) ∧
    (hostRead (resultWord s a) s).env.draws = s.env.draws + 1 ∧
    (s.found = .claimed → resultWord s a = Config.freeWord s.env.draws) ∧
    (s.found ≠ .claimed → ∀ j, j < 4 → (resultWord s a).extractLsb' (8 * j) 8 = bufByte s (a + j)) :=
  ⟨answered_hostRead s _, rfl, fun hf => if_pos hf, fun hf j hj => by
    rw [resultWord, if_neg hf]
    exact windowWord_lane s a hj⟩

/-- Settles O15: a buffer row is a window word's read or write, whose lanes are the buffer's bytes. -/
theorem jobBufferWindowsMoveFourLanes : Obligations.JobBufferWindowsMoveFourLanes :=
  ⟨fun s => ⟨fun _ => ⟨_, _, rfl, answered_hostRead s _, fun _ hj => windowWord_lane s _ hj⟩,
      fun _ => ⟨_, _, rfl, answered_hostRead s _, fun _ hj => windowWord_lane s _ hj⟩⟩,
    fun _ v hp => ⟨fun _ => ⟨_, rfl, writeWindow_idle hp _ v⟩, fun _ => ⟨_, rfl, writeWindow_idle hp _ v⟩⟩⟩

/-- Settles O12, from the fields of STATUS and FOUND. -/
theorem controlRegisterReads : Obligations.ControlRegisterReads := by
  intro s
  obtain ⟨hbusy, hdone, hphase, hzero⟩ := status_layout s.phase.code s.done (busy s)
  refine ⟨⟨_, rfl, answered_hostRead s 0⟩,
    ⟨_, _, rfl, answered_hostRead s _, hbusy.trans (busy_eq_decide s), hdone, hphase.trans ?_, hzero⟩,
    ⟨_, _, rfl, answered_hostRead s _, (foundWord_toNat s).trans ?_⟩⟩
  · cases s.phase <;> rfl
  · cases s.found <;> rfl

/-- Settles O13, register by register from the rows' equations. -/
theorem jobRegistersResetReadAndWrite : Obligations.JobRegistersResetReadAndWrite := by
  intro r
  refine ⟨readReg_reset r, fun s => ⟨_, exec_jobRd r s, answered_hostRead s _⟩, fun s v hp => ?_⟩
  refine ⟨_, _, exec_jobWr_idle r v hp, exec_jobRd r _, ?_, setReg_eq r v s, fun q hq => readReg_setReg_ne v s hq⟩
  rw [readReg_setReg_same]
  exact answered_hostRead _ v

/-- Settles O14: every job write goes through the BUSY rule, and no read does. -/
theorem jobWritesObeyTheBusyRule : Obligations.JobWritesObeyTheBusyRule := by
  refine ⟨fun s hb => ⟨fun r v => ?_, fun k v => ?_, fun k v => ?_⟩,
    fun s hp => ⟨fun r v => ?_, fun k v j hj => ?_, fun k v j hj => ?_⟩,
    fun s => ⟨fun r => ⟨_, exec_jobRd r s, answered_hostRead s _⟩, fun k => ⟨_, rfl, answered_hostRead s _⟩,
      fun k => ⟨_, rfl, answered_hostRead s _⟩⟩⟩
  · rw [exec_jobWr, writeReg, jobWrite_busy _ hb]
  · exact congrArg _ (jobWrite_busy _ hb)
  · exact congrArg _ (jobWrite_busy _ hb)
  · exact ⟨_, exec_jobWr_idle r v hp, readReg_setReg_same r v s, setReg_eq r v s⟩
  · obtain ⟨hframe, hlanes, -⟩ := writeWindow_idle hp (windowOff targetHexBase k.toNat) v
    exact ⟨_, rfl, hlanes j hj, hframe⟩
  · obtain ⟨hframe, hlanes, -⟩ := writeWindow_idle hp (windowOff prefixBase k.toNat) v
    exact ⟨_, rfl, hlanes j hj, hframe⟩

/-- Settles O16: both result windows read by the same rule. -/
theorem resultWindowReads : Obligations.ResultWindowReads :=
  fun s => ⟨fun _ => ⟨_, _, rfl, resultWord_read s _⟩, fun _ => ⟨_, _, rfl, resultWord_read s _⟩⟩

/-! ## The step of the agent that moves -/

theorem step_of_fetch_run {s u : State} {i : Instr} (h : fetch s = .run i u) (hi : i.wf = true) :
    step s = exec i u := by
  rw [step, h]
  exact if_pos hi

theorem step_of_fetch_hold {s u : State} (h : fetch s = .hold u) : step s = .next u := by
  rw [step, h]

theorem fetch_mover {s : State} {m : Mover} {ps : List Pick} (h : s.env.sched = .mover m :: ps) :
    fetch s = fetchMover m { s with env.sched := ps } := by
  rw [fetch, h]
  rfl

/-- The step of SETUP where its phase gives it an operation, which is always well formed. -/
theorem step_setup {s : State} {ps : List Pick} (h : s.env.sched = .mover .setup :: ps) :
    step s = match setupInstr s.phase with
      | some i => exec i { s with env.sched := ps }
      | none => .next { s with env.sched := ps } := by
  cases hp : s.phase with
  | idle => exact step_of_fetch_hold (by rw [fetch_mover h]; simp [fetchMover, hp, setupInstr])
  | setup | search => exact step_of_fetch_run (by rw [fetch_mover h]; simp [fetchMover, hp, setupInstr]) rfl

theorem workerInstr_wf {g : Word} {p : WPhase} {i : Instr} (h : workerInstr g p = some i) : i.wf = true := by
  cases p <;> cases h <;> rfl

/-- The step of a worker: the operation its phase gives it, and a hold where there is none. -/
theorem step_worker {s : State} {ps : List Pick} {g : Word} (h : s.env.sched = .mover (.worker g) :: ps) :
    step s = match (worker? s g).bind (fun w => workerInstr g w.phase) with
      | some i => exec i { s with env.sched := ps }
      | none => .next { s with env.sched := ps } := by
  have hsame : worker? { s with env.sched := ps } g = worker? s g := rfl
  cases hw : worker? s g with
  | none => exact step_of_fetch_hold (by rw [fetch_mover h, fetchMover, hsame, hw])
  | some w =>
    cases hi : workerInstr g w.phase with
    | none => simpa [hi] using step_of_fetch_hold (by rw [fetch_mover h]; simp only [fetchMover, hsame, hw, hi])
    | some i =>
      simpa [hi] using
        step_of_fetch_run (by rw [fetch_mover h]; simp only [fetchMover, hsame, hw, hi]) (workerInstr_wf hi)

/-- Settles O9, from the step of each agent; a numbered operation is run as it decodes, and a free choice is the same
as that agent listed next. -/
theorem stepRunsTheAgentsOperation : Obligations.StepRunsTheAgentsOperation := by
  refine fun s ps => ⟨fun h => ?_, fun g w h hw => ?_, fun g h hw => ?_, fun id l r i h hd hi => ?_, fun h => ?_⟩
  · rw [step_setup h]
    refine ⟨?_, ?_, ?_⟩ <;> intro hp <;> rw [hp] <;> rfl
  · rw [step_worker h, hw]
    refine ⟨?_, ?_, ?_, ?_, ?_, ?_, ?_⟩ <;> intro hp <;> simp [hp, workerInstr]
  · rw [step_worker h, hw]
    rfl
  · exact step_of_fetch_run (by rw [fetch, h]; simp only [fetchPick, hd]) hi
  · have hfetch : fetch s = fetch { s with
        env.sched := [.mover (Config.freeMover s.env.draws)], env.draws := s.env.draws + 1 } := by
      rw [fetch, h]
      simp only [fetch, fetchPick, h]
    rw [step, step, hfetch]

end Sys2Proof.Machine
end

section
/-! PROOFS. The bus decoder read by offset: the row a transaction selects is the one whose address range holds its
offset (rules R91 to R93), and its meaning is `BusRead` or `BusWrite` of that offset (rules R61 to R63). -/

namespace Sys2Proof

/-- The first offset of a register or window (30_encoding.md rule R92). -/
def BusTarget.base : BusTarget → Nat
  | .cmd => 0x000
  | .status => 0x004
  | .found => 0x008
  | .prefixLen => 0x00C
  | .startNonceLo => 0x010
  | .startNonceHi => 0x014
  | .nonceOffset => 0x018
  | .nonceStride => 0x01C
  | .itersPerWorker => 0x020
  | .mode => 0x024
  | .numWorkers => 0x028
  | .targetHex => 0x100
  | .resultNonce => 0x200
  | .resultDigest => 0x240
  | .prefixBuf => 0x2000

/-- How many offset bits lie inside a register or window: it is `2 ^ bits` bytes long. -/
def BusTarget.bits : BusTarget → Nat
  | .targetHex | .resultNonce => 6
  | .resultDigest => 5
  | .prefixBuf => 13
  | _ => 2

/-- The offset lies in the register or window. -/
def BusTarget.Covers (g : BusTarget) (off : BitVec 14) : Prop := g.base ≤ off.toNat ∧ off.toNat < g.base + 2 ^ g.bits

/-- Rule R92, row by row: the mask frees the bits inside the target, and the pattern is its base with DIR above. -/
theorem busTable_layout : ∀ r ∈ busTable, r.mask = BitVec.allOnes 15 <<< r.target.bits ∧
    r.pattern.toNat = (if r.isWrite then 0x4000 else 0) + r.target.base ∧ r.pattern.toNat % 2 ^ r.target.bits = 0 := by
  decide

/-- Every target has a row in each direction. -/
theorem exists_busRow (g : BusTarget) (w : Bool) : ∃ r ∈ busTable, r.target = g ∧ r.isWrite = w := by
  cases g <;> cases w <;> decide

/-- A mask of all but the low `k` bits rounds down to a multiple of `2 ^ k`. -/
theorem toNat_and_highMask {n : Nat} (t : BitVec n) (k : Nat) :
    (t &&& (BitVec.allOnes n <<< k)).toNat = t.toNat / 2 ^ k * 2 ^ k := by
  have h : t &&& (BitVec.allOnes n <<< k) = (t >>> k) <<< k := by
    ext i hi
    by_cases hk : i < k
    · simp [hk]
    · simp [hk, hi, show k + (i - k) = i by omega]
  have hle : t.toNat / 2 ^ k * 2 ^ k ≤ t.toNat := Nat.div_mul_le_self _ _
  rw [h, BitVec.toNat_shiftLeft, BitVec.toNat_ushiftRight, Nat.shiftRight_eq_div_pow, Nat.shiftLeft_eq,
    Nat.mod_eq_of_lt (hle.trans_lt t.isLt)]

theorem txnOff_toNat (t : BitVec 15) : (txnOff t).toNat = t.toNat % 0x4000 := by simp [txnOff]

/-- A transaction word is DIR above OFF (rule R91). -/
theorem txn_toNat (t : BitVec 15) : t.toNat = (if t.getLsbD 14 then 0x4000 else 0) + (txnOff t).toNat := by
  have hlt := t.isLt
  have hdir : t.getLsbD 14 = decide (0x4000 ≤ t.toNat) := by
    rw [BitVec.getLsbD, Nat.testBit_eq_decide_div_mod_eq]
    exact decide_eq_decide.2 (by omega)
  rw [txnOff_toNat, hdir]
  by_cases h : 0x4000 ≤ t.toNat <;> simp [h] <;> omega

theorem BusTarget.end_le (g : BusTarget) : g.base + 2 ^ g.bits ≤ 0x4000 := by cases g <;> decide

/-- Rule R91: a row is selected by the transactions of its direction whose offset its target covers. -/
theorem selects_iff {r : BusRow} (hr : r ∈ busTable) (t : BitVec 15) :
    r.selects t = true ↔ t.getLsbD 14 = r.isWrite ∧ r.target.Covers (txnOff t) := by
  obtain ⟨hmask, hpattern, haligned⟩ := busTable_layout r hr
  have hrange : r.selects t = true ↔ r.pattern.toNat ≤ t.toNat ∧ t.toNat < r.pattern.toNat + 2 ^ r.target.bits := by
    have hpos : 0 < 2 ^ r.target.bits := Nat.two_pow_pos _
    obtain ⟨c, hc⟩ := Nat.dvd_of_mod_eq_zero haligned
    rw [BusRow.selects, beq_iff_eq, ← BitVec.toNat_inj, hmask, toNat_and_highMask, hc,
      Nat.mul_comm (2 ^ r.target.bits) c, Nat.mul_left_inj hpos.ne', Nat.div_eq_iff hpos]
    omega
  have hend := r.target.end_le
  have hoff := (txnOff t).isLt
  rw [hrange, hpattern, txn_toNat t, BusTarget.Covers]
  cases t.getLsbD 14 <;> cases r.isWrite <;> simp <;> omega

/-- A transaction that no row selects has an unmapped offset (rule R93). -/
theorem unmappedOff_of_no_row {t : BitVec 15} (h : ∀ r ∈ busTable, r.selects t = false) :
    unmappedOff (txnOff t) = true := by
  have key (g : BusTarget) : ¬ g.Covers (txnOff t) := fun hg => by
    obtain ⟨r, hr, htarget, hdir⟩ := exists_busRow g (t.getLsbD 14)
    exact Bool.false_ne_true ((h r hr).symm.trans ((selects_iff hr t).2 ⟨hdir.symm, htarget ▸ hg⟩))
  have all : ∀ g ∈ [BusTarget.cmd, .status, .found, .prefixLen, .startNonceLo, .startNonceHi, .nonceOffset,
      .nonceStride, .itersPerWorker, .mode, .numWorkers, .targetHex, .resultNonce, .resultDigest, .prefixBuf],
      ¬ g.Covers (txnOff t) := fun g _ => key g
  simp only [List.forall_mem_cons, BusTarget.Covers, BusTarget.base, BusTarget.bits] at all
  have hoff := (txnOff t).isLt
  simp only [unmappedOff, Bool.or_eq_true, Bool.and_eq_true, decide_eq_true_eq]
  omega

/-- What the bus decoder makes of a transaction, by its offset: the row of the target that covers it, or the unmapped
transaction. -/
theorem decodeBus_cases (t : BitVec 15) (d : Word) :
    (∃ g : BusTarget, g.Covers (txnOff t) ∧ decodeBus t d = busInstr g (t.getLsbD 14) t d) ∨
    (unmappedOff (txnOff t) = true ∧ decodeBus t d = .unmapped (txnOff t) (txnDir t d)) := by
  unfold decodeBus
  cases h : busTable.find? (·.selects t) with
  | some r =>
    obtain ⟨hdir, hcovers⟩ := (selects_iff (List.mem_of_find?_eq_some h) t).1 (by simpa using List.find?_some h)
    exact .inl ⟨r.target, hcovers, by rw [hdir]⟩
  | none => exact .inr ⟨unmappedOff_of_no_row (by simpa using h), rfl⟩

/-- The decoder makes only well-formed operations of transactions. -/
theorem decodeBus_wf (t : BitVec 15) (d : Word) : (decodeBus t d).wf = true := by
  rcases decodeBus_cases t d with ⟨g, -, e⟩ | ⟨hoff, e⟩ <;> rw [e]
  · cases g <;> cases t.getLsbD 14 <;> rfl
  · exact hoff

end Sys2Proof

namespace Sys2Proof.Machine

/-- The job registers lie from 0x00C to 0x02B. -/
theorem jobRegAt_eq_none {a : Nat} (h : 0x02C ≤ a) : jobRegAt a = none := by
  simp only [jobRegAt, List.lookup_eq_none_iff, List.forall_mem_cons, List.not_mem_nil, IsEmpty.forall_iff,
    implies_true, and_true, bne_iff_ne]
  omega

/-- What a transaction does by its offset and direction: `BusWrite`, or the receipt of `BusRead` (rules R61, R62). -/
def busOutcome (off : BitVec 14) (w : Bool) (d : Word) (s : State) : State :=
  if w then busWrite off d s else hostRead (busRead off s) s

section
variable {off : BitVec 14} {a : Nat} (w : Bool) (d : Word) (s : State) (ha : alignedOff off = a)

/-- Rule R63: OFF[1:0] selects nothing. -/
theorem busOutcome_congr {off off' : BitVec 14} (h : alignedOff off = alignedOff off') :
    busOutcome off w d s = busOutcome off' w d s := by
  simp only [busOutcome, busRead, busWrite, h]

include ha

/-- Past the registers the windows say what a transaction does. -/
theorem busOutcome_buffer (h : 0x02C ≤ a) : busOutcome off w d s =
    if (0x100 ≤ a ∧ a < 0x140) ∨ 0x2000 ≤ a then (if w then writeWindow a d s else hostRead (windowWord s a) s)
    else if 0x200 ≤ a ∧ a < 0x260 then (if w then s else hostRead (resultWord s a) s)
    else (if w then s else hostRead 0 s) := by
  have hzero : ¬ a = 0x000 ∧ ¬ a = 0x004 ∧ ¬ a = 0x008 := by omega
  simp only [busOutcome, busRead, busWrite, ha, jobRegAt_eq_none h, hzero, if_false]
  by_cases hjob : (0x100 ≤ a ∧ a < 0x140) ∨ 0x2000 ≤ a
  · rw [if_neg (show ¬ (0x200 ≤ a ∧ a < 0x260) by omega)]
    simp only [if_pos hjob]
  · by_cases hresult : 0x200 ≤ a ∧ a < 0x260
    · simp only [if_neg hjob, if_pos hresult]
    · simp only [if_neg hjob, if_neg hresult]

theorem busOutcome_jobWord (h : JobWord a) :
    busOutcome off w d s = if w then writeWindow a d s else hostRead (windowWord s a) s := by
  obtain ⟨-, hrange⟩ := h
  rw [busOutcome_buffer w d s ha (by omega), if_pos (by omega)]

theorem busOutcome_resultWord (h : 0x200 ≤ a ∧ a < 0x260) :
    busOutcome off w d s = if w then s else hostRead (resultWord s a) s := by
  rw [busOutcome_buffer w d s ha (by omega), if_neg (by omega), if_pos h]

end

/-- Rule R93 agrees with the offset's reading. -/
theorem busOutcome_unmapped {off : BitVec 14} (h : unmappedOff off = true) (w : Bool) (d : Word) (s : State) :
    busOutcome off w d s = if w then s else hostRead 0 s := by
  obtain ⟨-, -, ha⟩ := alignedOff_spec off
  simp only [unmappedOff, Bool.or_eq_true, Bool.and_eq_true, decide_eq_true_eq] at h
  rw [busOutcome_buffer w d s ha (by omega), if_neg (by omega), if_neg (by omega)]

/-- A register is one word. -/
theorem alignedOff_register {g : BusTarget} {off : BitVec 14} (hg : g.bits = 2) (h : g.Covers off) :
    alignedOff off = alignedOff (BitVec.ofNat 14 g.base) := by
  have haligned : g.base % 4 = 0 ∧ g.base < 0x4000 := by cases g <;> decide
  obtain ⟨hlo, hhi⟩ := h
  rw [(alignedOff_spec _).2.2, (alignedOff_spec _).2.2, BitVec.toNat_ofNat]
  rw [hg] at hhi
  omega

/-- The word field of a window row is the distance from the window's base, in words. -/
theorem alignedOff_window {g : BusTarget} {t : BitVec 15} {n : Nat} (hg : g.bits = n + 2)
    (hn : n = 3 ∨ n = 4 ∨ n = 11) (h : g.Covers (txnOff t)) :
    alignedOff (txnOff t) = windowOff g.base (t.extractLsb' 2 n).toNat := by
  have haligned : g.base % 2 ^ g.bits = 0 := by cases g <;> decide
  have hend := g.end_le
  obtain ⟨hlo, hhi⟩ := h
  rw [(alignedOff_spec _).2.2, windowOff, BitVec.extractLsb'_toNat, Nat.shiftRight_eq_div_pow]
  have htxn := txn_toNat t
  rw [hg] at haligned hhi hend
  rcases hn with rfl | rfl | rfl <;> split at htxn <;> omega

theorem resultNonce_range (k : BitVec 4) :
    0x200 ≤ windowOff resultNonceBase k.toNat ∧ windowOff resultNonceBase k.toNat < 0x260 := by
  have hk := k.isLt
  simp only [windowOff, resultNonceBase]
  omega

theorem resultDigest_range (k : BitVec 3) :
    0x200 ≤ windowOff resultDigestBase k.toNat ∧ windowOff resultDigestBase k.toNat < 0x260 := by
  have hk := k.isLt
  simp only [windowOff, resultDigestBase]
  omega

/-- The selected row does what its offset says. -/
theorem exec_busInstr {g : BusTarget} {t : BitVec 15} (h : g.Covers (txnOff t)) (w : Bool) (d : Word) (s : State) :
    exec (busInstr g w t d) s = .next (busOutcome (txnOff t) w d s) := by
  cases g with
  | targetHex =>
    rw [busOutcome_jobWord w d s (alignedOff_window rfl (by decide) h) (jobWord_targetHex _)]
    cases w <;> rfl
  | prefixBuf =>
    rw [busOutcome_jobWord w d s (alignedOff_window rfl (by decide) h) (jobWord_prefix _)]
    cases w <;> rfl
  | resultNonce =>
    rw [busOutcome_resultWord w d s (alignedOff_window rfl (by decide) h) (resultNonce_range _)]
    cases w <;> rfl
  | resultDigest =>
    rw [busOutcome_resultWord w d s (alignedOff_window rfl (by decide) h) (resultDigest_range _)]
    cases w <;> rfl
  | _ =>
    rw [busOutcome_congr w d s (alignedOff_register rfl h)]
    cases w <;> rfl

/-- Every transaction does what its offset and its direction say. -/
theorem exec_decodeBus (t : BitVec 15) (d : Word) (s : State) :
    exec (decodeBus t d) s = .next (busOutcome (txnOff t) (t.getLsbD 14) d s) := by
  rcases decodeBus_cases t d with ⟨g, hg, e⟩ | ⟨hoff, e⟩ <;> rw [e]
  · exact exec_busInstr hg _ d s
  · rw [busOutcome_unmapped hoff, txnDir]
    cases t.getLsbD 14 <;> rfl

/-- Settles O18: by the decoder's cases, and the aligned offset does not see OFF[1:0]. -/
theorem busRowsRefineBusReadAndBusWrite : Obligations.BusRowsRefineBusReadAndBusWrite := by
  intro t d s
  refine ⟨(exec_decodeBus t d s).trans (by rw [busOutcome]), ?_⟩
  have hdir : (t &&& 0x7FFC).getLsbD 14 = t.getLsbD 14 := by simp
  have hmask : (t &&& 0x7FFC).toNat = t.toNat / 4 * 4 := toNat_and_highMask t 2
  have hoff : alignedOff (txnOff t) = alignedOff (txnOff (t &&& 0x7FFC)) := by
    rw [(alignedOff_spec _).2.2, (alignedOff_spec _).2.2, txnOff_toNat, txnOff_toNat, hmask]
    omega
  rw [exec_decodeBus, exec_decodeBus, hdir, busOutcome_congr _ d s hoff]

/-- Settles O17: each of these rows answers the state it is given. -/
theorem writesToReadOnlyOffsetsAreIgnored : Obligations.WritesToReadOnlyOffsetsAreIgnored :=
  fun s _ => ⟨rfl, rfl, fun _ => rfl, fun _ => rfl, fun _ => rfl, fun _ => ⟨_, rfl, answered_hostRead s 0⟩⟩

end Sys2Proof.Machine
end

section
/-! PROOFS. The meanings do not depend on the host's program or on the schedule (log entries 4, 9 and 10): what an
operation does with the two, the host's step, and a schedule taken one agent's step at a time. -/

namespace Sys2Proof.Machine

/-- `s` with the host's program `p` and the schedule `q`. -/
def fed (p : List HostItem) (q : List Pick) (s : State) : State := { s with env.hostProg := p, env.sched := q }

/-- What is left of a WRBUF of `bs` from `base`: nothing of an empty string (30_encoding.md rule R99). -/
def wrbufLine (base : BitVec 14) (bs : List Byte) : List HostItem := if bs = [] then [] else [.wrbuf base bs]

/-- What is left of an RDBUF of `n` bytes from `base`. -/
def rdbufLine (base : BitVec 14) (n : Nat) : List HostItem := if n = 0 then [] else [.rdbuf base n]

/-- What an operation puts back at the head of the host's program (log entry 10). -/
def leftover (i : Instr) (s : State) : List HostItem :=
  match i with
  | .wr64 off v => [.txn (wrTxn (off + 4)) (v.extractLsb' 32 32)]
  | .wrbuf base bs => wrbufLine (base + 4) (bs.drop 4)
  | .rdbuf base n => rdbufLine (base + 4) (n - 4)
  | .waitdone => if s.done then [] else [.waitdone]
  | _ => []

@[simp] theorem leftover_wrbuf (base : BitVec 14) (bs : List Byte) (s : State) :
    leftover (.wrbuf base bs) s = wrbufLine (base + 4) (bs.drop 4) := rfl

@[simp] theorem leftover_rdbuf (base : BitVec 14) (n : Nat) (s : State) :
    leftover (.rdbuf base n) s = rdbufLine (base + 4) (n - 4) := rfl

@[simp] theorem leftover_waitdone (s : State) :
    leftover .waitdone s = if s.done then [] else [.waitdone] := rfl

section
variable (p : List HostItem) (q : List Pick) (s : State)

theorem sameBlock_fed : SameBlock s (fed p q s) := sameBlock_env s rfl

/-! No shared operation reads the program or the schedule. -/

theorem jobWrite_fed {f : State → State} (h : ∀ u, f (fed p q u) = fed p q (f u)) :
    jobWrite f (fed p q s) = fed p q (jobWrite f s) := by
  have hb : busy (fed p q s) = busy s := rfl
  unfold jobWrite
  rw [hb]
  split
  · rfl
  · exact h s

theorem writeReg_fed (r : JobReg) (v : Word) : writeReg r v (fed p q s) = fed p q (writeReg r v s) :=
  jobWrite_fed p q s fun _ => by cases r <;> rfl

theorem writeWindow_fed (a : Nat) (v : Word) : writeWindow a v (fed p q s) = fed p q (writeWindow a v s) :=
  jobWrite_fed p q s fun _ => rfl

theorem startCommand_fed : startCommand (fed p q s) = fed p q (startCommand s) := jobWrite_fed p q s fun _ => rfl

theorem commandWrite_fed (v : Word) : commandWrite v (fed p q s) = fed p q (commandWrite v s) := by
  unfold commandWrite
  split
  · exact startCommand_fed p q s
  · rfl

theorem busWrite_fed (off : BitVec 14) (v : Word) : busWrite off v (fed p q s) = fed p q (busWrite off v s) := by
  unfold busWrite
  simp only []
  split
  · exact commandWrite_fed p q s v
  · split
    · exact writeReg_fed p q s _ v
    · split
      · exact writeWindow_fed p q s _ v
      · rfl

theorem completeStep_fed : completeStep (fed p q s) = fed p q (completeStep s) := by
  have hx : allExited (fed p q s) = allExited s := rfl
  have hp : (fed p q s).phase = s.phase := rfl
  unfold completeStep
  rw [hx, hp]
  split <;> rfl

theorem execSetup_fed : execSetup (fed p q s) = .next (fed p q (if s.phase = .setup then setupStep s else s)) := by
  have hp : (fed p q s).phase = s.phase := rfl
  unfold execSetup
  rw [hp]
  split <;> rfl

theorem workerStep_fed {g : Word} {ph : WPhase} {f f' : Worker → State} (h : ∀ w, f w = fed p q (f' w)) :
    workerStep g ph f (fed p q s) = fed p q (workerStep g ph f' s) := by
  have hw : worker? (fed p q s) g = worker? s g := rfl
  unfold workerStep
  rw [hw]
  split
  · split
    · exact h _
    · rfl
  · rfl

theorem waitStep_fed (g : Word) : waitStep g (fed p q s) = fed p q (waitStep g s) := by
  have hp : (fed p q s).phase = s.phase := rfl
  unfold waitStep
  rw [hp]
  split
  · exact workerStep_fed p q s fun _ => rfl
  · rfl

theorem pollStep_fed (g : Word) : pollStep g (fed p q s) = fed p q (pollStep g s) := by
  have hb : budget (fed p q s).job = budget s.job := rfl
  have hf : (fed p q s).found = s.found := rfl
  refine workerStep_fed p q s fun w => ?_
  rw [hb, hf]
  split <;> [rfl; split <;> rfl]

theorem evalStep_fed (g : Word) : evalStep g (fed p q s) = fed p q (evalStep g s) := by
  have hj : (fed p q s).job = s.job := rfl
  have hu : (fed p q s).setup = s.setup := rfl
  refine workerStep_fed p q s fun w => ?_
  simp only [hj, hu]
  split <;> rfl

theorem claimStep_fed (g : Word) : claimStep g (fed p q s) = fed p q (claimStep g s) := by
  have hf : (fed p q s).found = s.found := rfl
  refine workerStep_fed p q s fun w => ?_
  rw [hf]
  split <;> rfl

theorem writeResultStep_fed (g : Word) : writeResultStep g (fed p q s) = fed p q (writeResultStep g s) :=
  workerStep_fed p q s fun _ => rfl

theorem publishStep_fed (g : Word) : publishStep g (fed p q s) = fed p q (publishStep g s) :=
  workerStep_fed p q s fun _ => rfl

end

/-! The pseudo-operations: one transaction now, and the rest of their expansion put back (log entry 10). -/

/-- DONE is bit 1 of STATUS (rule R22). -/
theorem statusWord_done (s : State) : (statusWord s).getLsbD 1 = s.done :=
  (status_layout s.phase.code s.done (busy s)).2.1

/-- A WRBUF of some bytes writes one word and leaves the rest of the string, if any, to the host. -/
theorem exec_wrbuf (base : BitVec 14) {bs : List Byte} (h : bs ≠ []) (s : State) : exec (.wrbuf base bs) s =
    .next (if bs.length ≤ 4 then busWrite base (laneWordAt bs) s
      else pushHost (.wrbuf (base + 4) (bs.drop 4)) (busWrite base (laneWordAt bs) s)) := by
  simp only [exec, execWrbuf, if_neg h]
  split <;> rfl

/-- An RDBUF of some bytes reads one word and leaves the rest, if any, to the host. -/
theorem exec_rdbuf (base : BitVec 14) {n : Nat} (h : n ≠ 0) (s : State) : exec (.rdbuf base n) s =
    .next (if n ≤ 4 then hostRead (busRead base s) s
      else pushHost (.rdbuf (base + 4) (n - 4)) (hostRead (busRead base s) s)) := by
  simp only [exec, execRdbuf, if_neg h]
  split <;> rfl

/-- WAITDONE reads STATUS, and again while the DONE bit it read is 0. -/
theorem exec_waitdone (s : State) : exec .waitdone s =
    .next (if s.done then hostRead (statusWord s) s else pushHost .waitdone (hostRead (statusWord s) s)) := by
  simp only [exec, execWaitdone, statusWord_done]
  split <;> rfl

section
variable (p : List HostItem) (q : List Pick) (s : State)

theorem exec_wr64_fed (off : BitVec 14) (v : Long) : exec (.wr64 off v) (fed p q s) =
    .next (fed (leftover (.wr64 off v) s ++ p) q (busWrite off (v.extractLsb' 0 32) s)) := by
  simp only [exec, execWr64, busWrite_fed]
  rfl

theorem exec_wrbuf_fed (base : BitVec 14) {bs : List Byte} (h : bs ≠ []) : exec (.wrbuf base bs) (fed p q s) =
    .next (fed (leftover (.wrbuf base bs) s ++ p) q (busWrite base (laneWordAt bs) s)) := by
  rw [exec_wrbuf base h, busWrite_fed, leftover_wrbuf, wrbufLine]
  simp only [List.drop_eq_nil_iff]
  split <;> rfl

theorem exec_rdbuf_fed (base : BitVec 14) {n : Nat} (h : n ≠ 0) : exec (.rdbuf base n) (fed p q s) =
    .next (fed (leftover (.rdbuf base n) s ++ p) q (hostRead (busRead base s) s)) := by
  rw [exec_rdbuf base h, leftover_rdbuf, rdbufLine]
  simp only [Nat.sub_eq_zero_iff_le]
  split <;> rfl

theorem exec_waitdone_fed : exec .waitdone (fed p q s) =
    .next (fed (leftover .waitdone s ++ p) q (hostRead (statusWord s) s)) := by
  have hdone : (fed p q s).done = s.done := rfl
  rw [exec_waitdone, leftover_waitdone, hdone]
  split <;> rfl

end

/-- Every operation answers a next state; whatever the host's program and the schedule are, it puts its leftover back
at the head of the one, leaves the other alone, and does the same to the rest. -/
theorem exec_fed (i : Instr) (s : State) : ∃ t, exec i s = .next t ∧
    ∀ p q, exec i (fed p q s) = .next (fed (leftover i s ++ p) q t) := by
  have pseudo {t : State} (h : ∀ p q, exec i (fed p q s) = .next (fed (leftover i s ++ p) q t)) :
      ∃ t, exec i s = .next t ∧ ∀ p q, exec i (fed p q s) = .next (fed (leftover i s ++ p) q t) :=
    ⟨_, h s.env.hostProg s.env.sched, h⟩
  cases i with
  | wr64 off v => exact pseudo fun p q => exec_wr64_fed p q s off v
  | wrbuf base bs =>
    by_cases h : bs = []
    · subst h
      exact ⟨s, rfl, fun _ _ => rfl⟩
    · exact pseudo fun p q => exec_wrbuf_fed p q s base h
  | rdbuf base n =>
    by_cases h : n = 0
    · subst h
      exact ⟨s, rfl, fun _ _ => rfl⟩
    · exact pseudo fun p q => exec_rdbuf_fed p q s base h
  | waitdone => exact pseudo fun p q => exec_waitdone_fed p q s
  | wrPrefixLen | wrStartNonceLo | wrStartNonceHi | wrNonceOffset | wrNonceStride | wrItersPerWorker | wrMode
  | wrNumWorkers =>
    exact ⟨_, rfl, fun p q => congrArg _ (writeReg_fed p q s _ _)⟩
  | wrTargetHex | wrPrefix => exact ⟨_, rfl, fun p q => congrArg _ (writeWindow_fed p q s _ _)⟩
  | wrCmd v => exact ⟨_, rfl, fun p q => congrArg _ (commandWrite_fed p q s v)⟩
  | start => exact ⟨_, rfl, fun p q => congrArg _ (startCommand_fed p q s)⟩
  | setup => exact ⟨_, rfl, fun p q => execSetup_fed p q s⟩
  | complete => exact ⟨_, rfl, fun p q => congrArg _ (completeStep_fed p q s)⟩
  | wait g => exact ⟨_, rfl, fun p q => congrArg _ (waitStep_fed p q s g)⟩
  | poll g => exact ⟨_, rfl, fun p q => congrArg _ (pollStep_fed p q s g)⟩
  | eval g => exact ⟨_, rfl, fun p q => congrArg _ (evalStep_fed p q s g)⟩
  | claim g => exact ⟨_, rfl, fun p q => congrArg _ (claimStep_fed p q s g)⟩
  | writeResult g => exact ⟨_, rfl, fun p q => congrArg _ (writeResultStep_fed p q s g)⟩
  | publish g => exact ⟨_, rfl, fun p q => congrArg _ (publishStep_fed p q s g)⟩
  | unmapped off dir => cases dir <;> exact ⟨_, rfl, fun _ _ => rfl⟩
  | _ => exact ⟨_, rfl, fun _ _ => rfl⟩

/-- An operation run from `fed p q s` answers the state it answers from `s`, with the program and schedule its own. -/
theorem exec_fed_of_next {i : Instr} {s t : State} (e : exec i s = .next t) (p : List HostItem) (q : List Pick) :
    exec i (fed p q s) = .next (fed (leftover i s ++ p) q t) := by
  obtain ⟨u, hu, hfed⟩ := exec_fed i s
  cases hu.symm.trans e
  exact hfed p q

theorem leftover_eq_nil {i : Instr} (h : i.isPseudo = false) (s : State) : leftover i s = [] := by
  cases i with
  | wr64 | wrbuf | rdbuf | waitdone => cases h
  | _ => rfl

/-- The rest of a transfer still fits the bus. -/
theorem transferFits_rest {base : BitVec 14} {n : Nat} (h : transferFits base n = true) :
    transferFits (base + 4) (n - 4) = true := by
  have hbase := base.isLt
  have hnext : (base + 4).toNat = (base.toNat + 4) % 0x4000 := BitVec.toNat_add base 4
  simp only [transferFits, Bool.or_eq_true, beq_iff_eq, decide_eq_true_eq, hnext] at h ⊢
  omega

/-- What is left of a well-formed operation is well formed. -/
theorem leftover_wf {i : Instr} (hi : i.wf = true) (s : State) : ∀ it ∈ leftover i s, it.instr.wf = true := by
  intro it hit
  cases hp : i.isPseudo with
  | false => rw [leftover_eq_nil hp] at hit; cases hit
  | true =>
    cases i with
    | wr64 off v =>
      cases List.mem_singleton.1 hit
      exact decodeBus_wf _ _
    | wrbuf base bs =>
      simp only [leftover_wrbuf, wrbufLine] at hit
      split at hit
      · cases hit
      · cases List.mem_singleton.1 hit
        simpa [HostItem.instr, Instr.wf] using transferFits_rest hi
    | rdbuf base n =>
      simp only [leftover_rdbuf, rdbufLine] at hit
      split at hit
      · cases hit
      · cases List.mem_singleton.1 hit
        exact transferFits_rest hi
    | waitdone =>
      simp only [leftover_waitdone] at hit
      split at hit
      · cases hit
      · cases List.mem_singleton.1 hit
        rfl
    | _ => cases hp

/-! ## Steps -/

/-- A step whose schedule names an agent next is that agent's step. -/
theorem step_eq_stepAs {s : State} {m : Mover} {ps : List Pick} (h : s.env.sched = .mover m :: ps) :
    step s = stepAs m (fed s.env.hostProg ps s) := by
  have hs : s = { fed s.env.hostProg ps s with env.sched := .mover m :: ps } := by rw [← h]; rfl
  rw [hs]
  rfl

/-- The host's step runs its next line. -/
theorem stepAs_host {it : HostItem} (hi : it.instr.wf = true) (rest : List HostItem) (q : List Pick) (s : State) :
    stepAs .host (fed (it :: rest) q s) = exec it.instr (fed rest q s) :=
  if_pos hi

/-- Settles O8: the schedule names the host, and the host's step runs its next line. -/
theorem stepRunsTheHostsNextLine : Obligations.StepRunsTheHostsNextLine := by
  intro s ps it rest hsched hprog hi
  rw [step_eq_stepAs hsched, hprog]
  exact stepAs_host hi rest ps s

theorem exec_feed_eq {i : Instr} {s t : State} (e : exec i s = .next t) :
    t.env.sched = s.env.sched ∧ t.env.hostProg = leftover i s ++ s.env.hostProg := by
  have ht : t = fed (leftover i s ++ s.env.hostProg) s.env.sched t :=
    Host.Outcome.next.inj (e.symm.trans (exec_fed_of_next e s.env.hostProg s.env.sched))
  exact ⟨congrArg (·.env.sched) ht, congrArg (·.env.hostProg) ht⟩

/-- Every line of the host's program names a well-formed operation. -/
def LinesOk (p : List HostItem) : Prop := ∀ it ∈ p, it.instr.wf = true

theorem setupInstr_wf {p : Phase} {i : Instr} (h : setupInstr p = some i) : i.wf = true := by
  cases p <;> cases h <;> rfl

/-- What an agent fetches, whatever the schedule: an operation, a hold, or a reset. -/
theorem fetchMover_fed_cases (m : Mover) (s : State) :
    (∃ i p, (LinesOk s.env.hostProg → i.wf = true ∧ LinesOk p) ∧
      ∀ q, fetchMover m (fed s.env.hostProg q s) = .run i (fed p q s)) ∨
    (∀ q, fetchMover m (fed s.env.hostProg q s) = .hold (fed s.env.hostProg q s)) ∨
    (∀ q, fetchMover m (fed s.env.hostProg q s) = .reset (fed s.env.hostProg q s)) := by
  have own {i : Instr} (hi : i.wf = true)
      (h : ∀ q, fetchMover m (fed s.env.hostProg q s) = .run i (fed s.env.hostProg q s)) :
      ∃ i p, (LinesOk s.env.hostProg → i.wf = true ∧ LinesOk p) ∧
        ∀ q, fetchMover m (fed s.env.hostProg q s) = .run i (fed p q s) := ⟨i, _, fun hp => ⟨hi, hp⟩, h⟩
  cases m with
  | host =>
    cases hprog : s.env.hostProg with
    | nil => exact .inr (.inl fun _ => rfl)
    | cons it rest =>
      exact .inl ⟨it.instr, rest, fun hp => ⟨hp it (by simp), fun x hx => hp x (by simp [hx])⟩, fun _ => rfl⟩
  | setup =>
    have hphase (q : List Pick) : (fed s.env.hostProg q s).phase = s.phase := rfl
    cases hi : setupInstr s.phase with
    | none => exact .inr (.inl fun q => by simp only [fetchMover, hphase, hi])
    | some i => exact .inl (own (setupInstr_wf hi) fun q => by simp only [fetchMover, hphase, hi])
  | worker g =>
    have hsame (q : List Pick) : worker? (fed s.env.hostProg q s) g = worker? s g := rfl
    cases hw : worker? s g with
    | none => exact .inr (.inl fun q => by simp only [fetchMover, hsame, hw])
    | some w =>
      cases hi : workerInstr g w.phase with
      | none => exact .inr (.inl fun q => by simp only [fetchMover, hsame, hw, hi])
      | some i => exact .inl (own (workerInstr_wf hi) fun q => by simp only [fetchMover, hsame, hw, hi])
  | reset => exact .inr (.inr fun _ => rfl)

/-- An agent's step does not depend on the schedule that follows it. -/
theorem stepAs_fed {m : Mover} {s t : State} (h : stepAs m s = .next t) (q : List Pick) :
    t.env.sched = s.env.sched ∧ stepAs m (fed s.env.hostProg q s) = .next (fed t.env.hostProg q t) := by
  have hown : stepAs m (fed s.env.hostProg s.env.sched s) = .next t := h
  rw [stepAs_eq] at hown ⊢
  rcases fetchMover_fed_cases m s with ⟨i, p, -, hf⟩ | hf | hf <;> rw [hf] at hown ⊢
  · by_cases hi : i.wf = true
    · simp only [if_pos hi] at hown ⊢
      obtain ⟨hsched, hprog⟩ := exec_feed_eq hown
      rw [hprog]
      exact ⟨hsched, exec_fed_of_next hown p q⟩
    · simp only [if_neg hi] at hown
      cases hown
  · cases hown
    exact ⟨rfl, rfl⟩
  · cases hown
    exact ⟨rfl, rfl⟩

/-- An agent's step answers a next state on lines that name operations, and leaves only such lines. -/
theorem stepAs_total (m : Mover) {s : State} (h : LinesOk s.env.hostProg) :
    ∃ t, stepAs m s = .next t ∧ LinesOk t.env.hostProg := by
  change ∃ t, stepAs m (fed s.env.hostProg s.env.sched s) = .next t ∧ LinesOk t.env.hostProg
  rw [stepAs_eq]
  rcases fetchMover_fed_cases m s with ⟨i, p, hok, hf⟩ | hf | hf <;> rw [hf]
  · obtain ⟨hi, hp⟩ := hok h
    obtain ⟨t, ht, -⟩ := exec_fed i (fed p s.env.sched s)
    refine ⟨t, by simp only [if_pos hi, ht], ?_⟩
    rw [(exec_feed_eq ht).2]
    exact List.forall_mem_append.2 ⟨leftover_wf hi _, hp⟩
  · exact ⟨_, rfl, h⟩
  · exact ⟨_, rfl, h⟩

theorem core_run_succ {M : Host.Core} {s t : M.State} (h : M.step s = .next t) (n : Nat) :
    M.run (n + 1) s = M.run n t := by
  rw [Host.Core.run, h]

/-- A schedule is run one agent's step at a time. -/
theorem runPicks_cons {m : Mover} {s t : State} (h : stepAs m s = .next t) (ps : List Pick) :
    runPicks (.mover m :: ps) s = runPicks ps t := by
  obtain ⟨hsched, hstep⟩ := stepAs_fed h (ps ++ s.env.sched)
  rw [runPicks, runPicks, hsched]
  exact core_run_succ (M := core) hstep ps.length

end Sys2Proof.Machine
end

section
/-! PROOFS. The pseudo-operations (30_encoding.md rule R99): each step is the meaning of the transaction it issues, and
a whole WRBUF or RDBUF moves the bytes of its window. -/

namespace Sys2Proof.Machine

/-! ## One transaction a step -/

theorem txnOff_rdTxn (off : BitVec 14) : txnOff (rdTxn off) = off := by
  apply BitVec.eq_of_toNat_eq
  have hoff := off.isLt
  rw [txnOff_toNat, rdTxn, BitVec.toNat_setWidth]
  omega

theorem rdTxn_dir (off : BitVec 14) : (rdTxn off).getLsbD 14 = false := by simp [rdTxn]

theorem wrTxn_toNat (off : BitVec 14) : (wrTxn off).toNat = 2 ^ 14 + off.toNat := by
  have hoff : off.toNat < 2 ^ 14 := off.isLt
  have hwide : off.toNat % 2 ^ 15 = off.toNat := Nat.mod_eq_of_lt (by omega)
  rw [wrTxn, BitVec.toNat_or, BitVec.toNat_setWidth, hwide]
  exact (Nat.two_pow_add_eq_or_of_lt hoff 1).symm

theorem txnOff_wrTxn (off : BitVec 14) : txnOff (wrTxn off) = off := by
  apply BitVec.eq_of_toNat_eq
  have hoff := off.isLt
  rw [txnOff_toNat, wrTxn_toNat]
  omega

theorem wrTxn_dir (off : BitVec 14) : (wrTxn off).getLsbD 14 = true := by simp [wrTxn]

/-- `RD <off>` gives the host `BusRead(off)` (rules R61 and R98). -/
theorem exec_rdTxn (off : BitVec 14) (d : Word) (s : State) :
    exec (decodeBus (rdTxn off) d) s = .next (hostRead (busRead off s) s) := by
  rw [exec_decodeBus, txnOff_rdTxn, rdTxn_dir]
  rfl

/-- `WR <off>, <data>` is `BusWrite(off, data)` (rules R62 and R98). -/
theorem exec_wrTxn (off : BitVec 14) (d : Word) (s : State) :
    exec (decodeBus (wrTxn off) d) s = .next (busWrite off d s) := by
  rw [exec_decodeBus, txnOff_wrTxn, wrTxn_dir]
  rfl

/-- Settles O19: a pseudo-operation does what the transaction it issues does, and the rest is put back. -/
theorem pseudoOperationsIssueTheirNextTransaction : Obligations.PseudoOperationsIssueTheirNextTransaction :=
  fun s => ⟨fun off _ => ⟨_, _, rfl, exec_wrTxn off _ s, rfl⟩, fun _ => ⟨rfl, rfl⟩,
    fun base _ h => ⟨_, _, exec_wrbuf base h s, exec_wrTxn base _ s, rfl⟩,
    fun base _ h => ⟨_, _, exec_rdbuf base h.ne' s, exec_rdTxn base 0 s, rfl⟩,
    ⟨_, _, exec_waitdone s, rfl, rfl⟩⟩

/-! ## A whole transfer, word by word -/

theorem ofNat_add_four (a : Nat) : BitVec.ofNat 14 a + 4 = BitVec.ofNat 14 (a + 4) := (BitVec.ofNat_add a 4).symm

/-- The `k` words of a transfer from `a` lie in the windows of the job buffers. -/
def InJobBuffer (a k : Nat) : Prop := a % 4 = 0 ∧ (0x100 ≤ a ∧ a + 4 * k ≤ 0x140 ∨ 0x2000 ≤ a ∧ a + 4 * k ≤ 0x4000)

theorem InJobBuffer.jobWord {a k : Nat} (h : InJobBuffer a (k + 1)) : JobWord a := by
  unfold InJobBuffer at h
  unfold JobWord
  omega

theorem InJobBuffer.rest {a k : Nat} (h : InJobBuffer a (k + 1)) : InJobBuffer (a + 4) k := by
  unfold InJobBuffer at h ⊢
  omega

theorem alignedOff_ofNat {a : Nat} (h : a % 4 = 0) (hlt : a < 0x4000) : alignedOff (BitVec.ofNat 14 a) = a := by
  rw [(alignedOff_spec _).2.2, BitVec.toNat_ofNat]
  omega

/-- What a word of a string put at `a` does to every byte: zero past the end of the string (rule R99). -/
theorem bufByte_writeBytes_laneWordAt (s : State) (a x : Nat) (bs : List Byte) :
    bufByte (writeBytes s a (laneBytes (laneWordAt bs))) x =
      if a ≤ x ∧ x < a + 4 then bs.getD (x - a) 0 else bufByte s x := by
  split
  · next h =>
    obtain ⟨j, hj, rfl⟩ : ∃ j, j < 4 ∧ x = a + j := ⟨x - a, by omega, by omega⟩
    rw [bufByte_writeBytes, dif_pos ⟨h.1, by rw [laneBytes_length]; exact h.2⟩]
    simp only [laneWordAt, laneBytes_laneWord, Nat.add_sub_cancel_left]
    match j, hj with
    | 0, _ | 1, _ | 2, _ | 3, _ => rfl
  · next h => exact bufByte_writeBytes_outside s a x _ (by rw [laneBytes_length]; omega)

/-- The host's step of a WRBUF into a job buffer while IDLE: one word stored, and the rest of the string to do. -/
theorem stepAs_wrbuf {a k : Nat} {bs : List Byte} {s : State} (hp : s.phase = .idle) (ha : InJobBuffer a (k + 1))
    (hk : (bs.length + 3) / 4 = k + 1) (p : List HostItem) (q : List Pick) :
    stepAs .host (fed (wrbufLine (BitVec.ofNat 14 a) bs ++ p) q s) = .next
      (fed (wrbufLine (BitVec.ofNat 14 (a + 4)) (bs.drop 4) ++ p) q (writeBytes s a (laneBytes (laneWordAt bs)))) := by
  have hbs : bs ≠ [] := by rintro rfl; simp at hk
  have hwrite : busWrite (BitVec.ofNat 14 a) (laneWordAt bs) s = writeBytes s a (laneBytes (laneWordAt bs)) := by
    have hword := ha.jobWord
    have hoff := alignedOff_ofNat ha.1 (by unfold JobWord at hword; omega)
    have hwindow : busWrite (BitVec.ofNat 14 a) (laneWordAt bs) s = writeWindow a (laneWordAt bs) s :=
      busOutcome_jobWord true _ s hoff hword
    rw [hwindow, writeWindow, jobWrite_idle _ hp]
  have hfits : (HostItem.wrbuf (BitVec.ofNat 14 a) bs).instr.wf = true := by
    unfold InJobBuffer at ha
    simp only [HostItem.instr, Instr.wf, transferFits, BitVec.toNat_ofNat, Bool.or_eq_true, decide_eq_true_eq]
    omega
  rw [wrbufLine, if_neg hbs, List.singleton_append, stepAs_host hfits, HostItem.instr, exec_wrbuf_fed p q s _ hbs,
    hwrite, leftover_wrbuf, ofNat_add_four]

/-- The host's steps of a WRBUF into a job buffer while IDLE store the whole string. -/
theorem runPicks_wrbuf (k : Nat) {a : Nat} {bs : List Byte} {s : State} (hp : s.phase = .idle) (ha : InJobBuffer a k)
    (hk : (bs.length + 3) / 4 = k) :
    ∃ t, runPicks (List.replicate k (.mover .host))
        (fed (wrbufLine (BitVec.ofNat 14 a) bs ++ s.env.hostProg) s.env.sched s) = .next t ∧
      t = { s with mem := t.mem } ∧
      ∀ x, bufByte t x = if a ≤ x ∧ x < a + 4 * k then bs.getD (x - a) 0 else bufByte s x := by
  induction k generalizing a bs s with
  | zero =>
    obtain rfl : bs = [] := List.length_eq_zero_iff.1 (by omega)
    exact ⟨s, rfl, rfl, fun x => (if_neg (by omega)).symm⟩
  | succ k ih =>
    have hlen : ((bs.drop 4).length + 3) / 4 = k := by rw [List.length_drop]; omega
    obtain ⟨t, hrun, hframe, hbytes⟩ := ih (s := writeBytes s a (laneBytes (laneWordAt bs))) hp ha.rest hlen
    refine ⟨t, ?_, hframe, fun x => ?_⟩
    · rw [List.replicate_succ, runPicks_cons (stepAs_wrbuf hp ha hk _ _)]
      exact hrun
    · rw [hbytes, bufByte_writeBytes_laneWordAt]
      by_cases hrest : a + 4 ≤ x ∧ x < a + 4 + 4 * k
      · rw [if_pos hrest, if_pos (by omega), List.getD_eq_getElem?_getD, List.getElem?_drop,
          ← List.getD_eq_getElem?_getD]
        rw [show 4 + (x - (a + 4)) = x - a by omega]
      · rw [if_neg hrest]
        exact if_congr (by omega) rfl rfl

/-- Settles O20: the string is stored word by word. -/
theorem wrbufStoresTheWholeString : Obligations.WrbufStoresTheWholeString := by
  intro s base bs hp haligned hwindow
  have hprog : (if bs = [] then s.env.hostProg else .wrbuf base bs :: s.env.hostProg) =
      wrbufLine (BitVec.ofNat 14 base.toNat) bs ++ s.env.hostProg := by
    rw [BitVec.ofNat_toNat, BitVec.setWidth_eq, wrbufLine]
    split <;> rfl
  rw [hprog]
  exact runPicks_wrbuf _ hp ⟨haligned, hwindow⟩ rfl

/-! The reads of a transfer. -/

/-- The bytes from `a` on, `n` of them, lie in one of the four windows, from a word boundary. -/
def InOneWindow (a n : Nat) : Prop := a % 4 = 0 ∧
  (0x100 ≤ a ∧ a + n ≤ 0x140 ∨ 0x200 ≤ a ∧ a + n ≤ 0x240 ∨ 0x240 ≤ a ∧ a + n ≤ 0x260 ∨ 0x2000 ≤ a ∧ a + n ≤ 0x4000)

/-- The `k` words from `a` on, first to last. -/
def windowWords (s : State) (a : Nat) : Nat → List Word
  | 0 => []
  | k + 1 => windowWord s a :: windowWords s (a + 4) k

theorem windowWords_length (s : State) (a k : Nat) : (windowWords s a k).length = k := by
  induction k generalizing a with
  | zero => rfl
  | succ k ih => rw [windowWords, List.length_cons, ih]

/-- The lanes of the words are the bytes (rule R64). -/
theorem windowWords_flatMap (s : State) (a k : Nat) :
    (windowWords s a k).flatMap laneBytes = (List.range (4 * k)).map fun i => bufByte s (a + i) := by
  induction k generalizing a with
  | zero => rfl
  | succ k ih =>
    rw [windowWords, List.flatMap_cons, ih, Nat.mul_succ, Nat.add_comm (4 * k) 4, List.range_add, List.map_append,
      List.map_map, windowWord, laneBytes_laneWord]
    simp [List.range_succ, Function.comp_def, Nat.add_assoc]

theorem windowWords_congr {s t : State} (h : SameBlock s t) (a k : Nat) : windowWords t a k = windowWords s a k := by
  induction k generalizing a with
  | zero => rfl
  | succ k ih => simp only [windowWords, windowWord, h.bufByte, ih]

/-- While FOUND.STATE is not 1 the host gets the word there from any window (rules R61 and R68). -/
theorem hostRead_busRead {a n : Nat} {s : State} (hf : s.found ≠ .claimed) (ha : InOneWindow a n) (hn : 0 < n) :
    hostRead (busRead (BitVec.ofNat 14 a) s) s = hostRead (windowWord s a) s := by
  obtain ⟨haligned, hrange⟩ := ha
  have hoff := alignedOff_ofNat haligned (by omega)
  by_cases hresult : 0x200 ≤ a ∧ a < 0x260
  · have hword : resultWord s a = windowWord s a := if_neg hf
    rw [← hword]
    exact busOutcome_resultWord false 0 s hoff hresult
  · exact busOutcome_jobWord false 0 s hoff ⟨haligned, by omega⟩

/-- The host's step of an RDBUF: one word read, and the rest of the bytes to do. -/
theorem stepAs_rdbuf {a n : Nat} {s : State} (hf : s.found ≠ .claimed) (ha : InOneWindow a n) (hn : 0 < n)
    (p : List HostItem) (q : List Pick) :
    stepAs .host (fed (rdbufLine (BitVec.ofNat 14 a) n ++ p) q s) = .next
      (fed (rdbufLine (BitVec.ofNat 14 (a + 4)) (n - 4) ++ p) q (hostRead (windowWord s a) s)) := by
  have hfits : (HostItem.rdbuf (BitVec.ofNat 14 a) n).instr.wf = true := by
    unfold InOneWindow at ha
    simp only [HostItem.instr, Instr.wf, transferFits, BitVec.toNat_ofNat, Bool.or_eq_true, decide_eq_true_eq]
    omega
  rw [rdbufLine, if_neg hn.ne', List.singleton_append, stepAs_host hfits, HostItem.instr,
    exec_rdbuf_fed p q s _ hn.ne', hostRead_busRead hf ha hn, leftover_rdbuf, ofNat_add_four]

/-- The host's steps of an RDBUF give it the words of the window, the last one newest. -/
theorem runPicks_rdbuf (k : Nat) {a n : Nat} {s : State} (hf : s.found ≠ .claimed) (ha : InOneWindow a n)
    (hk : (n + 3) / 4 = k) :
    ∃ t, runPicks (List.replicate k (.mover .host))
        (fed (rdbufLine (BitVec.ofNat 14 a) n ++ s.env.hostProg) s.env.sched s) = .next t ∧ SameBlock s t ∧
      t.env.hostProg = s.env.hostProg ∧ t.env.hostRx = (windowWords s a k).reverse ++ s.env.hostRx := by
  induction k generalizing a n s with
  | zero =>
    obtain rfl : n = 0 := by omega
    exact ⟨s, rfl, .refl s, rfl, rfl⟩
  | succ k ih =>
    have hrest : InOneWindow (a + 4) (n - 4) := by
      unfold InOneWindow at ha ⊢
      omega
    have hread := sameBlock_hostRead (windowWord s a) s
    obtain ⟨t, hrun, hblock, hprog, hrx⟩ := ih (s := hostRead (windowWord s a) s) hf hrest (by omega)
    refine ⟨t, ?_, hread.trans hblock, hprog, ?_⟩
    · rw [List.replicate_succ, runPicks_cons (stepAs_rdbuf hf ha (by omega) _ _)]
      exact hrun
    · rw [hrx, windowWords_congr hread, windowWords, List.reverse_cons, List.append_assoc]
      rfl

/-- Settles O21: the host's record holds the words of the window, whose lanes are its bytes. -/
theorem rdbufReturnsTheBytes : Obligations.RdbufReturnsTheBytes := by
  intro s base n hf haligned hn hwindow
  have hprog : .rdbuf base n :: s.env.hostProg = rdbufLine (BitVec.ofNat 14 base.toNat) n ++ s.env.hostProg := by
    rw [BitVec.ofNat_toNat, BitVec.setWidth_eq, rdbufLine, if_neg hn.ne']
    rfl
  rw [hprog]
  obtain ⟨t, hrun, hblock, hhost, hrx⟩ := runPicks_rdbuf _ hf ⟨haligned, hwindow⟩ rfl
  refine ⟨t, hrun, hblock, hhost, ?_⟩
  have hlen : (windowWords s base.toNat ((n + 3) / 4)).reverse.length = (n + 3) / 4 := by
    rw [List.length_reverse, windowWords_length]
  rw [rxBytes, hrx, List.take_left' hlen, List.reverse_reverse, windowWords_flatMap, ← List.map_take, List.take_range,
    Nat.min_eq_left (by omega)]

end Sys2Proof.Machine
end

section
/-! PROOFS. Every launch comes to its end (rules R75, R240, R242 and R243): each enabled step of the block lowers the
launch's remaining work, so every weakly fair run completes, and a worker with a first match that runs alone wins. -/

namespace Sys2Proof.Machine

/-! ## The remaining work -/

theorem sum_map_set_lt {α : Type} {f f' : α → Nat} (hle : ∀ x, f' x ≤ f x) {a b : α} (hlt : f' a < f b) {l : List α}
    {i : Nat} (h : l[i]? = some b) : ((l.set i a).map f').sum < (l.map f).sum := by
  induction l generalizing i with
  | nil => simp at h
  | cons x l ih =>
    cases i with
    | zero =>
      obtain rfl : x = b := by simpa using h
      have hrest : (l.map f').sum ≤ (l.map f).sum := List.sum_le_sum fun y _ => hle y
      simp only [List.set_cons_zero, List.map_cons, List.sum_cons]
      omega
    | succ i =>
      have hrest := ih (i := i) (by simpa using h)
      have hx := hle x
      simp only [List.set_cons_succ, List.map_cons, List.sum_cons]
      omega

/-- A worker's move leaves the launch in SEARCH, and leaves a worker of which fewer steps are left (rule R242). -/
theorem WorkerMove.leaves {s t : State} {g : Word} {w : Worker} (hm : WorkerMove s g w t) (hok : WorkerOk s g w) :
    ∃ w', t = { s with mem := t.mem, found := t.found, workers := s.workers.set g.toNat w' } ∧
      stepsLeft s.job t.found w' < stepsLeft s.job s.found w := by
  cases hm with
  | released hp hs =>
    refine ⟨_, rfl, ?_⟩
    simp only [stepsLeft, hp, hok.wait_it hp, setWorker_found]
    split <;> simp
  | spent hp hb | stopped hp hf =>
    refine ⟨_, rfl, ?_⟩
    simp only [stepsLeft, hp]
    split <;> omega
  | admitted hp hb hf => exact ⟨_, rfl, by simp [stepsLeft, hp, hf]⟩
  | matched hp hex dig hh hd hmatch =>
    have hlt := hok.eval_it hp
    refine ⟨_, rfl, ?_⟩
    by_cases hf : s.found = .unset <;> simp only [stepsLeft, hp, setWorker_found, hf, if_true, if_false] <;> omega
  | missed hp hex dig hh hd hmatch =>
    have hlt := hok.eval_it hp
    have hsucc := it_succ hlt (budget_lt s.job)
    refine ⟨_, rfl, ?_⟩
    by_cases hf : s.found = .unset <;>
      simp only [stepsLeft, hp, setWorker_found, hf, hsucc, if_true, if_false] <;> omega
  | won hp hf => exact ⟨_, rfl, by simp [stepsLeft, hp, hf]⟩
  | lost hp hf => exact ⟨_, rfl, by simp [stepsLeft, hp, hf]⟩
  | stored hp => exact ⟨_, rfl, by simp [stepsLeft, hp]⟩
  | published hp => exact ⟨_, rfl, by simp [stepsLeft, hp]⟩

theorem WorkerMove.found_stays {s t : State} {g : Word} {w : Worker} (hm : WorkerMove s g w t)
    (hf : s.found ≠ .unset) : t.found ≠ .unset := by
  cases hm with
  | won | published => simp
  | _ => exact hf

/-- A worker's move lowers the remaining work of the launch. -/
theorem WorkerMove.work_lt {s t : State} {g : Word} {w : Worker} (hm : WorkerMove s g w t) (hok : WorkerOk s g w)
    (hw : worker? s g = some w) : launchWork t < launchWork s := by
  obtain ⟨w', ht, hlt⟩ := hm.leaves hok
  have hle (x : Worker) : stepsLeft s.job t.found x ≤ stepsLeft s.job s.found x := stepsLeft_le x hm.found_stays
  have hsum := sum_map_set_lt hle hlt hw
  have hjob : t.job = s.job := by rw [ht]
  have hphase : t.phase = s.phase := by rw [ht]
  have hworkers : t.workers = s.workers.set g.toNat w' := by rw [ht]
  rw [launchWork, launchWork, hjob, hphase, hworkers]
  omega

/-! ## The step of an agent of the block -/

/-- The step of a worker in SEARCH that has not exited is one of its moves. -/
theorem stepAs_worker {s : State} {g : Word} {w : Worker} (hs : s.phase = .search) (hw : worker? s g = some w)
    (hp : w.phase ≠ .exited) : ∃ t, stepAs (.worker g) s = .next t ∧ WorkerMove s g w t := by
  have move {p : WPhase} {i : Instr} {f : Worker → State} (hphase : w.phase = p) (hi : workerInstr g p = some i)
      (e : exec i s = .next (workerStep g p f s)) (hm : WorkerMove s g w (f w)) :
      ∃ t, stepAs (.worker g) s = .next t ∧ WorkerMove s g w t := by
    rw [workerStep_enabled f hw hphase] at e
    refine ⟨f w, ?_, hm⟩
    rw [stepAs_eq]
    simp only [fetchMover, hw, hphase, hi, workerInstr_wf hi, if_true, e]
  cases hphase : w.phase with
  | wait => exact move hphase rfl (congrArg _ (if_pos hs)) (.released hphase hs)
  | poll =>
    refine move hphase rfl rfl ?_
    split
    · next hb => exact .spent hphase hb
    · next hb =>
      split
      · next hf => exact .stopped hphase hf
      · next hf => exact .admitted hphase (Nat.not_le.1 hb) (not_not.1 hf)
  | eval =>
    refine move hphase rfl rfl ?_
    simp only []
    split
    · next hm => exact .matched hphase _ _ rfl rfl hm
    · next hm => exact .missed hphase _ _ rfl rfl (Bool.eq_false_of_not_eq_true hm)
  | claim =>
    refine move hphase rfl rfl ?_
    split
    · next hf => exact .won hphase hf
    · next hf => exact .lost hphase hf
  | write => exact move hphase rfl rfl (.stored hphase)
  | publish => exact move hphase rfl rfl (.published hphase)
  | exited => exact absurd hphase hp

/-- What an enabled step of the block's agents does: one of the block's effects, with less work left after it. -/
structure Advances (s t : State) : Prop where
  effect : BlockEffect s t
  work : launchWork t < launchWork s
  completes : t.phase = .idle → t.done = true

theorem stepAs_setup (s : State) : stepAs .setup s = .next
    (match s.phase with
      | .idle => s
      | .setup => setupStep s
      | .search => completeStep s) := by
  rw [stepAs_eq]
  cases hp : s.phase <;> simp [fetchMover, setupInstr, hp, Instr.wf, exec, execSetup, execComplete]

theorem enabled_worker {g : Word} {s : State} :
    enabled (.worker g) s = true ↔ ∃ w, worker? s g = some w ∧ s.phase = .search ∧ w.phase ≠ .exited := by
  unfold enabled
  cases hw : worker? s g <;> simp [hw]

/-- An enabled agent of the block advances the launch. -/
theorem stepAs_enabled {m : Mover} {s : State} (h : LaunchInv s) (hm : blockMover m = true) (he : enabled m s = true) :
    ∃ t, stepAs m s = .next t ∧ Advances s t := by
  cases m with
  | host | reset => cases hm
  | worker g =>
    obtain ⟨w, hw, hs, hp⟩ := enabled_worker.1 he
    obtain ⟨t, ht, hmove⟩ := stepAs_worker hs hw hp
    have hok := h.workers hs g w hw
    obtain ⟨w', hframe, -⟩ := hmove.leaves hok
    have hphase : t.phase = .search := by rw [hframe]; exact hs
    exact ⟨t, ht, .worker g w hw t hmove, hmove.work_lt hok hw, fun hidle => by rw [hphase] at hidle; cases hidle⟩
  | setup =>
    refine ⟨_, stepAs_setup s, ?_⟩
    cases hs : s.phase with
    | idle => simp [enabled, hs] at he
    | setup =>
      simp only [setupStep_eq]
      refine ⟨.setupDone hs, ?_, nofun⟩
      simp [launchWork, hs]
    | search =>
      have hx : allExited s = true := by simpa [enabled, hs] using he
      simp only [completeStep, hs, hx]
      refine ⟨.completed hs hx, ?_, fun _ => rfl⟩
      simp [launchWork, hs]

/-- During a launch some agent of the block has an enabled step (rule R75). -/
theorem exists_enabled {s : State} (h : LaunchInv s) (hb : s.phase ≠ .idle) :
    ∃ m, blockMover m = true ∧ enabled m s = true := by
  cases hs : s.phase with
  | idle => exact absurd hs hb
  | setup => exact ⟨.setup, rfl, by simp [enabled, hs]⟩
  | search =>
    by_cases hx : allExited s = true
    · exact ⟨.setup, rfl, by simp [enabled, hs, hx]⟩
    · obtain ⟨w, hmem, hp⟩ : ∃ w ∈ s.workers, w.phase ≠ .exited := by simpa [allExited] using hx
      obtain ⟨n, hn, hw⟩ := List.getElem_of_mem hmem
      have hlt : n < 2 ^ 32 := (h.pool hb ▸ hn).trans s.job.numWorkers.isLt
      refine ⟨.worker (BitVec.ofNat 32 n), rfl, enabled_worker.2 ⟨w, ?_, hs, hp⟩⟩
      rw [worker?, BitVec.toNat_ofNat, Nat.mod_eq_of_lt hlt, List.getElem?_eq_getElem hn, hw]

/-- During a launch the step of an agent with none enabled, and the host's, change nothing of the block. -/
theorem stepAs_disabled {m : Mover} {s t : State} (h : LaunchInv s) (hb : s.phase ≠ .idle) (hm : m ≠ .reset)
    (he : blockMover m = false ∨ enabled m s = false) (hstep : stepAs m s = .next t) : SameBlock s t := by
  cases m with
  | reset => exact absurd rfl hm
  | host =>
    rw [stepAs_eq] at hstep
    cases hprog : s.env.hostProg with
    | nil =>
      simp only [fetchMover, hprog] at hstep
      cases hstep
      exact .refl s
    | cons it rest =>
      simp only [fetchMover, hprog] at hstep
      split at hstep
      · have hsame := sameBlock_env s (e := { s.env with hostProg := rest }) rfl
        exact hsame.trans (host_row_busy (hostItem_isHostRow it) hb hstep)
      · cases hstep
  | setup =>
    have hdisabled : enabled .setup s = false := he.resolve_left nofun
    rw [stepAs_setup] at hstep
    cases hs : s.phase with
    | idle => exact absurd hs hb
    | setup => simp [enabled, hs] at hdisabled
    | search =>
      have hx : allExited s = false := by simpa [enabled, hs] using hdisabled
      simp only [hs, completeStep, hx] at hstep
      cases hstep
      exact .refl s
  | worker g =>
    have hdisabled : ¬ enabled (.worker g) s = true := by simpa using he.resolve_left nofun
    rw [enabled_worker] at hdisabled
    rw [stepAs_eq] at hstep
    suffices hsame : t = s from hsame ▸ .refl s
    cases hw : worker? s g with
    | none => simpa [fetchMover, hw] using hstep.symm
    | some w =>
      cases hs : s.phase with
      | idle => exact absurd hs hb
      | setup =>
        have hwait : w.phase = .wait := ((h.barrier hs).2 w (List.mem_of_getElem? hw)).1
        simpa [fetchMover, hw, hwait, workerInstr, Instr.wf, exec, execWait, waitStep, hs] using hstep.symm
      | search =>
        have hexited : w.phase = .exited := by
          by_contra hp
          exact hdisabled ⟨w, hw, hs, hp⟩
        simpa [fetchMover, hw, hexited, workerInstr] using hstep.symm

/-- During a launch an agent's step advances it or changes nothing of the block. -/
theorem stepAs_launch {m : Mover} {s t : State} (h : LaunchInv s) (hb : s.phase ≠ .idle) (hm : m ≠ .reset)
    (hstep : stepAs m s = .next t) :
    (blockMover m = true ∧ enabled m s = true ∧ Advances s t) ∨
    ((blockMover m = false ∨ enabled m s = false) ∧ SameBlock s t) := by
  by_cases he : blockMover m = true ∧ enabled m s = true
  · obtain ⟨u, hu, hadv⟩ := stepAs_enabled h he.1 he.2
    cases hu.symm.trans hstep
    exact .inl ⟨he.1, he.2, hadv⟩
  · have hdisabled : blockMover m = false ∨ enabled m s = false := by
      simpa [imp_iff_not_or] using he
    exact .inr ⟨hdisabled, stepAs_disabled h hb hm hdisabled hstep⟩

theorem SameBlock.launchWork {s t : State} (h : SameBlock s t) : launchWork t = launchWork s := by
  rw [Machine.launchWork, Machine.launchWork, h.workers, h.job, h.found, h.phase]

theorem SameBlock.enabled {s t : State} (h : SameBlock s t) {m : Mover} (hm : blockMover m = true) :
    enabled m t = enabled m s := by
  cases m with
  | host | reset => cases hm
  | setup => simp only [Machine.enabled, allExited, h.phase, h.workers]
  | worker g => simp only [Machine.enabled, h.worker? g, h.phase]

/-! ## Every launch can complete, and every fair run does -/

/-- Some schedule of the block's agents alone completes the launch: always an enabled one, until none is left. -/
theorem exists_completing_schedule {s : State} (h : LaunchInv s) (hb : s.phase ≠ .idle) :
    ∃ (ms : List Mover) (t : State), ms.all blockMover = true ∧ runPicks (ms.map .mover) s = .next t ∧
      t.phase = .idle ∧ t.done = true ∧ t.job = s.job := by
  induction hwork : launchWork s using Nat.strong_induction_on generalizing s with
  | _ n ih =>
    obtain ⟨m, hm, he⟩ := exists_enabled h hb
    obtain ⟨u, hu, heffect, hlt, hdone⟩ := stepAs_enabled h hm he
    have hjob : u.job = s.job := (heffect.sameJob hb).job
    by_cases hidle : u.phase = .idle
    · refine ⟨[m], u, by simp [hm], ?_, hidle, hdone hidle, hjob⟩
      rw [List.map_singleton, runPicks_cons hu]
      rfl
    · obtain ⟨ms, t, hms, hrun, hphase, hd, hj⟩ := ih _ (hwork ▸ hlt) (heffect.launchInv h) hidle rfl
      refine ⟨m :: ms, t, by simp [hm, hms], ?_, hphase, hd, hj.trans hjob⟩
      rw [List.map_cons, runPicks_cons hu, hrun]

section
variable {σ : Nat → Mover} {ρ : Nat → State} (hrun : FairRun σ ρ) (h : LaunchInv (ρ 0))
include hrun h

/-- As far as a run without a reset has not reached IDLE it keeps the invariant and the job, and it enters IDLE with
DONE = 1. -/
theorem launch_along_run (hb : (ρ 0).phase ≠ .idle) (n : Nat) (hn : ∀ k, k < n → (ρ k).phase ≠ .idle) :
    LaunchInv (ρ n) ∧ (ρ n).job = (ρ 0).job ∧ ((ρ n).phase = .idle → (ρ n).done = true) := by
  induction n with
  | zero => exact ⟨h, rfl, fun hidle => absurd hidle hb⟩
  | succ n ih =>
    obtain ⟨hinv, hjob, -⟩ := ih fun k hk => hn k (by omega)
    have hbusy : (ρ n).phase ≠ .idle := hn n (by omega)
    rcases stepAs_launch hinv hbusy (hrun.no_reset n) (hrun.run n) with ⟨-, -, heffect, -, hdone⟩ | ⟨-, hsame⟩
    · exact ⟨heffect.launchInv hinv, (heffect.sameJob hbusy).job.trans hjob, hdone⟩
    · exact ⟨hsame.launchInv hinv, hsame.job.trans hjob, fun hidle => absurd (hsame.phase ▸ hidle) hbusy⟩

/-- A fair run that never reaches IDLE lowers the remaining work again and again: if the work stayed, the block would
stay as it is, and with it some enabled agent, which fairness lets move. -/
theorem work_drops (hb : ∀ n, (ρ n).phase ≠ .idle) (n : Nat) : ∃ k, launchWork (ρ k) < launchWork (ρ n) := by
  by_contra hstay
  have hstay : ∀ k, launchWork (ρ n) ≤ launchWork (ρ k) := fun k => Nat.not_lt.1 fun hk => hstay ⟨k, hk⟩
  have hinv (k : Nat) : LaunchInv (ρ k) := (launch_along_run hrun h (hb 0) k fun j _ => hb j).1
  have hstep {k : Nat} (hk : SameBlock (ρ n) (ρ k)) :
      (blockMover (σ k) = false ∨ enabled (σ k) (ρ k) = false) ∧ SameBlock (ρ k) (ρ (k + 1)) := by
    refine (stepAs_launch (hinv k) (hb k) (hrun.no_reset k) (hrun.run k)).resolve_left fun ⟨_, _, hadv⟩ => ?_
    exact Nat.not_lt.2 (hstay (k + 1)) (hk.launchWork ▸ hadv.work)
  have hsame (k : Nat) (hk : n ≤ k) : SameBlock (ρ n) (ρ k) := by
    induction k, hk using Nat.le_induction with
    | base => exact .refl _
    | succ k _ ih => exact ih.trans (hstep ih).2
  obtain ⟨m, hm, he⟩ := exists_enabled (hinv n) (hb n)
  have hkept (k : Nat) (hk : n ≤ k) : enabled m (ρ k) = true := ((hsame k hk).enabled hm).trans he
  obtain ⟨k, hk, rfl⟩ := hrun.fair m (by rintro rfl; cases hm) n hkept
  rcases (hstep (hsame k hk)).1 with hno | hno
  · exact absurd hm (by simp [hno])
  · exact absurd (hkept k hk) (by simp [hno])

theorem exists_idle : ∃ n, (ρ n).phase = .idle := by
  by_contra hnever
  have hb (n : Nat) : (ρ n).phase ≠ .idle := fun hn => hnever ⟨n, hn⟩
  let least := Function.argmin fun n => launchWork (ρ n)
  obtain ⟨k, hk⟩ := work_drops hrun h hb least
  exact Function.not_lt_argmin (fun n => launchWork (ρ n)) k hk

end

/-- The states of the run under the schedule `σ` from `s`. -/
def runFrom (σ : Nat → Mover) (s : State) : Nat → State
  | 0 => s
  | n + 1 =>
    match stepAs (σ n) (runFrom σ s n) with
    | .next t => t
    | _ => runFrom σ s n

/-- On lines that name operations there is a run under every schedule. -/
theorem isRun_runFrom (σ : Nat → Mover) {s : State} (h : LinesOk s.env.hostProg) : IsRun σ (runFrom σ s) := by
  have hlines (n : Nat) : LinesOk (runFrom σ s n).env.hostProg := by
    induction n with
    | zero => exact h
    | succ n ih =>
      obtain ⟨t, ht, hok⟩ := stepAs_total (σ n) ih
      rw [runFrom, ht]
      exact hok
  intro n
  obtain ⟨t, ht, -⟩ := stepAs_total (σ n) (hlines n)
  rw [runFrom, ht]

/-- Settles O59: an enabled step exists and lowers the work, fairness lets one be taken, and taking turns is fair. -/
theorem everyLaunchCanComplete : Obligations.EveryLaunchCanComplete := by
  refine ⟨fun s h hb => ⟨exists_enabled h hb, fun m ps t hm he hsched hstep => ?_, exists_completing_schedule h hb⟩,
    fun σ ρ hrun h hb => ?_, fun s h => ?_⟩
  · have hsame := sameBlock_fed s.env.hostProg ps s
    rw [step_eq_stepAs hsched] at hstep
    obtain ⟨u, hu, hadv⟩ := stepAs_enabled (hsame.launchInv h) hm ((hsame.enabled hm).trans he)
    cases hu.symm.trans hstep
    exact hadv.work
  · have hfirst := exists_idle hrun h
    have hbefore (k : Nat) (hk : k < Nat.find hfirst) : (ρ k).phase ≠ .idle := Nat.find_min hfirst hk
    have hidle := Nat.find_spec hfirst
    obtain ⟨-, hjob, hdone⟩ := launch_along_run hrun h hb _ hbefore
    exact ⟨Nat.find hfirst, hbefore, hidle, hdone hidle, hjob⟩
  · have hlines : LinesOk s.env.hostProg := fun it hit => by
      simp only [feedOk, Bool.and_eq_true, List.all_eq_true] at h
      exact h.1 it hit
    exact ⟨roundRobin, runFrom roundRobin s, fairRun_roundRobin (isRun_runFrom roundRobin hlines), rfl⟩

/-! ## A first match can win -/

theorem FirstMatch.unique {s : State} {g i j : Word} (hi : FirstMatch s g i) (hj : FirstMatch s g j) : i = j := by
  obtain ⟨-, hmi, hfi⟩ := hi
  obtain ⟨-, hmj, hfj⟩ := hj
  apply BitVec.eq_of_toNat_eq
  rcases Nat.lt_trichotomy i.toNat j.toNat with hlt | heq | hlt
  · exact absurd (hfj i hlt) (by simp [hmi])
  · exact heq
  · exact absurd (hfi j hlt) (by simp [hmj])

/-- A worker with a first match that nobody else has beaten to the claim wins when it runs alone: its steps end, and
PUBLISH is the only way out. -/
theorem wins_alone {s : State} {g it : Word} {w : Worker} (h : LaunchInv s) (hs : s.phase = .search)
    (hw : worker? s g = some w) (hlive : w.phase ≠ .exited) (hfree : s.found = .unset ∨ holdsClaim w = true)
    (hfirst : FirstMatch s g it) :
    ∃ (n : Nat) (t : State), runPicks (List.replicate n (.mover (.worker g))) s = .next t ∧
      t.phase = .search ∧ t.job = s.job ∧ t.found = .published ∧ ResultHolds t g it := by
  induction hwork : launchWork s using Nat.strong_induction_on generalizing s w with
  | _ n ih =>
    obtain ⟨t, hstep, hmove⟩ := stepAs_worker hs hw hlive
    have hok := h.workers hs g w hw
    obtain ⟨w', hframe, -⟩ := hmove.leaves hok
    have hphase : t.phase = .search := by rw [hframe]; exact hs
    have hjob := hmove.sameJob
    have once : runPicks (List.replicate 1 (.mover (.worker g))) s = .next t := runPicks_cons hstep []
    have go {v : Worker} (hv : worker? t g = some v) (hlv : v.phase ≠ .exited)
        (hfv : t.found = .unset ∨ holdsClaim v = true) :
        ∃ (n : Nat) (u : State), runPicks (List.replicate n (.mover (.worker g))) s = .next u ∧
          u.phase = .search ∧ u.job = s.job ∧ u.found = .published ∧ ResultHolds u g it := by
      obtain ⟨k, u, hrun, hp, hj, hf, hr⟩ := ih _ (hwork ▸ hmove.work_lt hok hw) (hmove.launchInv h hw) hphase hv hlv
        hfv ((firstMatch_congr hjob g it).2 hfirst) rfl
      refine ⟨k + 1, u, ?_, hp, hj.trans hjob.job, hf, hr⟩
      rw [List.replicate_succ, runPicks_cons hstep, hrun]
    have hunset (hc : holdsClaim w = false) : s.found = .unset := hfree.resolve_right (by simp [hc])
    cases hmove with
    | released hp _ | admitted hp _ _ | matched hp _ _ _ _ _ | missed hp _ _ _ _ _ =>
      exact go (worker?_setWorker_same _ hw) nofun (.inl (hunset (by simp [holdsClaim, hp])))
    | won | stored => exact go (worker?_setWorker_same _ hw) nofun (.inr rfl)
    | spent hp hb =>
      have hfailed := hok.earlier_failed (.inr (hunset (by simp [holdsClaim, hp]))) it (hfirst.1.trans_le hb)
      exact absurd hfirst.2.1 (by simp [hfailed])
    | stopped hp hf | lost hp hf => exact absurd (hunset (by simp [holdsClaim, hp])) hf
    | published hp =>
      obtain ⟨-, -, hmatch⟩ := hok.latches (.inr (.inr hp))
      refine ⟨1, _, once, hphase, rfl, rfl, ?_⟩
      rw [hfirst.unique hmatch]
      exact (resultHolds_congr hjob (fun _ => rfl) g w.it).2 (hok.written hp)

/-- Settles O53: at the end of setup the worker is in WAIT and FOUND is 0. -/
theorem everyFirstMatchCanWin : Obligations.EveryFirstMatchCanWin := by
  intro s g it h hs hf hwait hg hfirst
  have hlt : g.toNat < s.workers.length := (h.pool (by simp [hs])).symm ▸ hg
  have hw : worker? s g = some s.workers[g.toNat] := List.getElem?_eq_getElem hlt
  have hp : s.workers[g.toNat].phase = .wait := hwait _ (List.getElem_mem hlt)
  exact wins_alone h hs hw (by simp [hp]) (.inl hf) hfirst

end Sys2Proof.Machine
end

section
/-! PROOFS. The encoding (30_encoding.md rules R90 to R99): a transaction word is its direction and offset, one row at
most selects it, and the encoder and the decoder undo each other; then the pseudo-operations' expansions, the command
words, and a word loaded and run. -/

namespace Sys2Proof.Machine

/-! ## Transaction words -/

/-- The transaction word of direction `w` at `off` (rule R98). -/
def txnAt (w : Bool) (off : BitVec 14) : BitVec 15 := if w then wrTxn off else rdTxn off

@[simp] theorem txnOff_txnAt (w : Bool) (off : BitVec 14) : txnOff (txnAt w off) = off := by
  cases w
  · exact txnOff_rdTxn off
  · exact txnOff_wrTxn off

@[simp] theorem txnAt_dir (w : Bool) (off : BitVec 14) : (txnAt w off).getLsbD 14 = w := by
  cases w
  · exact rdTxn_dir off
  · exact wrTxn_dir off

/-- DIR and OFF are all of a transaction word (rule R91). -/
theorem txn_ext {t u : BitVec 15} (hdir : t.getLsbD 14 = u.getLsbD 14) (hoff : txnOff t = txnOff u) : t = u := by
  apply BitVec.eq_of_toNat_eq
  rw [txn_toNat t, txn_toNat u, hdir, hoff]

theorem txnAt_txnOff (t : BitVec 15) : txnAt (t.getLsbD 14) (txnOff t) = t :=
  txn_ext (txnAt_dir _ _) (txnOff_txnAt _ _)

/-- Clearing OFF[1:0] leaves the direction and the word-aligned offset (rule R63). -/
theorem txnAt_alignedOff (t : BitVec 15) :
    txnAt (t.getLsbD 14) (BitVec.ofNat 14 (alignedOff (txnOff t))) = t &&& 0x7FFC := by
  refine txn_ext (by rw [txnAt_dir]; simp) (BitVec.eq_of_toNat_eq ?_)
  obtain ⟨-, hlt, hoff⟩ := alignedOff_spec (txnOff t)
  have hmask : (t &&& 0x7FFC).toNat = t.toNat / 4 * 4 := toNat_and_highMask t 2
  rw [txnOff_txnAt, BitVec.toNat_ofNat, Nat.mod_eq_of_lt hlt, hoff, txnOff_toNat, txnOff_toNat, hmask]
  omega

/-! ## The selected row -/

/-- Rule R92: the address ranges of two rows of one direction lie apart. -/
theorem busTable_ranges_apart : ∀ r ∈ busTable, ∀ q ∈ busTable, r.isWrite = q.isWrite →
    r = q ∨ r.target.base + 2 ^ r.target.bits ≤ q.target.base ∨ q.target.base + 2 ^ q.target.bits ≤ r.target.base := by
  decide

/-- Settles O3: both rows have the direction of the transaction and cover its offset. -/
theorem noTwoBusRowsMatchOneTransaction : Obligations.NoTwoBusRowsMatchOneTransaction := by
  intro t r q hr hq hrt hqt
  obtain ⟨hrdir, hrlo, hrhi⟩ := (selects_iff hr t).1 hrt
  obtain ⟨hqdir, hqlo, hqhi⟩ := (selects_iff hq t).1 hqt
  have hapart := busTable_ranges_apart r hr q hq (hrdir.symm.trans hqdir)
  exact hapart.resolve_right (by omega)

theorem unmappedOff_iff {off : BitVec 14} : unmappedOff off = true ↔
    (0x02C ≤ off.toNat ∧ off.toNat < 0x100) ∨ (0x140 ≤ off.toNat ∧ off.toNat < 0x200) ∨
    (0x260 ≤ off.toNat ∧ off.toNat < 0x2000) := by
  simp only [unmappedOff, Bool.or_eq_true, Bool.and_eq_true, decide_eq_true_eq, or_assoc]

/-- No target covers an unmapped offset. -/
theorem not_unmapped_of_covers {g : BusTarget} {off : BitVec 14} (h : g.Covers off) : ¬ unmappedOff off = true := by
  obtain ⟨hlo, hhi⟩ := h
  rw [unmappedOff_iff]
  cases g <;> simp only [BusTarget.base, BusTarget.bits] at hlo hhi <;> omega

/-- Rule R93: the transactions no row selects are those of the unmapped offsets. -/
theorem no_row_iff (t : BitVec 15) :
    (∀ r ∈ busTable, r.selects t = false) ↔ unmappedOff (txnOff t) = true := by
  refine ⟨unmappedOff_of_no_row, fun h r hr => ?_⟩
  rw [Bool.eq_false_iff]
  exact fun hsel => not_unmapped_of_covers ((selects_iff hr t).1 hsel).2 h

theorem decodeBus_of_unmapped {t : BitVec 15} (h : unmappedOff (txnOff t) = true) (d : Word) :
    decodeBus t d = .unmapped (txnOff t) (txnDir t d) := by
  rcases decodeBus_cases t d with ⟨g, hg, -⟩ | ⟨-, e⟩
  · exact absurd h (not_unmapped_of_covers hg)
  · exact e

/-- The row that covers the offset is the one decoded. -/
theorem decodeBus_of_covers {g : BusTarget} {t : BitVec 15} (h : g.Covers (txnOff t)) (d : Word) :
    decodeBus t d = busInstr g (t.getLsbD 14) t d := by
  obtain ⟨r, hr, htarget, hdir⟩ := exists_busRow g (t.getLsbD 14)
  have hsel : r.selects t = true := (selects_iff hr t).2 ⟨hdir.symm, htarget ▸ h⟩
  unfold decodeBus
  cases hfind : busTable.find? (·.selects t) with
  | none => exact absurd hsel (List.find?_eq_none.1 hfind r hr)
  | some q =>
    have hq : q = r := noTwoBusRowsMatchOneTransaction t q r (List.mem_of_find?_eq_some hfind) hr
      (by simpa using List.find?_some hfind) hsel
    simp only [hq, htarget, hdir]

/-! ## Encoding what was decoded -/

/-- A row encodes as the transaction of its direction at the word-aligned offset; a read carries no data. -/
theorem encode_busInstr {g : BusTarget} {t : BitVec 15} (h : g.Covers (txnOff t)) (w : Bool) (d : Word) :
    encode (busInstr g w t d) =
      [.bus (txnAt w (BitVec.ofNat 14 (alignedOff (txnOff t)))) (if w then d else 0)] := by
  cases g with
  | targetHex | resultNonce | resultDigest | prefixBuf =>
    rw [alignedOff_window rfl (by decide) h]
    cases w <;> rfl
  | _ =>
    rw [alignedOff_register rfl h]
    cases w <;> rfl

theorem encode_unmapped (t : BitVec 15) (d : Word) :
    encode (.unmapped (txnOff t) (txnDir t d)) = [.bus t (if t.getLsbD 14 then d else 0)] := by
  have h : encode (.unmapped (txnOff t) (txnDir t d)) =
      [.bus (txnAt (t.getLsbD 14) (txnOff t)) (if t.getLsbD 14 then d else 0)] := by
    unfold txnDir
    cases t.getLsbD 14 <;> rfl
  rw [h, txnAt_txnOff]

/-- Settles O2: by the decoder's cases. -/
theorem encodeOfDecodedTransaction : Obligations.EncodeOfDecodedTransaction := by
  intro t d
  rcases decodeBus_cases t d with ⟨g, hg, e⟩ | ⟨hoff, e⟩ <;> rw [e]
  · rw [encode_busInstr hg, txnAt_alignedOff, if_neg (not_unmapped_of_covers hg)]
  · rw [encode_unmapped, if_pos hoff]

/-! ## Decoding what was encoded -/

section
variable {g : BusTarget} {n : Nat} (hg : g.bits = n + 2) (k : BitVec n)
include hg

theorem wordOff_toNat : (wordOff g.base k.toNat).toNat = g.base + 4 * k.toNat := by
  have hend := g.end_le
  have hk := k.isLt
  rw [hg, Nat.pow_add] at hend
  rw [wordOff, BitVec.toNat_ofNat]
  omega

theorem covers_wordOff : g.Covers (wordOff g.base k.toNat) := by
  have hk := k.isLt
  rw [BusTarget.Covers, wordOff_toNat hg, hg, Nat.pow_add]
  omega

/-- The word field of the transaction at word `k` of a window is `k`. -/
theorem extractLsb'_of_wordOff (hn : n = 3 ∨ n = 4 ∨ n = 11) {t : BitVec 15}
    (ht : txnOff t = wordOff g.base k.toNat) :
    t.extractLsb' 2 n = k := by
  have hword := alignedOff_window (t := t) hg hn (ht ▸ covers_wordOff hg k)
  rw [ht, (alignedOff_spec _).2.2, wordOff_toNat hg, windowOff] at hword
  exact BitVec.eq_of_toNat_eq (by omega)

end

/-- `i` has one word, and that word decodes to `i`. -/
def RoundTrips (i : Instr) : Prop := ∃ e, encode i = [e] ∧ decode e = .ok i

theorem roundTrips_bus {i : Instr} {t : BitVec 15} {d : Word} (henc : encode i = [.bus t d])
    (hdec : decodeBus t d = i) : RoundTrips i := ⟨_, henc, congrArg _ hdec⟩

theorem roundTrips_internal {i : Instr} {id : Byte} {l : List Byte} (henc : encode i = [.internal id l])
    (hdec : decodeInternal id l = .ok (i, [])) : RoundTrips i := ⟨_, henc, by rw [decode, hdec]; rfl⟩

/-- The operation `row k` of word `k` of the window `g`, in direction `w`, has the transaction at that word. -/
theorem roundTrips_window (g : BusTarget) (w : Bool) (d : Word) {n : Nat} (row : BitVec n → Instr) (k : BitVec n)
    (hrow : ∀ t : BitVec 15, busInstr g w t d = row (t.extractLsb' 2 n))
    (henc : encode (row k) = [.bus (txnAt w (wordOff g.base k.toNat)) d])
    (hg : g.bits = n + 2 := by rfl) (hn : n = 3 ∨ n = 4 ∨ n = 11 := by decide) : RoundTrips (row k) := by
  have hoff := txnOff_txnAt w (wordOff g.base k.toNat)
  refine roundTrips_bus henc ?_
  rw [decodeBus_of_covers (hoff.symm ▸ covers_wordOff hg k), txnAt_dir, hrow, extractLsb'_of_wordOff hg k hn hoff]

theorem roundTrips_unmapped {off : BitVec 14} (h : unmappedOff off = true) (dir : BusDir) :
    RoundTrips (.unmapped off dir) := by
  have hdec (w : Bool) (d : Word) : decodeBus (txnAt w off) d = .unmapped off (if w then .write d else .read) := by
    rw [decodeBus_of_unmapped (by rwa [txnOff_txnAt]), txnDir, txnOff_txnAt, txnAt_dir]
  cases dir with
  | read => exact roundTrips_bus rfl (hdec false 0)
  | write d => exact roundTrips_bus rfl (hdec true d)

theorem decodeCommand_reserved {v : Word} (h : 2 ≤ v.toNat) : decodeCommand v = .reservedCommand v := by
  have hnop : v ≠ 0 := by rintro rfl; exact absurd h (by decide)
  have hstart : v ≠ 1 := by rintro rfl; exact absurd h (by decide)
  rw [decodeCommand, if_neg hnop, if_neg hstart]

/-! The readers at the end of the operand bytes. -/

@[simp] theorem takeByte_cons (b : Byte) (r : List Byte) : takeByte (b :: r) = .ok (b, r) := rfl

@[simp] theorem takeBytes_val {n : Nat} (b : Bytes n) : takeBytes n b.val = .ok (b, []) := by
  simpa using takeBytes_append b []

@[simp] theorem takeWord_be32bytes_nil (x : Word) : takeWord (be32bytes x) = .ok (x, []) := takeWord_be32bytes x []

@[simp] theorem takeLong_be64bytes_nil (x : Long) : takeLong (be64bytes x) = .ok (x, []) := takeLong_be64bytes x []

/-- A transaction is read back by its row, a command by its value, and an internal operation by its operands in the
order they were put (log entry 5). -/
theorem roundTrips_of_wf {i : Instr} (hwf : i.wf = true) (hone : i.isPseudo = false) : RoundTrips i := by
  cases i with
  | wr64 | wrbuf | rdbuf | waitdone => cases hone
  | rdTargetHex k => exact roundTrips_window .targetHex false 0 .rdTargetHex k (fun _ => rfl) rfl
  | wrTargetHex k d => exact roundTrips_window .targetHex true d (.wrTargetHex · d) k (fun _ => rfl) rfl
  | rdResultNonce k => exact roundTrips_window .resultNonce false 0 .rdResultNonce k (fun _ => rfl) rfl
  | wrResultNonce k d => exact roundTrips_window .resultNonce true d (.wrResultNonce · d) k (fun _ => rfl) rfl
  | rdResultDigest k => exact roundTrips_window .resultDigest false 0 .rdResultDigest k (fun _ => rfl) rfl
  | wrResultDigest k d => exact roundTrips_window .resultDigest true d (.wrResultDigest · d) k (fun _ => rfl) rfl
  | rdPrefix k => exact roundTrips_window .prefixBuf false 0 .rdPrefix k (fun _ => rfl) rfl
  | wrPrefix k d => exact roundTrips_window .prefixBuf true d (.wrPrefix · d) k (fun _ => rfl) rfl
  | unmapped off dir => exact roundTrips_unmapped hwf dir
  | reservedCommand v => exact ⟨_, rfl, congrArg _ (decodeCommand_reserved (of_decide_eq_true hwf))⟩
  | finalize a b c =>
    cases c <;> exact roundTrips_internal rfl (by simp [decodeInternal, bind, Except.bind, pure, Except.pure])
  | compress | nonceDerive | nonceBytes | nonceHex | finalBlocks | hexNibble | compare | poll | claim | writeResult
  | publish | wait | eval =>
    exact roundTrips_internal rfl (by simp [decodeInternal, bind, Except.bind, pure, Except.pure])
  | _ => exact ⟨_, rfl, rfl⟩

/-- Settles O1: every constructor but the four excluded has one word, which reads back. -/
theorem decodeOfEncodeIsTheOperation : Obligations.DecodeOfEncodeIsTheOperation :=
  fun _ => roundTrips_of_wf

/-! ## Unmapped transactions and command words -/

/-- Settles O4: no row selects exactly the unmapped offsets, and the unmapped operation answers 0 or nothing. -/
theorem unmappedTransactionsReadZeroAndIgnoreWrites : Obligations.UnmappedTransactionsReadZeroAndIgnoreWrites := by
  intro t d s
  refine ⟨?_, fun h => ?_⟩
  · rw [no_row_iff, unmappedOff_iff]
    omega
  · have hdec := decodeBus_of_unmapped ((no_row_iff t).1 h) d
    refine ⟨fun hdir => ?_, fun hdir => ?_⟩ <;> simp only [txnDir, hdir] at hdec <;> rw [hdec]
    · exact ⟨rfl, _, rfl, answered_hostRead s 0⟩
    · exact ⟨rfl, rfl⟩

/-- Settles O5: the write to CMD does what the command decoder reads. -/
theorem commandWordsNopStartAndReserved : Obligations.CommandWordsNopStartAndReserved := by
  refine fun s => ⟨⟨rfl, rfl, rfl⟩, ⟨rfl, rfl⟩, fun v hv => ?_⟩
  have hdec := decodeCommand_reserved hv
  have hwrite : commandWrite v s = s := by rw [commandWrite, hdec]
  exact ⟨congrArg _ hdec, rfl, congrArg _ hwrite⟩

/-- Settles O7: each word is a closed term that the decoder evaluates. -/
theorem tableWordsDecodeToTheirRows : Obligations.TableWordsDecodeToTheirRows := by
  unfold Obligations.TableWordsDecodeToTheirRows
  decide

/-! ## The expansions of the pseudo-operations (rule R99) -/

/-- One write of a WRBUF, and the rest of the string from the next word. -/
theorem expandWrbuf_eq_cons (base : BitVec 14) {bs : List Byte} (h : bs ≠ []) :
    expandWrbuf base bs = .bus (wrTxn base) (laneWordAt bs) :: expandWrbuf (base + 4) (bs.drop 4) := by
  match bs, h with
  | [_], _ | [_, _], _ | [_, _, _], _ | _ :: _ :: _ :: _ :: _, _ => rfl

/-- The offsets of a transfer, word by word. -/
theorem add_four_add (base : BitVec 14) (k : Nat) :
    base + 4 + BitVec.ofNat 14 (4 * k) = base + BitVec.ofNat 14 (4 * (k + 1)) := by
  rw [BitVec.add_assoc, BitVec.add_comm 4, ofNat_add_four, Nat.mul_succ]

theorem expandWrbuf_eq_map (base : BitVec 14) (bs : List Byte) : expandWrbuf base bs =
    (List.range ((bs.length + 3) / 4)).map fun k =>
      .bus (wrTxn (base + BitVec.ofNat 14 (4 * k))) (laneWordAt (bs.drop (4 * k))) := by
  induction hn : (bs.length + 3) / 4 generalizing base bs with
  | zero =>
    obtain rfl : bs = [] := List.length_eq_zero_iff.1 (by omega)
    rfl
  | succ n ih =>
    have hbs : bs ≠ [] := by rintro rfl; simp at hn
    have hrest : ((bs.drop 4).length + 3) / 4 = n := by rw [List.length_drop]; omega
    have hdrop (k : Nat) : (bs.drop 4).drop (4 * k) = bs.drop (4 * (k + 1)) := by
      rw [List.drop_drop, Nat.mul_succ, Nat.add_comm]
    simp only [expandWrbuf_eq_cons base hbs, ih _ _ hrest, add_four_add, hdrop, List.range_succ_eq_map, List.map_cons,
      List.map_map, Function.comp_def]
    simp

theorem expandRdbuf_eq_map (base : BitVec 14) (n : Nat) : expandRdbuf base n =
    (List.range n).map fun k => .bus (rdTxn (base + BitVec.ofNat 14 (4 * k))) 0 := by
  induction n generalizing base with
  | zero => rfl
  | succ n ih =>
    simp only [expandRdbuf, ih, add_four_add, List.range_succ_eq_map, List.map_cons, List.map_map, Function.comp_def]
    simp

/-- The word of a transfer holds bytes `4k` to `4k+3` of the string, byte `4k` in lane 0 (rule R64). -/
theorem laneWordAt_drop (bs : List Byte) (k : Nat) : laneWordAt (bs.drop (4 * k)) =
    bs.getD (4 * k + 3) 0 ++ bs.getD (4 * k + 2) 0 ++ bs.getD (4 * k + 1) 0 ++ bs.getD (4 * k) 0 := by
  simp [laneWordAt, laneWord]

/-- Settles O6: the transactions of a transfer are listed by word. -/
theorem pseudoOperationsExpandToTransactions : Obligations.PseudoOperationsExpandToTransactions := by
  refine ⟨fun _ _ => rfl, fun base bs => ?_, fun base n => ?_⟩
  · rw [encode, expandWrbuf_eq_map]
    exact ⟨by simp, fun k hk => by simp [hk, laneWordAt_drop]⟩
  · rw [encode, expandRdbuf_eq_map]
    exact ⟨by simp, fun k hk => by simp [hk]⟩

/-! ## A loaded word -/

/-- Whatever a reader of operations reads is well formed. -/
def ReadsWf (x : Except DecodeError (Instr × List Byte)) : Prop := ∀ i r, x = .ok (i, r) → i.wf = true

theorem readsWf_ok {i : Instr} (h : i.wf = true) (r : List Byte) : ReadsWf (.ok (i, r)) := by
  rintro _ _ ⟨⟩
  exact h

theorem readsWf_error (e : DecodeError) : ReadsWf (.error e) := nofun

theorem readsWf_bind {α : Type} (x : Except DecodeError α) {f : α → Except DecodeError (Instr × List Byte)}
    (h : ∀ a, ReadsWf (f a)) : ReadsWf (x >>= f) := by
  cases x with
  | error e => exact readsWf_error e
  | ok a => exact h a

theorem readsWf_decodeInternal (id : Byte) (l : List Byte) : ReadsWf (decodeInternal id l) := by
  unfold decodeInternal
  split
  case h_1 | h_7 | h_8 => exact readsWf_bind _ fun _ => readsWf_bind _ fun _ => readsWf_ok rfl _
  case h_9 | h_10 | h_12 | h_14 | h_15 | h_16 | h_17 | h_18 | h_19 | h_20 =>
    exact readsWf_bind _ fun _ => readsWf_ok rfl _
  case h_11 =>
    refine readsWf_bind _ fun a => readsWf_bind _ fun b => readsWf_bind _ fun flag => ?_
    simp only []
    split
    · exact readsWf_ok rfl _
    · split
      · exact readsWf_bind _ fun _ => readsWf_ok rfl _
      · exact readsWf_error _
  case h_22 => exact readsWf_error _
  all_goals exact readsWf_ok rfl _

theorem decodeInternal_of_decode {id : Byte} {l : List Byte} {i : Instr} (h : decode (.internal id l) = .ok i) :
    ∃ r, decodeInternal id l = .ok (i, r) := by
  rw [decode] at h
  cases hx : decodeInternal id l with
  | error e => rw [hx] at h; cases h
  | ok x => rw [hx] at h; cases h; exact ⟨x.2, rfl⟩

theorem decodeCommand_wf (v : Word) : (decodeCommand v).wf = true := by
  by_cases hv : 2 ≤ v.toNat
  · rw [decodeCommand_reserved hv]
    exact decide_eq_true hv
  · have h : v = 0 ∨ v = 1 := by bv_omega
    rcases h with rfl | rfl <;> rfl

/-- The decoder makes only well-formed operations. -/
theorem decode_wf {e : Encoded} {i : Instr} (h : decode e = .ok i) : i.wf = true := by
  cases e with
  | bus t d =>
    cases h
    exact decodeBus_wf t d
  | command v =>
    cases h
    exact decodeCommand_wf v
  | internal id l =>
    obtain ⟨r, hr⟩ := decodeInternal_of_decode h
    exact readsWf_decodeInternal id l i r hr

/-- A loaded operation is run by the next step, in the state it was loaded into. -/
theorem step_loadNext {e : Encoded} {i : Instr} (h : decode e = .ok i) (s : State) :
    step (loadNext e s) = exec i s := by
  refine step_of_fetch_run ?_ (decode_wf h)
  cases e with
  | bus | command =>
    cases h
    rfl
  | internal id l =>
    obtain ⟨r, hr⟩ := decodeInternal_of_decode h
    simp only [loadNext, fetch, fetchPick, hr]

theorem decodeTableWord_eq_some {nbits w : Nat} {i : Instr} (h : decodeTableWord nbits w = some i) :
    ∃ e, tableWord nbits w = some e ∧ decode e = .ok i := by
  unfold decodeTableWord at h
  split at h
  · cases h
  · next e he =>
    split at h
    · next j hj =>
      cases h
      exact ⟨e, he, hj⟩
    · cases h

/-- Settles O10: the step fetches what the word decodes to, from the state it was put into. -/
theorem loadedWordIsRunNext : Obligations.LoadedWordIsRunNext := by
  intro s nbits w i h
  obtain ⟨e, hword, hdec⟩ := decodeTableWord_eq_some h
  rw [State.withFetchWord, hword]
  exact step_loadNext hdec s

end Sys2Proof.Machine
end

section
/-! PROOFS. The hash primitive (40_hash_primitive.md rules R125 to R129): the words of the schedule and the working
variables after each round, read off the lists that COMPRESS folds over. -/

namespace Sys2Proof.Machine

/-! ## The big-endian word load (rule R126) -/

theorem toNat_append_byte {n : Nat} (x : BitVec n) (b : Byte) : (x ++ b).toNat = 256 * x.toNat + b.toNat := by
  rw [BitVec.toNat_append, ← Nat.shiftLeft_add_eq_or_of_lt b.isLt, Nat.shiftLeft_eq, Nat.mul_comm]

theorem toNat_be32 (b0 b1 b2 b3 : Byte) : (be32 b0 b1 b2 b3).toNat = beNat [b0, b1, b2, b3] := by
  simp [be32, toNat_append_byte, beNat]

theorem slice_drop (l : List Byte) (n a b : Nat) : slice (l.drop n) a b = slice l (n + a) (n + b) := by
  rw [slice, slice, List.drop_drop, Nat.add_sub_add_left]

theorem length_loadWords : ∀ l : List Byte, (loadWords l).length = l.length / 4
  | _ :: _ :: _ :: _ :: r => by simp only [loadWords, List.length_cons, length_loadWords r]; omega
  | [] | [_] | [_, _] | [_, _, _] => by simp [loadWords]

/-- Word `k` is the number that the bytes from `4k` on write in base 256. -/
theorem toNat_getD_loadWords : ∀ (l : List Byte) (k : Nat), 4 * k + 4 ≤ l.length →
    ((loadWords l).getD k 0).toNat = beNat (slice l (4 * k) (4 * k + 4))
  | b0 :: b1 :: b2 :: b3 :: _, 0, _ => toNat_be32 b0 b1 b2 b3
  | b0 :: b1 :: b2 :: b3 :: r, k + 1, h => by
    have ih := toNat_getD_loadWords r k (by simp only [List.length_cons] at h; omega)
    have hslice : slice r (4 * k) (4 * k + 4) = slice _ (4 + 4 * k) (4 + (4 * k + 4)) :=
      slice_drop (b0 :: b1 :: b2 :: b3 :: r) 4 _ _
    rw [loadWords, List.getD_cons_succ, ih, hslice, Nat.mul_succ, Nat.add_comm 4, Nat.add_comm 4]
  | [], _, h | [_], _, h | [_, _], _, h | [_, _, _], _, h => by
    simp only [List.length_cons, List.length_nil] at h; omega

/-! ## The schedule (rule R127) -/

theorem length_expandSchedule (n : Nat) (ws : List Word) : (expandSchedule n ws).length = ws.length + n := by
  induction n generalizing ws with
  | zero => rfl
  | succ n ih => rw [expandSchedule, ih, List.length_append, List.length_singleton]; omega

theorem prefix_expandSchedule (n : Nat) (ws : List Word) : ws <+: expandSchedule n ws := by
  induction n generalizing ws with
  | zero => exact List.prefix_rfl
  | succ n ih => exact (List.prefix_append ws _).trans (ih _)

theorem getD_of_prefix {l m : List Word} (h : l <+: m) {k : Nat} (hk : k < l.length) : m.getD k 0 = l.getD k 0 := by
  obtain ⟨r, rfl⟩ := h
  exact List.getD_append l r 0 k hk

/-- Every word past the given ones is computed from those before it. -/
theorem getD_expandSchedule (n : Nat) (ws : List Word) {k : Nat} (hlo : ws.length ≤ k) (hhi : k < ws.length + n) :
    (expandSchedule n ws).getD k 0 = nextWord ((expandSchedule n ws).take k) := by
  induction n generalizing ws with
  | zero => omega
  | succ n ih =>
    rw [expandSchedule]
    rcases Nat.eq_or_lt_of_le hlo with rfl | hlt
    · have hnew := prefix_expandSchedule n (ws ++ [nextWord ws])
      have hold := List.prefix_iff_eq_take.1 ((List.prefix_append ws [nextWord ws]).trans hnew)
      rw [← hold, getD_of_prefix hnew (by simp)]
      simp
    · exact ih _ (by simpa using hlt) (by simp; omega)

/-- `nextWord` of the first `k` words looks 2, 7, 15 and 16 words back from `k`. -/
theorem nextWord_take {ws : List Word} {k : Nat} (hlo : 16 ≤ k) (hhi : k ≤ ws.length) :
    nextWord (ws.take k) = smallSigma1 (ws.getD (k - 2) 0) + ws.getD (k - 7) 0 +
      smallSigma0 (ws.getD (k - 15) 0) + ws.getD (k - 16) 0 := by
  have hlen : (ws.take k).length = k := List.length_take_of_le hhi
  have back {d : Nat} (hd : 0 < d) : (ws.take k).getD (k - d) 0 = ws.getD (k - d) 0 :=
    (getD_of_prefix (List.take_prefix k ws) (by omega)).symm
  simp only [nextWord, hlen, back, Nat.zero_lt_succ]

theorem length_loadWords_block (block : Bytes 64) : (loadWords block.val).length = 16 := by
  rw [length_loadWords, block.property]

@[simp] theorem length_schedule (block : Bytes 64) : (schedule block).length = 64 := by
  rw [schedule, length_expandSchedule, length_loadWords_block]

theorem toNat_getD_schedule (block : Bytes 64) {k : Nat} (hk : k < 16) :
    ((schedule block).getD k 0).toNat = beNat (slice block.val (4 * k) (4 * k + 4)) := by
  have hload := getD_of_prefix (prefix_expandSchedule 48 _) (by rwa [length_loadWords_block block])
  rw [schedule, hload, toNat_getD_loadWords _ _ (by rw [block.property]; omega)]

theorem getD_schedule (block : Bytes 64) {k : Nat} (hlo : 16 ≤ k) (hhi : k < 64) :
    (schedule block).getD k 0 = smallSigma1 ((schedule block).getD (k - 2) 0) + (schedule block).getD (k - 7) 0 +
      smallSigma0 ((schedule block).getD (k - 15) 0) + (schedule block).getD (k - 16) 0 := by
  have hlen := length_loadWords_block block
  rw [← nextWord_take hlo (by rw [length_schedule]; omega)]
  exact getD_expandSchedule 48 _ (by omega) (by omega)

/-! ## The rounds (rules R125, R128 and R129) -/

@[simp] theorem length_roundConstants : roundConstants.length = 64 := rfl

/-- The two sums of a round, and what it makes of them. -/
theorem round_sums (v : HashWords) (k w : Word) : ∃ t1 t2 : Word,
    t1 = v.h + bigSigma1 v.e + ch v.e v.f v.g + k + w ∧ t2 = bigSigma0 v.a + maj v.a v.b v.c ∧
    round v (k, w) = ⟨t1 + t2, v.a, v.b, v.c, v.d + t1, v.e, v.f, v.g⟩ := ⟨_, _, rfl, rfl, rfl⟩

/-- The working variables a to h before round `k`, or after the last round where `k` is 64. -/
def workingVars (st : HashWords) (block : Bytes 64) (k : Nat) : HashWords :=
  ((roundConstants.zip (schedule block)).take k).foldl round st

theorem workingVars_succ (st : HashWords) (block : Bytes 64) {k : Nat} (hk : k < 64) :
    workingVars st block (k + 1) =
      round (workingVars st block k) (roundConstants.getD k 0, (schedule block).getD k 0) := by
  have hzip : k < (roundConstants.zip (schedule block)).length := by simpa using hk
  have hpair : (roundConstants.zip (schedule block))[k] = (roundConstants.getD k 0, (schedule block).getD k 0) := by
    rw [List.getElem_zip, List.getD_eq_getElem, List.getD_eq_getElem]
  rw [workingVars, List.take_succ_eq_append_getElem hzip, List.foldl_append, hpair]
  rfl

theorem compress_eq_feedForward (st : HashWords) (block : Bytes 64) :
    compress st block = feedForward st (workingVars st block 64) := by
  rw [compress, workingVars, List.take_of_length_le (by simp)]

/-- Leaving a result changes neither the block nor the world outside it (log entry 11). -/
theorem computed_putResult (r : OpResult) (s : State) : Computed s (putResult r s) r where
  block := sameBlock_putResult r s
  world := ⟨rfl, rfl, rfl⟩
  draws := rfl
  out := rfl

/-- Settles O36: the words are those of the schedule, and the variables those of the fold's first `k` rounds. -/
theorem compressRunsTheSixtyFourRounds : Obligations.CompressRunsTheSixtyFourRounds := by
  intro st blk s
  refine ⟨fun k => (schedule blk).getD k 0, workingVars st blk, putResult (.state (compress st blk)) s,
    fun k => toNat_getD_schedule blk, fun k => getD_schedule blk, rfl,
    fun k hk => ?_, rfl, ?_⟩
  · rw [workingVars_succ st blk hk]
    exact round_sums _ _ _
  · rw [compress_eq_feedForward, feedForward]
    exact computed_putResult _ s

/-! ## The worked example of rule R125 -/

/-- The padded one-block message "abc". -/
def abcBlock : Bytes 64 := ⟨[0x61, 0x62, 0x63, 0x80] ++ zeros 52 ++ be64bytes 24, by decide⟩

theorem compress_hInit_abcBlock : compress hInit abcBlock =
    ⟨0xba7816bf, 0x8f01cfea, 0x414140de, 0x5dae2223, 0xb00361a3, 0x96177a9c, 0xb410ff61, 0xf20015ad⟩ := by
  decide +kernel

/-- Settles O37: a block is its bytes, and on these COMPRESS is evaluated. -/
theorem compressOfTheAbcBlock : Obligations.CompressOfTheAbcBlock := by
  intro blk hblk
  have habc : blk = abcBlock := Subtype.ext hblk
  rw [habc, compress_hInit_abcBlock]

end Sys2Proof.Machine
end

section
/-! PROOFS. The midstate compressor (41_midstate.md rules R140 to R146): the value of each piece of the setup state in
terms of the job, the order of the operations that write the pieces, and the SETUP step (rule R234). -/

namespace Sys2Proof.Machine

/-! ## Tabulated bytes -/

theorem getD_tabulate {n i : Nat} (f : Nat → Byte) (h : i < n) : (tabulate n f).val.getD i 0 = f i := by
  rw [List.getD_eq_getElem _ _ (by rwa [(tabulate n f).property]), tabulate_getElem]

theorem tabulate_congr {n : Nat} {f g : Nat → Byte} (h : ∀ i, i < n → f i = g i) : tabulate n f = tabulate n g :=
  Subtype.ext (List.map_congr_left fun i hi => h i (List.mem_range.1 hi))

theorem getD_prefixBytes (s : State) {n i : Nat} (h : i < n) : (prefixBytes s n).getD i 0 = prefixByte s i :=
  getD_tabulate (prefixByte s) h

/-! ## The pieces of the setup state -/

/-- A full block is cut out of any stretch of PREFIX that reaches its end (rule R141). -/
theorem blockAt_prefixBytes (s : State) {n b : Nat} (h : 64 * b + 64 ≤ n) :
    blockAt (prefixBytes s n) b = prefixBlock s b :=
  tabulate_congr fun _ _ => getD_prefixBytes s (by omega)

/-- Rule R142: the midstate folds COMPRESS over the full blocks of any stretch of PREFIX that holds them. -/
theorem absorb_eq_foldl_blockAt (s : State) (p : Fin 8193) {n : Nat} (h : p.val ≤ n) :
    absorb s p = ((List.range (p.val / 64)).map (fun b => blockAt (prefixBytes s n) b)).foldl compress hInit := by
  have blocks : (List.range (p.val / 64)).map (fun b => blockAt (prefixBytes s n) b) =
      (List.range (p.val / 64)).map (prefixBlock s) := by
    refine List.map_congr_left fun b hb => blockAt_prefixBytes s ?_
    have := List.mem_range.1 hb
    omega
  rw [blocks, List.foldl_map]
  rfl

theorem absorb_of_lt (s : State) {p : Fin 8193} (h : p.val < 64) : absorb s p = hInit := by
  rw [absorb, nblk, Nat.div_eq_of_lt h]
  rfl

theorem getD_captureTail (s : State) (p : Fin 8193) {i : Nat} (h : i < 64) :
    (captureTail s p).val.getD i 0 = if i < p.val % 64 then bufByte s (0x2000 + 64 * (p.val / 64) + i) else 0 := by
  rw [captureTail, getD_tabulate _ h, Nat.add_assoc]
  rfl

/-- The captured tail is the end of the clamped PREFIX, after the full blocks (rule R143). -/
theorem take_captureTail_eq_drop (s : State) (p : Fin 8193) :
    (captureTail s p).val.take (tailLenOf p).val = (prefixBytes s p.val).drop (p.val - (tailLenOf p).val) := by
  have hlen : (prefixBytes s (64 * nblk p)).length = p.val - (tailLenOf p).val :=
    (prefixBytes_length s _).trans Nat.mul_div_self_eq_mod_sub_self
  rw [prefixBytes_eq_blocks_append_tail, List.drop_left' hlen]

/-- The rest of TAIL is zero (rule R143). -/
theorem drop_captureTail (s : State) (p : Fin 8193) :
    (captureTail s p).val.drop (tailLenOf p).val = List.replicate (64 - (tailLenOf p).val) 0 := by
  refine List.ext_getElem (by rw [List.length_drop, (captureTail s p).property, List.length_replicate]) fun i _ _ => ?_
  rw [List.getElem_drop, List.getElem_replicate]
  exact (tabulate_getElem _ _).trans (if_neg (by omega))

theorem bitlenOf_toNat (p : Fin 8193) : (bitlenOf p).toNat = (p.val + 64) * 8 := by
  rw [bitlenOf, Config.nonceHexLen, BitVec.toNat_ofNat]
  omega

/-- Settles O25: each operation is the update of its own piece, with the value computed above. -/
theorem setupOperationsWriteTheirOwnPiece : Obligations.SetupOperationsWriteTheirOwnPiece := by
  intro s
  refine ⟨⟨clampPrefix s, rfl, rfl, rfl⟩, ⟨absorbMidstate s, rfl, rfl, absorb_of_lt s, ?midstate⟩,
    ⟨writeTail s, rfl, rfl, rfl, fun i hi => getD_captureTail s s.setup.plen hi⟩,
    ⟨writeBitlen s, rfl, rfl, bitlenOf_toNat s.setup.plen⟩,
    ⟨targetDecode s, rfl, rfl, fun k hk => getD_tabulate _ hk⟩⟩
  case midstate => exact absorb_eq_foldl_blockAt s s.setup.plen (by omega)

/-! ## The SETUP step -/

/-- No setup state goes into the setup state of the job. -/
theorem setupOf_setup (s : State) (u : Setup) : setupOf { s with setup := u } = setupOf s :=
  setupOf_congr (.of_mem rfl rfl rfl)

theorem exec_setup {s : State} (h : s.phase = .setup) :
    exec .setup s = .next { s with phase := .search, setup := setupOf s } := by
  rw [← setupStep_eq]
  exact congrArg _ (if_pos h)

/-- Settles O24: the step installs the setup state of the job, whose pieces have the values computed above. -/
theorem setupStepComputesAndReleases : Obligations.SetupStepComputesAndReleases := by
  intro s hs
  refine ⟨{ s with phase := .search, setup := setupOf s }, exec_setup hs, fun u => ?independent, rfl, rfl,
    absorb_eq_foldl_blockAt s _ le_rfl, rfl, take_captureTail_eq_drop s _, drop_captureTail s _, bitlenOf_toNat _,
    beNat_decodeTarget s⟩
  case independent => rw [exec_setup (s := { s with setup := u }) hs, setupOf_setup]

/-! ## The order of the setup operations -/

/-- The four operations that follow PREFIX_CLAMP, in the order of SETUP (rule R145). -/
def afterClamp : List (State → State) := [absorbMidstate, writeTail, writeBitlen, targetDecode]

/-- Each of the four reads PLEN and the buffers only, and no two write the same piece. -/
theorem afterClamp_pairwise_commute : afterClamp.Pairwise Function.Commute := by
  have absorb_tail : Function.Commute absorbMidstate writeTail := fun _ => rfl
  have absorb_bitlen : Function.Commute absorbMidstate writeBitlen := fun _ => rfl
  have absorb_target : Function.Commute absorbMidstate targetDecode := fun _ => rfl
  have tail_bitlen : Function.Commute writeTail writeBitlen := fun _ => rfl
  have tail_target : Function.Commute writeTail targetDecode := fun _ => rfl
  have bitlen_target : Function.Commute writeBitlen targetDecode := fun _ => rfl
  simp [afterClamp, absorb_tail, absorb_bitlen, absorb_target, tail_bitlen, tail_target, bitlen_target]

/-- Operations that commute pairwise give one state in every order. -/
theorem foldl_apply_perm {fs gs : List (State → State)} (hp : fs.Perm gs) (hc : gs.Pairwise Function.Commute) (s : State) :
    fs.foldl (fun u f => f u) s = gs.foldl (fun u f => f u) s := by
  have : Std.Symm (Function.Commute (α := State)) := ⟨fun _ _ h => h.symm⟩
  have commute := hc.forall_of_forall fun f _ => Function.Commute.refl f
  exact (hp.symm.foldl_eq' (fun f hf g hg u => commute hg hf u) s).symm

/-- Settles O26: SETUP is one of the orders, and the four operations commute pairwise. -/
theorem setupOperationsCommuteAfterTheClamp : Obligations.SetupOperationsCommuteAfterTheClamp :=
  fun s _ hp => foldl_apply_perm hp afterClamp_pairwise_commute (clampPrefix s)

end Sys2Proof.Machine
end

section
/-! PROOFS. The nonce space partitioner (42_nonce_partitioner.md rules R160 to R163): the derived nonce as a number, its
bytes and characters, and which candidates share a nonce. -/

namespace Sys2Proof.Machine

/-! ## The derived nonce (rule R160) -/

theorem startNonce_toNat (j : Job) :
    (startNonce j).toNat = j.startNonceHi.toNat * 2 ^ 32 + j.startNonceLo.toNat := by
  rw [startNonce, BitVec.toNat_append, ← Nat.shiftLeft_add_eq_or_of_lt j.startNonceLo.isLt, Nat.shiftLeft_eq]

theorem toNat_setWidth_long (x : Word) : (x.setWidth 64).toNat = x.toNat :=
  BitVec.toNat_setWidth_of_le (by decide)

theorem low64_toNat (j : Job) (g it : Word) :
    (low64 j g it).toNat = (j.startNonceHi.toNat * 2 ^ 32 + j.startNonceLo.toNat +
      g.toNat * j.itersPerWorker.toNat * j.nonceStride.toNat + j.nonceOffset.toNat +
      it.toNat * j.nonceStride.toNat) % 2 ^ 64 := by
  simp only [low64, BitVec.toNat_add, BitVec.toNat_mul, startNonce_toNat, toNat_setWidth_long, Nat.add_mod_mod,
    Nat.mod_add_mod, Nat.mod_mul_mod]

/-- Settles O38: the operation leaves the derived nonce, whose low half is the formula. -/
theorem nonceDeriveFormula : Obligations.NonceDeriveFormula := fun s g it =>
  ⟨_, low64 s.job g it, rfl, computed_putResult _ s, low64_toNat s.job g it⟩

/-! ## The nonce as bytes (rule R161) -/

theorem beNat_append (l m : List Byte) : beNat (l ++ m) = beNat l * 256 ^ m.length + beNat m := by
  rw [beNat, List.foldl_append, foldl_beNat, ← beNat]

theorem beNat_be32bytes (x : Word) : beNat (be32bytes x) = x.toNat := by
  rw [be32bytes, ← toNat_be32, be32_extract]

theorem beNat_be64bytes (x : Long) : beNat (be64bytes x) = x.toNat := by
  have halves : x.toNat = (x.extractLsb' 32 32).toNat * 256 ^ 4 + (x.extractLsb' 0 32).toNat := by
    simp only [BitVec.extractLsb'_toNat, Nat.shiftRight_eq_div_pow]
    omega
  rw [be64bytes, beNat_append, beNat_be32bytes, beNat_be32bytes, be32bytes_length, halves]

theorem beNat_zeros (n : Nat) : beNat (zeros n) = 0 := by
  induction n with
  | zero => rfl
  | succ n ih => simpa [zeros, List.replicate_succ, beNat_cons] using ih

theorem beNat_nonceBytes (hi : Word) (lo : Long) : beNat (nonceBytes hi lo).val = hi.toNat * 2 ^ 64 + lo.toNat := by
  simp only [nonceBytes, beNat_append, beNat_zeros, beNat_be32bytes, beNat_be64bytes, be64bytes_length]
  omega

theorem take_nonceBytes (hi : Word) (lo : Long) : (nonceBytes hi lo).val.take 20 = List.replicate 20 0 :=
  List.take_left' (zeros_length 20) (l₂ := be32bytes hi ++ be64bytes lo)

/-! ## The nonce as characters (rule R162) -/

theorem hexChar_toNat (v : BitVec 4) :
    (hexChar v).toNat = if v.toNat < 10 then 0x30 + v.toNat else 0x61 + (v.toNat - 10) := by
  revert v
  decide

theorem hexNibble_hexChar (v : BitVec 4) : hexNibble (hexChar v) = v := by
  revert v
  decide

theorem hexString_cons (b : Byte) (l : List Byte) : hexString (b :: l) = hexPair b ++ hexString l := rfl

/-- Character `k` stands for a nibble of byte `k / 2`, the high one where `k` is even. -/
theorem getD_hexString (l : List Byte) {k : Nat} (hk : k < 2 * l.length) :
    (hexString l).getD k 0 = hexChar ((l.getD (k / 2) 0).extractLsb' (if k % 2 = 0 then 4 else 0) 4) := by
  induction l generalizing k with
  | nil => simp at hk
  | cons b l ih =>
    match k with
    | 0 | 1 => rfl
    | k + 2 =>
      have rest := ih (k := k) (by rw [List.length_cons] at hk; omega)
      rw [Nat.add_mod_right, Nat.add_div_right k (by decide)]
      exact rest

/-- A nibble as a number: the quotient of the byte by 16 or its remainder. -/
theorem nibble_toNat (b : Byte) (c : Prop) [Decidable c] :
    (b.extractLsb' (if c then 4 else 0) 4).toNat = if c then b.toNat / 16 else b.toNat % 16 := by
  split
  · rw [BitVec.extractLsb'_toNat, Nat.shiftRight_eq_div_pow]; omega
  · rfl

/-- Settles O39: the number of each part of the byte string, and the nibble of each character. -/
theorem nonceBytesAndNonceHex : Obligations.NonceBytesAndNonceHex := by
  refine ⟨fun s hi lo => ⟨_, nonceBytes hi lo, rfl, computed_putResult _ s, take_nonceBytes hi lo, beNat_nonceBytes hi lo⟩,
    fun s nb => ⟨_, nonceHex nb, rfl, computed_putResult _ s, fun k hk => ⟨_, rfl, ?character⟩⟩⟩
  case character =>
    have char := getD_hexString nb.val (k := k) (by rwa [nb.property])
    rw [nonceHex, char, hexChar_toNat, nibble_toNat]

/-! ## Which candidates share a nonce (rule R163) -/

theorem nonceBytes_eq_iff {hi hi' : Word} {lo lo' : Long} :
    nonceBytes hi lo = nonceBytes hi' lo' ↔ hi = hi' ∧ lo = lo' := by
  constructor
  · intro h
    have number : hi.toNat * 2 ^ 64 + lo.toNat = hi'.toNat * 2 ^ 64 + lo'.toNat := by
      rw [← beNat_nonceBytes, ← beNat_nonceBytes, h]
    exact ⟨by bv_omega, by bv_omega⟩
  · rintro ⟨rfl, rfl⟩
    rfl

theorem nibbles_append (b : Byte) : b.extractLsb' 4 4 ++ b.extractLsb' 0 4 = b := by
  apply BitVec.eq_of_toNat_eq
  simp only [toNat_nibbles, BitVec.extractLsb'_toNat, Nat.shiftRight_eq_div_pow]
  omega

theorem hexPair_injective : Function.Injective hexPair := by
  intro b c h
  obtain ⟨high, low⟩ : hexChar (b.extractLsb' 4 4) = hexChar (c.extractLsb' 4 4) ∧
      hexChar (b.extractLsb' 0 4) = hexChar (c.extractLsb' 0 4) := by simpa [hexPair] using h
  have hexChar_injective := Function.LeftInverse.injective hexNibble_hexChar
  rw [← nibbles_append b, ← nibbles_append c, hexChar_injective high, hexChar_injective low]

theorem hexString_injective : Function.Injective hexString
  | [], [], _ => rfl
  | [], _ :: _, h | _ :: _, [], h => nomatch h
  | b :: l, c :: m, h => by
    rw [hexString_cons, hexString_cons] at h
    obtain ⟨first, rest⟩ := List.append_inj h rfl
    rw [hexPair_injective first, hexString_injective rest]

theorem nonceHex_injective : Function.Injective nonceHex := fun _ _ h =>
  Subtype.ext (hexString_injective (congrArg Subtype.val h))

/-- The high half of a nonce is the worker, so two candidates share a nonce within one worker only. -/
theorem candidateHex_eq_iff (j : Job) (g1 g2 i1 i2 : Word) :
    candidateHex j g1 i1 = candidateHex j g2 i2 ↔ g1 = g2 ∧ low64 j g1 i1 = low64 j g2 i2 :=
  nonceHex_injective.eq_iff.trans nonceBytes_eq_iff

/-- The product of an iteration and the stride stays below 2^64, so distinct iterations move apart with any stride. -/
theorem low64_eq_iff (j : Job) (g i1 i2 : Word) : low64 j g i1 = low64 j g i2 ↔ i1 = i2 ∨ j.nonceStride = 0 := by
  have exact_product (i : Word) :
      (i.setWidth 64 * j.nonceStride.setWidth 64 : Long).toNat = i.toNat * j.nonceStride.toNat := by
    rw [BitVec.toNat_mul, toNat_setWidth_long, toNat_setWidth_long]
    exact Nat.mod_eq_of_lt ((Nat.mul_lt_mul'' i.isLt j.nonceStride.isLt).trans_le (by decide))
  rw [low64, low64, BitVec.add_right_inj, ← BitVec.toNat_inj, exact_product, exact_product, mul_eq_mul_right_iff,
    BitVec.toNat_inj, ← BitVec.toNat_inj (y := 0)]
  rfl

/-- Settles O40: the high halves tell workers apart, the low halves the iterations of one worker. -/
theorem partitionIsDisjoint : Obligations.PartitionIsDisjoint := by
  intro j g1 g2 i1 i2 _ _
  constructor
  · exact fun hg h => hg ((candidateHex_eq_iff j g1 g2 i1 i2).1 h).1
  · intro hi
    simp [candidateHex_eq_iff, low64_eq_iff, hi]

end Sys2Proof.Machine
end

section
/-! PROOFS. The block finalizer (43_block_finalizer.md rules R180 to R188): the bytes of the final blocks in each range of
the tail length, the chain from the midstate over the blocks given, and the digest as SHA-256 of the whole message. -/

namespace Sys2Proof.Machine

/-! ## The padded blocks (rules R181 to R184) -/

theorem slice_zero_left (l : List Byte) (n : Nat) : slice l 0 n = l.take n := rfl

theorem slice_to_end {n : Nat} (b : Bytes n) (i : Nat) : slice b.val i n = b.val.drop i :=
  List.take_of_length_le (by rw [List.length_drop, b.property])

theorem map_val_finalBlocks_of_le (tail : Bytes 64) {r : Fin 64} (bitlen : Long) (hex : Bytes 64) (h : r.val ≤ 55) :
    (finalBlocks tail r bitlen hex).map Subtype.val =
      [tail.val.take r.val ++ hex.val.take (64 - r.val),
        hex.val.drop (64 - r.val) ++ [0x80] ++ zeros (55 - r.val) ++ be64bytes bitlen] := by
  rw [finalBlocks, dif_pos h]
  simp only [List.map, blockA, blockBShort, slice_zero_left, slice_to_end]

theorem map_val_finalBlocks_of_ge (tail : Bytes 64) {r : Fin 64} (bitlen : Long) (hex : Bytes 64) (h : 56 ≤ r.val) :
    (finalBlocks tail r bitlen hex).map Subtype.val =
      [tail.val.take r.val ++ hex.val.take (64 - r.val),
        hex.val.drop (64 - r.val) ++ [0x80] ++ zeros (63 - r.val), zeros 56 ++ be64bytes bitlen] := by
  rw [finalBlocks, dif_neg (by omega)]
  simp only [List.map, blockA, blockBLong, blockC, slice_zero_left, slice_to_end]

/-- An empty tail leaves the nonce hex whole in the first block (rule R181). -/
theorem map_val_finalBlocks_of_eq_zero (tail : Bytes 64) {r : Fin 64} (bitlen : Long) (hex : Bytes 64)
    (h : r.val = 0) :
    (finalBlocks tail r bitlen hex).map Subtype.val = [hex.val, [0x80] ++ zeros 55 ++ be64bytes bitlen] := by
  have first : hex.val.take 64 = hex.val := List.take_of_length_le hex.property.le
  have second : hex.val.drop 64 = [] := List.drop_of_length_le hex.property.le
  rw [map_val_finalBlocks_of_le tail bitlen hex (by omega), h, Nat.sub_zero, Nat.sub_zero, first, second]
  rfl

/-- Settles O41: the two-block layout, its case of an empty tail, and the three-block layout. -/
theorem finalBlocksByTailLength : Obligations.FinalBlocksByTailLength := fun s hex =>
  ⟨_, _, rfl, computed_putResult _ s, map_val_finalBlocks_of_eq_zero _ _ hex,
    fun _ => map_val_finalBlocks_of_le _ _ hex, map_val_finalBlocks_of_ge _ _ hex⟩

/-! ## The chain from the midstate (rules R185 and R186) -/

/-- Settles O42: the fold over the blocks is the chain, and DIGEST_BYTES lists its last words. -/
theorem finalizeChainsFromTheMidstate : Obligations.FinalizeChainsFromTheMidstate := by
  intro s a b c
  refine ⟨_, _, (a :: b :: c.toList).foldl compress s.setup.midH, rfl, computed_putResult _ s, ?chain, rfl⟩
  case chain => cases c <;> rfl

/-! ## The digest of a candidate (rule R187) -/

/-- Settles O43: the prefix blocks and the final blocks are the padded message, and 8192 is the clamp's bound. -/
theorem digestIsSha256OfPrefixAndNonce : Obligations.DigestIsSha256OfPrefixAndNonce :=
  candidateDig_setupOf_eq_sha256

end Sys2Proof.Machine
end

section
/-! PROOFS. The comparator and the arbitration of the workers (44_comparator_arbitration.md rules R200 to R216): what each
worker operation does where it is enabled and where it is not, and what a completed launch leaves (rule R243). -/

namespace Sys2Proof.Machine

/-! ## The comparator (rules R200 to R203) -/

theorem hexNibble_digit {c : Byte} (h : 0x30 ≤ c.toNat ∧ c.toNat ≤ 0x39) :
    (hexNibble c).toNat = c.toNat - 0x30 := by
  simp only [hexNibble, if_pos h, BitVec.toNat_ofNat]
  omega

theorem hexNibble_lower {c : Byte} (h : 0x61 ≤ c.toNat ∧ c.toNat ≤ 0x66) :
    (hexNibble c).toNat = c.toNat - 0x61 + 10 := by
  have hdigit : ¬(0x30 ≤ c.toNat ∧ c.toNat ≤ 0x39) := by omega
  simp only [hexNibble, if_neg hdigit, if_pos h, BitVec.toNat_ofNat]
  omega

theorem hexNibble_upper {c : Byte} (h : 0x41 ≤ c.toNat ∧ c.toNat ≤ 0x46) :
    (hexNibble c).toNat = c.toNat - 0x41 + 10 := by
  have hdigit : ¬(0x30 ≤ c.toNat ∧ c.toNat ≤ 0x39) := by omega
  have hlower : ¬(0x61 ≤ c.toNat ∧ c.toNat ≤ 0x66) := by omega
  simp only [hexNibble, if_neg hdigit, if_neg hlower, if_pos h, BitVec.toNat_ofNat]
  omega

/-- A malformed character decodes to 0 (decision D15). -/
theorem hexNibble_malformed {c : Byte} (hdigit : ¬(0x30 ≤ c.toNat ∧ c.toNat ≤ 0x39))
    (hlower : ¬(0x61 ≤ c.toNat ∧ c.toNat ≤ 0x66)) (hupper : ¬(0x41 ≤ c.toNat ∧ c.toNat ≤ 0x46)) :
    hexNibble c = 0 := by
  simp only [hexNibble, if_neg hdigit, if_neg hlower, if_neg hupper]

/-- Settles O44: the result of the operation is HEX_NIBBLE of its character, range by range. -/
theorem hexNibbleDecodesOneCharacter : Obligations.HexNibbleDecodesOneCharacter := fun s _ =>
  ⟨_, _, rfl, computed_putResult _ s, hexNibble_digit, hexNibble_lower, hexNibble_upper, hexNibble_malformed⟩

/-- Settles O45: lexicographic order of the 32 bytes is the order of the 256-bit numbers. -/
theorem compareIsUnsignedLessOrEqual : Obligations.CompareIsUnsignedLessOrEqual := fun s dig =>
  ⟨_, _, rfl, computed_putResult _ s, digestLe_iff_beNat_le (dig.property.trans s.setup.tgt.property.symm)⟩

/-! ## An operation that is not enabled -/

theorem workerStep_disabled {g : Word} {p : WPhase} {s : State} (f : Worker → State)
    (h : ∀ w, worker? s g = some w → w.phase ≠ p) : workerStep g p f s = s := by
  rcases workerStep_cases g p f s with ⟨w, hw, hp, -⟩ | ⟨-, e⟩
  · exact absurd hp (h w hw)
  · exact e

/-- WAIT holds until the barrier is released (45_launch_control.md rule R235). -/
theorem waitStep_disabled {g : Word} {s : State}
    (h : s.phase ≠ .search ∨ ∀ w, worker? s g = some w → w.phase ≠ .wait) : waitStep g s = s := by
  unfold waitStep
  split
  · next hs => exact workerStep_disabled _ (h.resolve_left (not_not.2 hs))
  · rfl

theorem allExited_iff (s : State) : allExited s = true ↔ ∀ w ∈ s.workers, w.phase = .exited := by
  simp [allExited]

/-- COMPLETE where it is enabled (45_launch_control.md rule R240). -/
theorem completeStep_enabled {s : State} (hs : s.phase = .search) (hx : ∀ w ∈ s.workers, w.phase = .exited) :
    completeStep s = { s with phase := .idle, done := true, workers := [] } :=
  if_pos ⟨hs, (allExited_iff s).2 hx⟩

theorem completeStep_disabled {s : State} (h : s.phase ≠ .search ∨ ∃ w ∈ s.workers, w.phase ≠ .exited) :
    completeStep s = s := by
  refine if_neg fun ⟨hs, hx⟩ => ?_
  obtain ⟨w, hw, hp⟩ := h.resolve_left (not_not.2 hs)
  exact hp ((allExited_iff s).1 hx w hw)

/-- Settles O28: SETUP, COMPLETE and WAIT test PHASE, and a worker operation tests its worker. -/
theorem disabledOperationsChangeNothing : Obligations.DisabledOperationsChangeNothing := fun _ =>
  ⟨fun h => congrArg _ (if_neg h), fun h => congrArg _ (completeStep_disabled h), fun _ =>
    ⟨fun h => congrArg _ (waitStep_disabled h), fun h => congrArg _ (workerStep_disabled _ h),
      fun h => congrArg _ (workerStep_disabled _ h), fun h => congrArg _ (workerStep_disabled _ h),
      fun h => congrArg _ (workerStep_disabled _ h), fun h => congrArg _ (workerStep_disabled _ h)⟩⟩

/-! ## The operations of a worker in their phase (rules R210 to R214) -/

/-- BUDGET as a signed number (45_launch_control.md rule R236). -/
theorem budget_eq_max (j : Job) : (budget j : Int) = max 0 j.itersPerWorker.toInt := by
  have hsigned := BitVec.toInt_eq_toNat_cond j.itersPerWorker
  unfold budget
  split <;> split at hsigned <;> omega

/-- Settles O30: the budget test comes first, and the found-flag is read only when it fails. -/
theorem pollTestsTheBudgetThenTheFlag : Obligations.PollTestsTheBudgetThenTheFlag := by
  intro s g w hw hp
  have hpoll : pollStep g s = _ := workerStep_enabled _ hw hp
  simp only [exec, execPoll, hpoll, ← budget_eq_max, ge_iff_le, Nat.cast_le, Nat.cast_lt]
  refine ⟨fun spent => ?_, fun left claimed => ?_, fun left unset => ?_⟩
  · rw [if_pos spent]; rfl
  · rw [if_neg (Nat.not_le.2 left), if_pos claimed]; rfl
  · rw [if_neg (Nat.not_le.2 left), if_neg (not_not.2 unset)]; rfl

/-- Settles O32: CLAIM tests FOUND and sets it in the same step. -/
theorem claimIsACompareAndSwap : Obligations.ClaimIsACompareAndSwap := by
  intro s g w hw hp
  have hclaim : claimStep g s = _ := workerStep_enabled _ hw hp
  simp only [exec, execClaim, hclaim]
  refine ⟨fun unset => ?_, fun claimed => ?_⟩
  · rw [if_pos unset]; rfl
  · rw [if_neg claimed]; rfl

theorem getD_resultNonce (s : State) {i : Nat} (h : i < 64) :
    (resultNonce s).getD i 0 = bufByte s (resultNonceBase + i) := by
  simp [resultNonce, h]

theorem getD_resultDigest (s : State) {i : Nat} (h : i < 32) :
    (resultDigest s).getD i 0 = bufByte s (resultDigestBase + i) := by
  simp [resultDigest, h]

/-- Settles O33: the result windows hold the latches after the two writes, which stay inside the windows. -/
theorem writeResultStoresTheCandidate : Obligations.WriteResultStoresTheCandidate := by
  intro s g w hw hp
  obtain ⟨hnonce, hdigest, hjob⟩ := results_written s w.candHex w.candDig
  refine ⟨setWorker g { w with phase := .publish } (storeLatches w s),
    congrArg _ (workerStep_enabled _ hw hp), rfl, fun i hi => ?_, fun i hi => ?_, hjob.bytes⟩
  · rw [← hnonce, getD_resultNonce _ hi]; rfl
  · rw [← hdigest, getD_resultDigest _ hi]; rfl

/-- Settles O34: PUBLISH in its phase, with nothing to test. -/
theorem publishSetsFoundToTwo : Obligations.PublishSetsFoundToTwo := fun _ _ _ hw hp =>
  congrArg _ (workerStep_enabled _ hw hp)

/-! ## No evaluation starts after a claim (rule R216) -/

/-- A worker's move replaces its own worker only, and admits it to EVAL only while FOUND = 0 (rule R210). -/
theorem WorkerMove.admits {s t : State} {g : Word} {w : Worker} (h : WorkerMove s g w t) :
    ∃ w', t.workers = s.workers.set g.toNat w' ∧ (w'.phase = .eval → s.found = .unset) := by
  cases h with
  | admitted hp hb hf => exact ⟨_, rfl, fun _ => hf⟩
  | _ => exact ⟨_, rfl, nofun⟩

/-- A worker of a pool in which WORKER[g] was replaced is the new one or was there before. -/
theorem worker?_of_set {s t : State} {g g' : Word} {w w' v : Worker} (ht : t.workers = s.workers.set g.toNat w')
    (hw : worker? s g = some w) (hv : worker? t g' = some v) : v = w' ∨ worker? s g' = some v := by
  have hset : worker? t g' = worker? (setWorker g w' s) g' := by rw [worker?, ht]; rfl
  by_cases hg : g' = g
  · subst hg
    rw [hset, worker?_setWorker_same w' hw] at hv
    exact .inl (Option.some.inj hv).symm
  · rw [hset, worker?_setWorker_ne w' s hg] at hv
    exact .inr hv

/-- In SEARCH with FOUND not 0, a worker in EVAL after an effect was the same worker in EVAL before it. -/
theorem BlockEffect.eval_before {s t : State} {g : Word} {v : Worker} (h : BlockEffect s t) (hs : s.phase = .search)
    (hf : s.found ≠ .unset) (hv : worker? t g = some v) (hp : v.phase = .eval) : worker? s g = some v := by
  cases h with
  | jobReg hi | jobBuffer hi | started hi | setupDone hi => rw [hs] at hi; cases hi
  | none | setupPiece => exact hv
  | completed => cases hv
  | worker g' w hw _ hm =>
    obtain ⟨w', ht, hadmits⟩ := hm.admits
    rcases worker?_of_set ht hw hv with rfl | hbefore
    · exact absurd (hadmits hp) hf
    · exact hbefore

/-- Settles O57: of a step's effects only POLL leads to EVAL, and it needs FOUND = 0; a reset leaves no worker. -/
theorem noEvaluationStartsAfterAClaim : Obligations.NoEvaluationStartsAfterAClaim := by
  intro s t g w' hs hf hstep hw' hp
  rcases step_affects hstep with ⟨u, hu, v, hv, ht⟩ | ⟨u, -, rfl⟩
  · rw [ht.worker?] at hw'
    have hbefore := hv.eval_before (hu.phase.trans hs) (hu.found ▸ hf) hw' hp
    exact ⟨w', (hu.worker? g).symm.trans hbefore, hp⟩
  · cases hw'

/-! ## What a completed launch leaves (rule R243) -/

/-- A launch has a worker for every index below NUM_WORKERS (10_state.md rule R43). -/
theorem LaunchInv.exists_worker {s : State} (h : LaunchInv s) (hb : s.phase ≠ .idle) {g : Word}
    (hg : g.toNat < s.job.numWorkers.toNat) : ∃ w, worker? s g = some w :=
  ⟨_, List.getElem?_eq_getElem (h.pool hb ▸ hg)⟩

/-- The worker at a place of the pool, by its index. -/
theorem LaunchInv.exists_index {s : State} (h : LaunchInv s) (hb : s.phase ≠ .idle) {w : Worker}
    (hw : w ∈ s.workers) : ∃ g, worker? s g = some w := by
  obtain ⟨i, hi, rfl⟩ := List.getElem_of_mem hw
  have hlt : i < 2 ^ 32 := by
    have := s.job.numWorkers.isLt
    have := h.pool hb
    omega
  refine ⟨BitVec.ofNat 32 i, ?_⟩
  rw [worker?, BitVec.toNat_ofNat, Nat.mod_eq_of_lt hlt, List.getElem?_eq_getElem hi]

/-- With FOUND = 0 a worker that has exited evaluated every candidate below its budget, and none matched. -/
theorem WorkerOk.exhausted {s : State} {g : Word} {w : Worker} (k : WorkerOk s g w) (hf : s.found = .unset)
    (hp : w.phase = .exited) : w.it.toNat = budget s.job ∧
      ∀ it : Word, it.toNat < budget s.job → candidateMatches s g it = false := by
  have hspent : w.it.toNat = budget s.job := (k.exited hp).resolve_right (not_not.2 hf)
  exact ⟨hspent, fun it hit => k.earlier_failed (.inr hf) it (hspent ▸ hit)⟩

/-- Settles O51: with every worker exited nobody holds the claim, so FOUND is 0 and each worker's search came to nothing,
or it is 2 and the invariant names the winner; COMPLETE keeps the job and the result windows. -/
theorem completedLaunchOutcome : Obligations.CompletedLaunchOutcome := by
  intro s t h hs hx e
  have hbusy : s.phase ≠ .idle := by simp [hs]
  rw [exec, execComplete, completeStep_enabled hs hx] at e
  obtain ⟨hjob, hbytes, hfound⟩ :
      SameJob s t ∧ (∀ a, bufByte t a = bufByte s a) ∧ t.found = s.found := by
    cases e
    exact ⟨.of_mem rfl rfl rfl, fun _ => rfl, rfl⟩
  rw [hfound, hjob.job]
  cases hf : s.found with
  | unset =>
    have exhausted {g w} (hw : worker? s g = some w) :=
      (h.workers hs g w hw).exhausted hf (hx w (List.mem_of_getElem? hw))
    refine .inl ⟨rfl, fun w hw => ?_, fun g it hg hit => ?_⟩
    · obtain ⟨g, hg⟩ := h.exists_index hbusy hw
      exact (exhausted hg).1
    · obtain ⟨w, hw⟩ := h.exists_worker hbusy hg
      rw [candidateMatches_congr hjob]
      exact (exhausted hw).2 it hit
  | claimed => exact absurd hf (found_ne_claimed_of_allExited h ((allExited_iff s).2 hx))
  | published =>
    obtain ⟨g, it, hg, hfirst, hholds⟩ := h.winner hs hf
    exact .inr ⟨rfl, g, it, hg, (firstMatch_congr hjob g it).2 hfirst, (resultHolds_congr hjob hbytes g it).2 hholds⟩

end Sys2Proof.Machine
end

section
/-! PROOFS. Launch control (45_launch_control.md rules R230 to R242): what START, WAIT, EVAL and COMPLETE do where they are
enabled, a launch without workers, and the bound on the steps of a worker. -/

namespace Sys2Proof.Machine

/-! ## START (rules R231 and R232) -/

theorem exec_start_idle {s : State} (h : s.phase = .idle) : exec .start s = .next (launch s) :=
  congrArg _ (jobWrite_idle launch h)

theorem exec_start_busy {s : State} (h : s.phase ≠ .idle) : exec .start s = .next s :=
  congrArg _ (jobWrite_busy launch h)

/-- The write of 1 to CMD is the command START (rule R230). -/
theorem exec_wrCmd_one (s : State) : exec (.wrCmd 1) s = exec .start s := rfl

theorem launch_waits {s : State} {w : Worker} (h : w ∈ (launch s).workers) : w.phase = .wait ∧ w.it = 0 := by
  obtain ⟨g, -, rfl⟩ := List.mem_map.1 h
  exact ⟨rfl, rfl⟩

/-- Settles O22: START launches, which touches the fields named and gives every index below NUM_WORKERS its worker. -/
theorem startBeginsALaunch : Obligations.StartBeginsALaunch := fun s h =>
  ⟨launch s, exec_start_idle h, (exec_wrCmd_one s).trans (exec_start_idle h), rfl, by simp, fun _ => launch_waits⟩

/-- Settles O23: START is held to the BUSY rule. -/
theorem startWhileBusyIsIgnored : Obligations.StartWhileBusyIsIgnored := fun s h =>
  ⟨exec_start_busy h, (exec_wrCmd_one s).trans (exec_start_busy h)⟩

/-! ## The steps of SEARCH (rules R235, R237 and R240) -/

/-- Settles O27: the guard of COMPLETE holds. -/
theorem completeEndsTheLaunch : Obligations.CompleteEndsTheLaunch := fun _ hs hx =>
  congrArg _ (completeStep_enabled hs hx)

theorem waitStep_enabled {g : Word} {s : State} {w : Worker} (hs : s.phase = .search) (hw : worker? s g = some w)
    (hp : w.phase = .wait) : waitStep g s = setWorker g { w with phase := .poll } s :=
  (if_pos hs).trans (workerStep_enabled _ hw hp)

/-- Settles O29: the worker is in WAIT, so PHASE alone decides. -/
theorem waitPassesTheBarrier : Obligations.WaitPassesTheBarrier := fun _ _ _ hw hp =>
  ⟨fun hs => congrArg _ (waitStep_enabled hs hw hp), fun hs => congrArg _ (waitStep_disabled (.inl hs))⟩

/-- Settles O31: EVAL branches on COMPARE, which is the order of the 256-bit numbers. -/
theorem evalHashesOneCandidate : Obligations.EvalHashesOneCandidate := by
  intro s g w hw hp
  have heval : evalStep g s = _ := workerStep_enabled _ hw hp
  have hcompare (dig : Bytes 32) : digestLe dig.val s.setup.tgt.val = true ↔ beNat dig.val ≤ beNat s.setup.tgt.val :=
    digestLe_iff_beNat_le (dig.property.trans s.setup.tgt.property.symm)
  refine ⟨candidateHex s.job g w.it, candidateDig s.setup (candidateHex s.job g w.it), rfl, rfl, fun hmatch => ?_,
    fun hmiss => ?_⟩
  · exact congrArg _ (heval.trans (if_pos ((hcompare _).2 hmatch)))
  · exact congrArg _ (heval.trans (if_neg fun hle => Nat.not_le.2 hmiss ((hcompare _).1 hle)))

/-! ## A launch without workers (rule R241) -/

theorem launch_workers_nil {s : State} (h : s.job.numWorkers = 0) : (launch s).workers = [] := by
  simp [h]

/-- Settles O60: START launches, SETUP releases the barrier, and COMPLETE is enabled because there is no worker. -/
theorem emptyLaunchCompletes : Obligations.EmptyLaunchCompletes := by
  intro s hidle hnone
  have hstart : stepAs .host { s with env.hostProg := .command 1 :: s.env.hostProg } = .next (launch s) :=
    (stepAs_host rfl s.env.hostProg s.env.sched s).trans (exec_start_idle hidle)
  have hsetup : stepAs .setup (launch s) = .next (setupStep (launch s)) := stepAs_setup (launch s)
  have hcomplete : stepAs .setup (setupStep (launch s)) = .next (completeStep (setupStep (launch s))) :=
    stepAs_setup (setupStep (launch s))
  have hempty : (setupStep (launch s)).workers = [] := launch_workers_nil hnone
  refine ⟨completeStep (setupStep (launch s)), ?_, ?_⟩
  · rw [runPicks_cons hstart, runPicks_cons hsetup, runPicks_cons hcomplete]
    rfl
  · rw [completeStep_enabled rfl (by simp [hempty])]
    exact ⟨rfl, rfl, rfl, rfl, rfl, rfl⟩

/-! ## The bound on the steps of a worker (rule R242) -/

theorem stepsLeft_of_wait (j : Job) (f : FoundState) {w : Worker} (h : w.phase = .wait) :
    stepsLeft j f w = 2 * budget j + 5 := by
  simp [stepsLeft, h]

section
variable {s t : State} {g g' : Word} {w x x' : Worker}

/-- A worker's move lowers its own bound. -/
theorem WorkerMove.stepsLeft_lt (hm : WorkerMove s g w t) (hok : WorkerOk s g w) (hw : worker? s g = some w)
    (hx' : worker? t g = some x') : stepsLeft t.job t.found x' < stepsLeft s.job s.found w := by
  obtain ⟨w', ht, hlt⟩ := hm.leaves hok
  have hw' : worker? t g = some w' := by
    rw [ht]
    exact worker?_setWorker_same w' hw
  cases hw'.symm.trans hx'
  rw [hm.sameJob.job]
  exact hlt

/-- A worker's move raises the bound of no other worker: it leaves the worker alone and does not clear the found-flag. -/
theorem WorkerMove.stepsLeft_le_of_ne (hm : WorkerMove s g w t) (hok : WorkerOk s g w) (hg : g' ≠ g)
    (hx : worker? s g' = some x) (hx' : worker? t g' = some x') :
    stepsLeft t.job t.found x' ≤ stepsLeft s.job s.found x := by
  obtain ⟨w', ht, -⟩ := hm.leaves hok
  have hsame : worker? t g' = worker? s g' := by
    rw [ht]
    exact worker?_setWorker_ne w' s hg
  cases hx.symm.trans (hsame.symm.trans hx')
  rw [hm.sameJob.job]
  exact stepsLeft_le x hm.found_stays

/-- No effect in SEARCH raises a worker's bound. -/
theorem BlockEffect.stepsLeft_le (he : BlockEffect s t) (h : LaunchInv s) (hs : s.phase = .search)
    (hx : worker? s g = some x) (hx' : worker? t g = some x') :
    stepsLeft t.job t.found x' ≤ stepsLeft s.job s.found x := by
  cases he with
  | jobReg hi | jobBuffer hi | started hi | setupDone hi => rw [hs] at hi; cases hi
  | none | setupPiece => cases hx.symm.trans hx'; exact le_rfl
  | completed => cases hx'
  | worker g' w hw _ hm =>
    have hok := h.workers hs g' w hw
    by_cases hg : g = g'
    · subst hg
      cases hw.symm.trans hx
      exact (hm.stepsLeft_lt hok hw hx').le
    · exact hm.stepsLeft_le_of_ne hok hg hx hx'

end

/-- Settles O58: START leaves every worker in WAIT; in SEARCH each effect keeps the bounds, and a live worker's own step
is one of its moves. -/
theorem workerStepsAreBounded : Obligations.WorkerStepsAreBounded := by
  constructor
  · intro s t w hidle hstart hw
    cases (exec_start_idle hidle).symm.trans hstart
    exact stepsLeft_of_wait _ _ (launch_waits hw).1
  · intro s t g w w' ps h hs _ hw hw' hstep
    refine ⟨?_, fun hsched hlive => ?_⟩
    · rcases step_affects hstep with ⟨u, hu, v, hv, ht⟩ | ⟨u, -, rfl⟩
      · rw [ht.job, ht.found, ← hu.job, ← hu.found]
        exact hv.stepsLeft_le (hu.launchInv h) (hu.phase.trans hs) ((hu.worker? g).trans hw)
          ((ht.worker? g).symm.trans hw')
      · cases hw'
    · have hsame := sameBlock_fed s.env.hostProg ps s
      rw [step_eq_stepAs hsched] at hstep
      obtain ⟨u, hu, hmove⟩ := stepAs_worker (hsame.phase.trans hs) ((hsame.worker? g).trans hw) hlive
      cases hu.symm.trans hstep
      exact hmove.stepsLeft_lt ((hsame.launchInv h).workers (hsame.phase.trans hs) g w hw) hw hw'

end Sys2Proof.Machine
end

section
/-! PROOFS. No exceptions (60_exceptions.md rules R260, R265 and R267): every operation and every step answers a next
state, and a worker's operation writes what is its own. -/

namespace Sys2Proof.Machine

/-! ## Every step answers (rules R260 and R265) -/

theorem feedOk_iff {s : State} :
    feedOk s = true ↔ LinesOk s.env.hostProg ∧ ∀ p ∈ s.env.sched, Pick.ok p = true := by
  simp only [feedOk, LinesOk, Bool.and_eq_true, List.all_eq_true]

/-- A well-formed operation puts only lines that name operations back, and leaves the schedule. -/
theorem exec_keeps_feedOk {i : Instr} {s t : State} (hi : i.wf = true) (hs : feedOk s = true)
    (e : exec i s = .next t) : feedOk t = true := by
  obtain ⟨hlines, hpicks⟩ := feedOk_iff.1 hs
  obtain ⟨hsched, hprog⟩ := exec_feed_eq e
  rw [feedOk_iff, hprog, hsched]
  exact ⟨List.forall_mem_append.2 ⟨leftover_wf hi s, hlines⟩, hpicks⟩

theorem stepAs_answers (m : Mover) {s : State} (hs : feedOk s = true) :
    ∃ t, stepAs m s = .next t ∧ feedOk t = true := by
  obtain ⟨hlines, hpicks⟩ := feedOk_iff.1 hs
  obtain ⟨t, ht, hleft⟩ := stepAs_total m hlines
  obtain ⟨hsched, -⟩ := stepAs_fed ht []
  exact ⟨t, ht, feedOk_iff.2 ⟨hleft, hsched ▸ hpicks⟩⟩

theorem Pick.ok_issue {id : Byte} {l : List Byte} (h : Pick.ok (.issue id l) = true) :
    ∃ i r, decodeInternal id l = .ok (i, r) := by
  rw [Pick.ok] at h
  cases hd : decodeInternal id l with
  | ok x => exact ⟨x.1, x.2, rfl⟩
  | error => rw [hd] at h; cases h

/-- What is left of the schedule after its first entry names operations too. -/
theorem feedOk_rest {s : State} {p : Pick} {ps : List Pick} (hs : feedOk s = true) (hsched : s.env.sched = p :: ps) :
    Pick.ok p = true ∧ feedOk { s with env.sched := ps } = true := by
  obtain ⟨hlines, hpicks⟩ := feedOk_iff.1 hs
  obtain ⟨hp, hps⟩ := List.forall_mem_cons.1 (hsched ▸ hpicks)
  exact ⟨hp, feedOk_iff.2 ⟨hlines, hps⟩⟩

theorem step_mover_answers {s : State} {m : Mover} {ps : List Pick} (hs : feedOk s = true)
    (hsched : s.env.sched = .mover m :: ps) : ∃ t, step s = .next t ∧ feedOk t = true := by
  rw [step_eq_stepAs hsched]
  exact stepAs_answers m (feedOk_rest hs hsched).2

/-- A numbered operation that decodes is well formed, so it is run. -/
theorem step_issue_answers {s : State} {id : Byte} {l : List Byte} {ps : List Pick} (hs : feedOk s = true)
    (hsched : s.env.sched = .issue id l :: ps) : ∃ t, step s = .next t ∧ feedOk t = true := by
  obtain ⟨hp, hrest⟩ := feedOk_rest hs hsched
  obtain ⟨i, r, hd⟩ := Pick.ok_issue hp
  have hi := readsWf_decodeInternal id l i r hd
  obtain ⟨-, -, -, numbered, -⟩ := stepRunsTheAgentsOperation s ps
  rw [numbered id l r i hsched hd hi]
  obtain ⟨t, ht, -⟩ := exec_fed i { s with env.sched := ps }
  exact ⟨t, ht, exec_keeps_feedOk hi hrest ht⟩

/-- Settles O11: every operation answers, and a step runs the schedule's next entry or, where there is none, the step of
the agent a free value picks. -/
theorem noStepEverStops : Obligations.NoStepEverStops := by
  refine ⟨fun i s => (exec_fed i s).imp fun _ h => h.1, fun s hs => ?_⟩
  cases hsched : s.env.sched with
  | nil =>
    obtain ⟨-, -, -, -, free⟩ := stepRunsTheAgentsOperation s []
    obtain ⟨hlines, -⟩ := feedOk_iff.1 hs
    rw [free hsched]
    exact step_mover_answers (feedOk_iff.2 ⟨hlines, by simp [Pick.ok]⟩) rfl
  | cons p ps =>
    cases p with
    | mover m => exact step_mover_answers hs hsched
    | issue id l => exact step_issue_answers hs hsched

/-! ## A worker writes what is its own (rule R267) -/

/-- From `s` to `t` nothing changed but WORKER[g], the found-flag and the bytes of the result windows. -/
structure OnlyWorkerChanged (g : Word) (s t : State) : Prop where
  others : ∀ g', g' ≠ g → worker? t g' = worker? s g'
  count : t.workers.length = s.workers.length
  frame : t = { s with mem := t.mem, found := t.found, workers := t.workers }
  bytes : ∀ a, a < 0x200 ∨ 0x260 ≤ a → bufByte t a = bufByte s a

section
variable {g : Word} {s : State}

theorem OnlyWorkerChanged.refl : OnlyWorkerChanged g s s := ⟨fun _ _ => rfl, rfl, rfl, fun _ _ => rfl⟩

/-- Writing WORKER[g] back, with the found-flag or without. -/
theorem onlyWorkerChanged_setWorker (w : Worker) (f : FoundState) :
    OnlyWorkerChanged g s { setWorker g w s with found := f } :=
  ⟨fun _ h => worker?_setWorker_ne w s h, List.length_set, rfl, fun _ _ => rfl⟩

/-- WRITE_RESULT stores in the result windows only. -/
theorem onlyWorkerChanged_storeLatches (w w' : Worker) :
    OnlyWorkerChanged g s (setWorker g w' (storeLatches w s)) := by
  obtain ⟨-, -, hjob⟩ := results_written s w.candHex w.candDig
  exact ⟨fun _ h => worker?_setWorker_ne w' _ h, List.length_set, rfl, hjob.bytes⟩

theorem onlyWorkerChanged_workerStep {p : WPhase} {f : Worker → State} (h : ∀ w, OnlyWorkerChanged g s (f w)) :
    OnlyWorkerChanged g s (workerStep g p f s) := by
  rcases workerStep_cases g p f s with ⟨w, -, -, e⟩ | ⟨-, e⟩ <;> rw [e]
  · exact h w
  · exact .refl

theorem onlyWorkerChanged_waitStep : OnlyWorkerChanged g s (waitStep g s) := by
  unfold waitStep
  split
  · exact onlyWorkerChanged_workerStep fun _ => onlyWorkerChanged_setWorker _ _
  · exact .refl

theorem onlyWorkerChanged_pollStep : OnlyWorkerChanged g s (pollStep g s) := by
  refine onlyWorkerChanged_workerStep fun w => ?_
  split
  · exact onlyWorkerChanged_setWorker _ _
  · split <;> exact onlyWorkerChanged_setWorker _ _

theorem onlyWorkerChanged_evalStep : OnlyWorkerChanged g s (evalStep g s) := by
  refine onlyWorkerChanged_workerStep fun w => ?_
  simp only []
  split <;> exact onlyWorkerChanged_setWorker _ _

theorem onlyWorkerChanged_claimStep : OnlyWorkerChanged g s (claimStep g s) := by
  refine onlyWorkerChanged_workerStep fun w => ?_
  split <;> exact onlyWorkerChanged_setWorker _ _

theorem onlyWorkerChanged_writeResultStep : OnlyWorkerChanged g s (writeResultStep g s) :=
  onlyWorkerChanged_workerStep fun w => onlyWorkerChanged_storeLatches w _

theorem onlyWorkerChanged_publishStep : OnlyWorkerChanged g s (publishStep g s) :=
  onlyWorkerChanged_workerStep fun _ => onlyWorkerChanged_setWorker _ _

end

/-- Settles O35: each of the six operations writes its own worker back, or nothing, and WRITE_RESULT the result windows. -/
theorem workersTouchOnlyTheirOwnState : Obligations.WorkersTouchOnlyTheirOwnState := by
  intro s t g i hi e
  suffices h : OnlyWorkerChanged g s t from ⟨h.others, h.count, h.frame, h.bytes⟩
  simp only [List.mem_cons, List.not_mem_nil, or_false] at hi
  rcases hi with rfl | rfl | rfl | rfl | rfl | rfl <;> cases e
  · exact onlyWorkerChanged_waitStep
  · exact onlyWorkerChanged_pollStep
  · exact onlyWorkerChanged_evalStep
  · exact onlyWorkerChanged_claimStep
  · exact onlyWorkerChanged_writeResultStep
  · exact onlyWorkerChanged_publishStep

end Sys2Proof.Machine
end

section
/-! PROOFS. Reset (70_reset_and_hazards.md rules R280 and R281): what reads return where nothing was written since, and
the state that the reset input leads to. -/

namespace Sys2Proof.Machine

/-! ## Reads where nothing was written (rule R281) -/

theorem statusWord_idle {s : State} (hp : s.phase = .idle) (hd : s.done = false) : statusWord s = 0 := by
  rw [statusWord, busy_eq_decide, hp, hd]
  rfl

theorem foundWord_unset {s : State} (hf : s.found = .unset) : foundWord s = 0 := by
  rw [foundWord, hf]
  rfl

/-- The registers are read from the job alone. -/
theorem readReg_congr {s t : State} (h : t.job = s.job) (r : JobReg) : readReg r t = readReg r s := by
  simp only [readReg, h]

/-- Where no buffer byte was written since the reset, each is the free value drawn at it (rule R290, log entry 1). -/
theorem bufByte_of_mem_nil {s : State} (h : s.mem = []) (a : Nat) : bufByte s a = Config.resetByte s.env.epoch a := by
  rw [bufByte, h]
  rfl

/-- Settles O47: STATUS and FOUND are the words of an IDLE block with FOUND = 0, and no register or byte was written. -/
theorem resetStateReadsZero : Obligations.ResetStateReadsZero := by
  have hstatus : statusWord State.reset = 0 := statusWord_idle rfl rfl
  have hfound : foundWord State.reset = 0 := foundWord_unset rfl
  refine ⟨rfl, rfl, ⟨_, rfl, ?_⟩, ⟨_, rfl, ?_⟩, fun r => ⟨_, exec_jobRd r _, ?_⟩, bufByte_of_mem_nil rfl⟩
  · rw [hstatus]; exact answered_hostRead _ 0
  · rw [hfound]; exact answered_hostRead _ 0
  · rw [readReg_reset]; exact answered_hostRead _ 0

/-! ## The reset input (rule R280) -/

theorem stepAs_reset (s : State) : stepAs .reset s = .next (resetBlock s) := rfl

theorem readReg_resetBlock (r : JobReg) (s : State) : readReg r (resetBlock s) = 0 :=
  (readReg_congr (resetBlock_job s) r).trans (readReg_reset r)

/-- A byte of a buffer after the reset input is the free value of the next epoch. -/
theorem bufByte_resetBlock (s : State) (a : Nat) : bufByte (resetBlock s) a = Config.resetByte (s.env.epoch + 1) a :=
  bufByte_of_mem_nil (resetBlock_mem s) a

/-- Settles O48: in any phase the reset input's step is the reset of the block, which leaves the world outside alone. -/
theorem resetOverridesEveryPhase : Obligations.ResetOverridesEveryPhase := by
  intro s ps hsched
  have hstep : step s = .next (resetBlock (fed s.env.hostProg ps s)) := (step_eq_stepAs hsched).trans (stepAs_reset _)
  exact ⟨_, hstep, resetBlock_phase _, resetBlock_done _, resetBlock_found _, fun r => readReg_resetBlock r _,
    resetBlock_workers _, bufByte_resetBlock _, resetBlock_hostProg _, resetBlock_hostRx _, resetBlock_sched _⟩

/-! ## The invariant at reset -/

/-- Settles O49: outside a launch the invariant asks for a canonical memory, no worker and no claim. -/
theorem resetMeetsTheInvariant : Obligations.ResetMeetsTheInvariant :=
  have hf : State.reset.found ≠ .claimed := nofun
  inv_idle rfl rfl hf Memory.wf_reset

end Sys2Proof.Machine
end
